-- ==== Sys2Proof/Word.lean ====
section
/-! DEFINITION. The words of the engine and the small sets of names the spec gives (10_state.md, 30_encoding.md). -/

namespace Sys2Proof

/-- A 32-bit word: the operand, the datum of a response, the millisecond counter (R1 D1, R38, R90, R95). -/
abbrev Word := BitVec 32

/-- The 40-bit host command word (R90). -/
abbrev CommandWord := BitVec 40

/-- The 24-bit raw sample: a bit pattern without a sign of its own (R22, conflict C5). -/
abbrev Raw := BitVec 24

/-- The three supported gain/channel selections, codes 0, 1, 2 (R21, R101). There is no fourth. -/
inductive Selection where
  | a128 | b32 | a64
  deriving DecidableEq, Repr, Inhabited

/-- The two pins of an engine (R27, R61). -/
inductive Pin where
  | data | clk
  deriving DecidableEq, Repr

/-- The direction of a pin (R36). -/
inductive PinDir where
  | unconfigured | input | output
  deriving DecidableEq, Repr, Inhabited

/-- A platform failure code: 32 bits, never zero (R39, D11). -/
abbrev FailureCode := { e : Word // e ≠ 0 }

/-- The result of a PinConfig (R9, R39). -/
inductive CfgResult where
  | ok
  | fail (e : FailureCode)
  deriving DecidableEq, Repr, Inhabited

/-- The four response codes (R95, R231). -/
inductive Status where
  | ok | invalidArgument | timeout | pinFailure
  deriving DecidableEq, Repr

/-- The two modes (R31, R245). -/
inductive Mode where
  | normal | critical
  deriving DecidableEq, Repr

/-- The 24 phases of the sequencer, in the order of their codes 0 to 23 (R30). -/
inductive Phase where
  | idle | iCfgData | iCfgClk | pSet | pHold | wStart | wCheck | wYield | wTime
  | sEnter | sHi | sHiHold | sSample | sLo | sLoHold | gHi | gHiHold | gLo | gLoHold
  | sExit | xDecode | xCommit | rCheck | resp
  deriving DecidableEq, Repr

/-- An event of the trace (R10): what the pin port, the time port and the response port carry in a step. -/
inductive Event where
  /-- `cfg(p, dir) = r`. -/
  | cfg (p : Pin) (dir : PinDir) (r : CfgResult)
  /-- `w(CLK, v)`. -/
  | w (v : Bool)
  /-- `r(DATA) = b`. -/
  | r (b : Bool)
  /-- `us(n)`. -/
  | us (n : Nat)
  /-- `tick`. -/
  | tick
  /-- `now = v`. -/
  | now (v : Word)
  /-- `crit+`. -/
  | critEnter
  /-- `crit-`. -/
  | critExit
  /-- `rsp(s, d)`. -/
  | rsp (s : Status) (d : Word)
  deriving DecidableEq, Repr

end Sys2Proof
end

