-- ==== Sys2Proof/Syntax.lean ====
section
/-! DEFINITION. The six commands (30_encoding.md R91), one constructor per row of the opcode table. -/

namespace Sys2Proof

/-- A host command. The gain operands are the whole 32-bit arg, so that every out-of-range value can be presented
and rejected (R92). -/
inductive Instr where
  /-- INIT g (R157). -/
  | init (gain : Word)
  /-- SET_POWER d: `down` is arg[0] (R161, R93). -/
  | setPower (down : Bool)
  /-- SET_GAIN g (R163). -/
  | setGain (gain : Word)
  /-- IS_READY (R141). -/
  | isReady
  /-- WAIT_READY t, t in milliseconds (R143, R93). -/
  | waitReady (timeoutMs : Word)
  /-- READ (R168). -/
  | read
  deriving DecidableEq, Repr

/-- The pseudo-instruction POWER_DOWN (R104). -/
def Instr.powerDown : Instr := .setPower true

/-- The pseudo-instruction POWER_UP (R104). -/
def Instr.powerUp : Instr := .setPower false

end Sys2Proof
end

