-- ==== Sys2Proof/WellFormed.lean ====
section
/-! DEFINITION. Which commands carry a valid operand (30_encoding.md R92, R93). -/

namespace Sys2Proof

/-- A gain operand is valid iff it is 0, 1 or 2, read as a 32-bit unsigned number (R92). -/
def validGain (g : Word) : Bool := g.ult 3

/-- The operand is one the operation accepts. An INIT or SET_GAIN with another operand still has a word and still
decodes (R106), so the encoder covers it too. -/
def Instr.wellFormed : Instr → Bool
  | .init g => validGain g
  | .setPower _ => true
  | .setGain g => validGain g
  | .isReady => true
  | .waitReady _ => true
  | .read => true

end Sys2Proof
end

