-- ==== Sys2Proof/Decode.lean ====
section
/-! DEFINITION. The command word: decoder, encoder, the opcode table (30_encoding.md R90 to R94, R103, R106). -/

namespace Sys2Proof

/-- The operation codes (R91). -/
def Opcode.init : BitVec 8 := 0x01
@[inherit_doc Opcode.init] def Opcode.setPower : BitVec 8 := 0x02
@[inherit_doc Opcode.init] def Opcode.setGain : BitVec 8 := 0x03
@[inherit_doc Opcode.init] def Opcode.isReady : BitVec 8 := 0x04
@[inherit_doc Opcode.init] def Opcode.waitReady : BitVec 8 := 0x05
@[inherit_doc Opcode.init] def Opcode.read : BitVec 8 := 0x06

/-- The field op, bits 39:32 (R90). -/
def opField (w : CommandWord) : BitVec 8 := w.extractLsb' 32 8

/-- The field arg, bits 31:0 (R90). -/
def argField (w : CommandWord) : Word := w.extractLsb' 0 32

/-- Why a word is reserved (R94). -/
inductive Reserved where
  /-- op is 0x00 or 0x07 to 0xFF. -/
  | opcode (op : BitVec 8)
  /-- SET_POWER with arg[31:1] not 0. -/
  | setPowerArg (arg : Word)
  /-- IS_READY with arg not 0. -/
  | isReadyArg (arg : Word)
  /-- READ with arg not 0. -/
  | readArg (arg : Word)
  deriving DecidableEq, Repr

/-- The decoder: every 40-bit word is one command or reserved, for a named reason (R91, R94, R106). -/
def decode (w : CommandWord) : Except Reserved Instr :=
  if opField w = Opcode.init then .ok (.init (argField w))
  else if opField w = Opcode.setPower then
    if argField w = 0 then .ok (.setPower false)
    else if argField w = 1 then .ok (.setPower true)
    else .error (.setPowerArg (argField w))
  else if opField w = Opcode.setGain then .ok (.setGain (argField w))
  else if opField w = Opcode.isReady then
    if argField w = 0 then .ok .isReady else .error (.isReadyArg (argField w))
  else if opField w = Opcode.waitReady then .ok (.waitReady (argField w))
  else if opField w = Opcode.read then
    if argField w = 0 then .ok .read else .error (.readArg (argField w))
  else .error (.opcode (opField w))

/-- The operation code of a command (R91). -/
def Instr.opcode : Instr → BitVec 8
  | .init _ => Opcode.init
  | .setPower _ => Opcode.setPower
  | .setGain _ => Opcode.setGain
  | .isReady => Opcode.isReady
  | .waitReady _ => Opcode.waitReady
  | .read => Opcode.read

/-- The operand `down` as the word arg (R93). -/
def downArg (down : Bool) : Word := if down then 1 else 0

/-- The operand of a command as the word arg, zero-extended (R93, R103). -/
def Instr.operand : Instr → Word
  | .init g => g
  | .setPower d => downArg d
  | .setGain g => g
  | .isReady => 0
  | .waitReady t => t
  | .read => 0

/-- The word assembled, {op, arg} (R90, R103). Invalid gain operands are assembled too (R103, R106). -/
def encode (i : Instr) : CommandWord := i.opcode ++ i.operand

/-- One row of the opcode table of R91. -/
structure OpcodeRow where
  mnemonic : String
  pattern : CommandWord
  mask : CommandWord
  deriving DecidableEq, Repr

/-- The opcode table (R91, opcode_table.json). -/
def opcodeTable : List OpcodeRow :=
  [ ⟨"INIT", 0x0100000000, 0xFF00000000⟩,
    ⟨"SET_POWER", 0x0200000000, 0xFFFFFFFFFE⟩,
    ⟨"SET_GAIN", 0x0300000000, 0xFF00000000⟩,
    ⟨"IS_READY", 0x0400000000, 0xFFFFFFFFFF⟩,
    ⟨"WAIT_READY", 0x0500000000, 0xFF00000000⟩,
    ⟨"READ", 0x0600000000, 0xFFFFFFFFFF⟩ ]

/-- A word selects a row when `(w & mask) = match` (R91). -/
def OpcodeRow.selects (r : OpcodeRow) (w : CommandWord) : Bool := w &&& r.mask = r.pattern

/-- The mnemonic of a command (R91). -/
def Instr.mnemonic : Instr → String
  | .init _ => "INIT"
  | .setPower _ => "SET_POWER"
  | .setGain _ => "SET_GAIN"
  | .isReady => "IS_READY"
  | .waitReady _ => "WAIT_READY"
  | .read => "READ"

/-- The row a mnemonic's command is assembled from: {op, arg} for any 32-bit operand, legal or not (R103). -/
def assemble (op : BitVec 8) (arg : Word) : CommandWord := op ++ arg

/-- The host macro ACQUIRE t (R104): WAIT_READY t and then, only if it was answered OK, READ. Given the statuses
answered so far, the next command of the macro. -/
def acquireNext (t : Word) : List Status → Option Instr
  | [] => some (.waitReady t)
  | [.ok] => some .read
  | _ => none

/-- The command this decoder reads from a word whose table row has `nbits` bits. Every row has 40 (R90), and a word
that is longer than 40 bits is no command. DESIGN CHOICE (safe): log 21. -/
def decodeTableWord (nbits w : Nat) : Option Instr :=
  if w % 2 ^ nbits < 2 ^ 40 then
    match decode (BitVec.ofNat 40 (w % 2 ^ nbits)) with
    | .ok i => some i
    | .error _ => none
  else none

end Sys2Proof
end

