-- ==== Sys2Proof/Config.lean ====
section
/-! DEFINITION. The parameters of the engine (R6), what the environment may do between two steps, and the free values. -/

namespace Sys2Proof

/-- What the platform, the device's wire and the host present to the engine while it performs one step: the input
ports of R45, and the answers and durations of R41. -/
structure Inputs where
  /-- The reset input (R260). -/
  rst : Bool
  /-- The host presents a command word (R45). -/
  cmdValid : Bool
  /-- The command word presented (R90). -/
  cmdWord : CommandWord
  /-- The host takes the response (R204). -/
  rspReady : Bool
  /-- DOUT: the level of the data wire during this step (R37). -/
  dout : Bool
  /-- The platform's answer if this step asks a PinConfig (R39). -/
  cfg : CfgResult
  /-- By how many nanoseconds a delay of this step outlasts its lower bound (R41, R220). -/
  overrunNs : Nat
  deriving DecidableEq, Repr, Inhabited

/-- What the ADC does by itself between two engine steps. DESIGN CHOICE (safe): log 15. -/
inductive DeviceMove where
  | quiet
  /-- A conversion is finished, with this 24-bit result (R210, R211). -/
  | complete (raw : Raw)
  /-- A finished conversion is no longer available (N11). -/
  | withdraw
  /-- The device itself is reset (R271). -/
  | reset
  deriving DecidableEq, Repr, Inhabited

/-- A move with which the device may come to signal ready (R210, R271). -/
def DeviceMove.signalsReady : DeviceMove → Bool
  | .complete _ | .reset => true
  | .quiet | .withdraw => false

/-- One move of the environment (R219): what the agents other than the engine do between one engine step and the
next, and what they present to the next step. -/
structure EnvMove where
  inputs : Inputs
  /-- How far the platform clock advances, in true milliseconds (R221). -/
  msPassed : Nat
  /-- How long the engine waits before its next step, in nanoseconds (R220). -/
  gapNs : Nat
  device : DeviceMove
  deriving DecidableEq, Repr, Inhabited

namespace Config

/-- SAMPLE_BITS (R6). -/
def sampleBits : Nat := 24

/-- T_HIGH_US (R6). -/
def tHighUs : Nat := 1

/-- T_LOW_US (R6). -/
def tLowUs : Nat := 1

/-- T_GAIN_WAIT_MS (R6). -/
def tGainWaitMs : Word := 200

/-- T_PD_MIN_US (R6, R213). -/
def tPdMinUs : Nat := 60

/-- The pin identities DATA_PIN and CLK_PIN, OPEN (R6, R27, D10): which pads they are is the platform's. -/
opaque pinIdentity : Pin → Nat

/-- T_TICK in microseconds, less one: OPEN (R6, D12). -/
opaque tTickPredUs : Nat

/-- T_TICK in microseconds: a positive duration, otherwise OPEN (R6, D12, U10). -/
def tTickUs : Nat := tTickPredUs + 1

/-- T_JITTER_US, OPEN (R6, D15, U11): by how much a microsecond delay inside the critical section may overrun. -/
opaque tJitterUs : Nat

/-- Free value: what the environment does where the script has ended (R41). Log 4. -/
opaque freeMove : Nat → EnvMove

/-- Free value: the bit PinRead(DATA) returns while DIR_DATA is not `input` (U9). Log 8. -/
opaque freePinRead : Nat → Bool

/-- Free value: the level the device sees on the clock wire while DIR_CLK is not `output` (U9). Log 9. -/
opaque freeWire : Nat → Bool

/-- Free value: the direction of a pin whose PinConfig failed (U7, D31). Log 10. -/
opaque freeDir : Nat → PinDir

/-- A hold of 1 us lasts less than this, in nanoseconds (R226 (c)). -/
def holdLimitNs : Nat := 2000

/-- A hold of `us` microseconds that lasted `ns` nanoseconds kept its bounds: at least its length, at most T_JITTER_US
more (R97, R220), and below 2 us (R226 (c)). -/
def keepsHold (us ns : Nat) : Bool :=
  decide (ns < holdLimitNs) && decide (1000 * us ≤ ns) && decide (ns ≤ 1000 * (us + tJitterUs))

/-- Free value: DEV_SEL after pulses the document gives no guarantee for (U1, U2, U4, U5; log 12, log 13), and after a
power cycle or a reset of the device (N8, N12, U14; log 26, log 30). -/
opaque freeSel : Nat → Selection

/-- Free value: DEV_PENDING of a device whose frame was disturbed (U4; log 13), or that was reset (N12; log 30). -/
opaque freePending : Nat → Bool

/-- Free value: the conversion such a device holds (U4, N12). Log 13, log 30. -/
opaque freeResult : Nat → Raw

/-- Free value: the selection that conversion was made under (U4, N12). Log 13, log 30. -/
opaque freeResultSel : Nat → Selection

end Config

end Sys2Proof
end

