-- ==== Sys2Proof/Machine/State.lean ====
section
/-! DEFINITION. The state of the machine (10_state.md R20 to R45), its value after reset (R44, R260), and the reasons a step can stop. -/

namespace Sys2Proof.Machine

open Sys2Proof

/-- The engine registers (R20 (a)). -/
structure Engine where
  /-- SEQ (R30). -/
  seq : Phase
  /-- IDX (R29). -/
  idx : BitVec 5
  /-- PCNT (R29). -/
  pcnt : BitVec 2
  /-- MODE (R31). -/
  mode : Mode
  /-- GAIN, `none` while unwritten (R21). -/
  gain : Option Selection
  /-- ACC (R22). -/
  acc : Raw
  /-- SG (R23). -/
  sg : Selection
  /-- T0 (R24). -/
  t0 : Word
  /-- TMO (R25). -/
  tmo : Word
  /-- OP (R26). -/
  op : BitVec 8
  /-- ARG (R26). -/
  arg : Word
  /-- RSP_STATUS (R28). -/
  rspStatus : Status
  /-- RSP_DATA (R28). -/
  rspData : Word
  deriving DecidableEq, Repr

/-- The pin-side state (R20 (b)). -/
structure Pins where
  /-- SCK (R35). -/
  sck : Bool
  /-- DIR_DATA (R36). -/
  dirData : PinDir
  /-- DIR_CLK (R36). -/
  dirClk : PinDir
  deriving DecidableEq, Repr

/-- DEV_PWR (R40, R213). -/
inductive Power where
  | on | down
  deriving DecidableEq, Repr

/-- The hidden state of the ADC (R20 (d), R40): the three pieces the document names, and what R211 to R216 need. -/
structure Device where
  /-- DEV_SEL (R212). -/
  sel : Selection
  /-- DEV_PWR (R213). -/
  pwr : Power
  /-- DEV_PENDING (R210, R214). -/
  pending : Bool
  /-- The 24 bits of the conversion finished last (R211). -/
  result : Raw
  /-- The selection that conversion was made under (R126, R212). -/
  resultSel : Selection
  /-- The level the device last saw on the clock wire (R76). -/
  clk : Bool
  /-- For how many nanoseconds the clock wire has shown that level (R76, R213). -/
  levelNs : Nat
  /-- The pulses counted since the device signalled ready (R66); `none` while no such count runs (R215). -/
  pulses : Option Nat
  /-- It has lost its count to an edge that is no pulse of a frame, and has not signalled ready since (R66). -/
  strayed : Bool
  /-- A frame was disturbed and the device has not been power-cycled since (U4). -/
  disturbed : Bool
  deriving DecidableEq, Repr

/-- The machine: the parts (a) to (d) of R20, what the ports carried in the last step (R10, R45), and the two fields
of the model's own, `script` and `draws` (log 4). -/
structure State where
  eng : Engine
  pins : Pins
  /-- The input ports as they stand for the coming step (R20 (c), R45). -/
  inputs : Inputs
  /-- The platform clock in true milliseconds; NOW_MS is its value modulo 2^32 (R38, R221). -/
  clockMs : Nat
  dev : Device
  /-- What the pin, time and response ports carried in the last step, in order (R10, R45). -/
  events : List Event
  /-- The environment's coming moves, the next one first. -/
  script : List EnvMove
  /-- The counter the free values are drawn with. -/
  draws : Nat
  deriving DecidableEq, Repr

/-- Why the machine stops with a fault. -/
inductive Fault where
  /-- READ accepted while GAIN is `none` (R170 (c), R181, U8). Raised by the meaning of READ in phase IDLE. Safe: the
  spec names this model fault and gives the hardware no behaviour. -/
  | readBeforeGain
  deriving DecidableEq, Repr

/-- Why a step is refused. -/
inductive Refusal where
  /-- An instruction that has no meaning yet, by its mnemonic. Raised by an arm of exec only. Safe. -/
  | notModelled (mnemonic : String)
  deriving DecidableEq, Repr

/-- The engine registers after reset (R44, R260). SEQ, MODE and GAIN are the spec's values. The others the spec
leaves unspecified. DESIGN CHOICE (unsafe): zero, log 1. -/
def Engine.reset : Engine where
  seq := .idle
  idx := 0
  pcnt := 0
  mode := .normal
  gain := none
  acc := 0
  sg := .a128
  t0 := 0
  tmo := 0
  op := 0
  arg := 0
  rspStatus := .ok
  rspData := 0

/-- The pins after reset: clock level 0 and not driven (R44, D23). -/
def Pins.reset : Pins where
  sck := false
  dirData := .unconfigured
  dirClk := .unconfigured

/-- The inputs in the state after reset: rst is released and the host presents nothing. The rest may hold any value
(R44). DESIGN CHOICE (unsafe): log 2. -/
def inputsAtReset : Inputs where
  rst := false
  cmdValid := false
  cmdWord := 0
  rspReady := false
  dout := true
  cfg := .ok
  overrunNs := 0

/-- The device when a run begins. Not in source (N12, U14). DESIGN CHOICE (unsafe): log 2. -/
def Device.atReset : Device where
  sel := .a128
  pwr := .on
  pending := false
  result := 0
  resultSel := .a128
  clk := false
  levelNs := 0
  pulses := none
  strayed := false
  disturbed := false

/-- The machine right after reset (R44, R260, R261). -/
def State.reset : State where
  eng := Engine.reset
  pins := Pins.reset
  inputs := inputsAtReset
  clockMs := 0
  dev := Device.atReset
  events := []
  script := []
  draws := 0

end Sys2Proof.Machine
end

