-- ==== Sys2Proof/Machine/Ops.lean ====
section
/-! DEFINITION. The platform primitives (R9), the response, raising an error (R234) and the return from one (R240). -/

namespace Sys2Proof.Machine

/-- A step begins: the ports carry nothing yet. -/
def State.quiet (s : State) : State := { s with events := [] }

/-- The ports carry an event (R10). -/
def State.emit (e : Event) (s : State) : State := { s with events := s.events ++ [e] }

/-- SEQ <- p (R30). -/
def State.goto (p : Phase) (s : State) : State := { s with eng := { s.eng with seq := p } }

/-- NOW_MS: the platform clock modulo 2^32 (R38). -/
def State.nowMs (s : State) : Word := BitVec.ofNat 32 s.clockMs

/-- The level PinRead(DATA) returns in this step: DOUT, or, while DIR_DATA is not `input`, a free value
(R37, R223, U9; log 8). -/
def State.dataLevel (s : State) : Bool :=
  if s.pins.dirData = .input then s.inputs.dout else Config.freePinRead s.draws

/-- PinRead(DATA); the bit returned is `dataLevel` (R9). -/
def State.pinRead (s : State) : State := s.emit (.r s.dataLevel)

/-- PinWrite(CLK, v); SCK <- v (R9, R35). It is performed even when SCK already equals v (R72). -/
def State.pinWrite (v : Bool) (s : State) : State := { s with pins := { s.pins with sck := v } }.emit (.w v)

/-- The direction of a pin becomes d (R36). -/
def State.setDir (p : Pin) (d : PinDir) (s : State) : State :=
  match p with
  | .data => { s with pins := { s.pins with dirData := d } }
  | .clk => { s with pins := { s.pins with dirClk := d } }

/-- The direction a PinConfig leaves: the one asked for, or, on a failure, a free value (R36, U7; log 10). -/
def State.dirAfter (d : PinDir) (s : State) : PinDir :=
  match s.inputs.cfg with
  | .ok => d
  | .fail _ => Config.freeDir s.draws

/-- PinConfig(p, d); the result is `inputs.cfg` (R9, R36, R39). -/
def State.pinConfig (p : Pin) (d : PinDir) (s : State) : State :=
  (s.setDir p (s.dirAfter d)).emit (.cfg p d s.inputs.cfg)

/-- DelayUs(n) (R9). -/
def State.delayUs (n : Nat) (s : State) : State := s.emit (.us n)

/-- CoarseDelay() (R9). -/
def State.coarseDelay (s : State) : State := s.emit .tick

/-- NowMs(); the value returned is `nowMs` (R9). -/
def State.readClock (s : State) : State := s.emit (.now s.nowMs)

/-- CritEnter(); MODE <- CRITICAL (R9, R31). -/
def State.critEnter (s : State) : State := { s with eng := { s.eng with mode := .critical } }.emit .critEnter

/-- CritExit(); MODE <- NORMAL (R9, R31). -/
def State.critExit (s : State) : State := { s with eng := { s.eng with mode := .normal } }.emit .critExit

/-- respond(s, d): RSP_STATUS <- s; RSP_DATA <- d; SEQ <- RESP (R9, R181). -/
def State.respond (st : Status) (d : Word) (s : State) : State :=
  { s with eng := { s.eng with rspStatus := st, rspData := d, seq := .resp } }.emit (.rsp st d)

/-- The three error outcomes (R230, R231). -/
inductive Error where
  | invalidArgument
  | timeout
  | pinFailure (e : FailureCode)
  deriving DecidableEq, Repr

/-- The response code of an error (R231). -/
def Error.status : Error → Status
  | .invalidArgument => .invalidArgument
  | .timeout => .timeout
  | .pinFailure _ => .pinFailure

/-- The value an error records in RSP_DATA (R96, R231). -/
def Error.info : Error → Word
  | .invalidArgument => 0
  | .timeout => 0
  | .pinFailure e => e.val

/-- raise E(info): respond(code(E), info), and nothing else (R234). -/
def State.raise (e : Error) (s : State) : State := s.respond e.status e.info

/-- The return from a response, error or not: the host takes it and SEQ <- IDLE (R204, R240). -/
def State.takeResponse (s : State) : State := s.goto .idle

/-- OP and ARG latch the accepted command (R78, R181). -/
def State.latch (op : BitVec 8) (arg : Word) (s : State) : State :=
  { s with eng := { s.eng with op := op, arg := arg } }

end Sys2Proof.Machine
end

