-- ==== Sys2Proof/Machine/Operands.lean ====
section
/-! DEFINITION. Operand forms (R92, R93), the codes of the enumerations (R30, R95, R101), PULSES (R121) and DECODE (R130). -/

namespace Sys2Proof.Machine

/-- The code of a selection, 2 bits (R21, R101). -/
def codeOf : Selection → BitVec 2
  | .a128 => 0
  | .b32 => 1
  | .a64 => 2

/-- The gain operand: the whole arg, valid iff it is 0, 1 or 2; then the selection is arg[1:0] (R92). -/
def gainOperand (arg : Word) : Option Selection :=
  if arg = 0 then some .a128
  else if arg = 1 then some .b32
  else if arg = 2 then some .a64
  else none

/-- PULSES(g) = g + 1, the number of gain pulses (R101, R121). -/
def pulsesOf (g : Selection) : Nat := (codeOf g).toNat + 1

/-- PCNT <- SG + 1 (R29, R195). -/
def pcntOf (g : Selection) : BitVec 2 := codeOf g + 1

/-- The selection a frame of `n` pulses programs; only 25, 26 and 27 do (R98, R212). -/
def selectionOfPulses (n : Nat) : Option Selection :=
  if n = 25 then some .a128
  else if n = 26 then some .b32
  else if n = 27 then some .a64
  else none

/-- DECODE: sign extension from 24 to 32 bits (R130). -/
def decodeSample (raw : Raw) : Word := raw.signExtend 32

/-- The IS_READY datum, zext_32(!b): 1 for ready (R96, R141). -/
def readyDatum (b : Bool) : Word := if b then 0 else 1

/-- The code of a status on `rsp_status` (R95, R231). -/
def statusCode : Status → BitVec 2
  | .ok => 0
  | .invalidArgument => 1
  | .timeout => 2
  | .pinFailure => 3

/-- The code of a phase (R30). -/
def phaseCode : Phase → BitVec 5
  | .idle => 0
  | .iCfgData => 1
  | .iCfgClk => 2
  | .pSet => 3
  | .pHold => 4
  | .wStart => 5
  | .wCheck => 6
  | .wYield => 7
  | .wTime => 8
  | .sEnter => 9
  | .sHi => 10
  | .sHiHold => 11
  | .sSample => 12
  | .sLo => 13
  | .sLoHold => 14
  | .gHi => 15
  | .gHiHold => 16
  | .gLo => 17
  | .gLoHold => 18
  | .sExit => 19
  | .xDecode => 20
  | .xCommit => 21
  | .rCheck => 22
  | .resp => 23

end Sys2Proof.Machine
end

