-- ==== Sys2Proof/Machine/Flags.lean ====
section
/-! DEFINITION. The predicates a rule branches on (R43) and the output ports (R31 to R33, R45). There are no condition codes. -/

namespace Sys2Proof.Machine

/-- The bound of a wait is reached: (now -32 T0) >=u TMO (R145, R189). -/
def expired (now t0 tmo : Word) : Bool := tmo.ule (now - t0)

/-- READY: the data line reads logically low in this step (R33, R141). -/
def State.ready (s : State) : Bool := !s.dataLevel

/-- The phases in which MODE is CRITICAL (R31, R245). -/
def inCriticalPhase : Phase → Bool
  | .sHi | .sHiHold | .sSample | .sLo | .sLoHold | .gHi | .gHiHold | .gLo | .gLoHold | .sExit => true
  | _ => false

/-- The phases in which a reset cuts a frame short: S_HI to G_LO_HOLD (R262). -/
def cutsFrame (p : Phase) : Bool := inCriticalPhase p && p ≠ .sExit

/-- A frame is under way on the wire: its first pulse has begun and its last one has not ended (R97, R190 to R199). -/
def State.midFrame (s : State) : Bool :=
  match s.eng.seq with
  | .sHi => s.eng.idx != 0
  | .gLoHold => s.eng.pcnt != 1
  | p => cutsFrame p

/-- Output port `cmd_ready` (R32, R45). -/
def State.cmdReady (s : State) : Bool := s.eng.seq = .idle

/-- Output port `busy` (R32, R45). -/
def State.busy (s : State) : Bool := s.eng.seq ≠ .idle

/-- Output port `rsp_valid` (R45, R204). -/
def State.rspValid (s : State) : Bool := s.eng.seq = .resp

/-- Output port `rsp_status` (R45, R95). -/
def State.rspStatusPort (s : State) : BitVec 2 := statusCode s.eng.rspStatus

/-- Output port `rsp_data` (R45). -/
def State.rspDataPort (s : State) : Word := s.eng.rspData

/-- Output port `crit`: MODE (R31, R45). -/
def State.crit (s : State) : Bool := s.eng.mode = .critical

/-- The clock wire `sck`: SCK while DIR_CLK is `output`, otherwise not driven and a free value (R35, R45, U9; log 9). That
the device reacts to such a level as to a driven one is the model's choice (D23; log 31). -/
def State.clkWire (s : State) : Bool :=
  if s.pins.dirClk = .output then s.pins.sck else Config.freeWire s.draws

end Sys2Proof.Machine
end

