-- ==== Sys2Proof/Machine/Lifecycle.lean ====
section
/-! DEFINITION. The configuration, power and commit phases (R182 to R185, R202), and phase RESP (R204). -/

namespace Sys2Proof.Machine

/-- Phase I_CFG_DATA (R182). -/
def phaseICfgData (s : State) : State :=
  let r := s.inputs.cfg
  let s := s.pinConfig .data .input
  match r with
  | .ok => s.goto .iCfgClk
  | .fail e => s.raise (.pinFailure e)

/-- Phase I_CFG_CLK (R183). -/
def phaseICfgClk (s : State) : State :=
  let r := s.inputs.cfg
  let s := s.pinConfig .clk .output
  match r with
  | .ok => s.goto .pSet
  | .fail e => s.raise (.pinFailure e)

/-- The level phase P_SET drives: 0 if OP = INIT, else ARG[0] (R184). -/
def powerLevel (op : BitVec 8) (arg : Word) : Bool := if op = Opcode.init then false else arg.getLsbD 0

/-- Phase P_SET (R184). -/
def phasePSet (op : BitVec 8) (arg : Word) (s : State) : State :=
  (s.pinWrite (powerLevel op arg)).goto .pHold

/-- Phase P_HOLD (R185). -/
def phasePHold (op : BitVec 8) (s : State) : State :=
  let s := s.coarseDelay
  if op = Opcode.init then { s with eng := { s.eng with tmo := Config.tGainWaitMs, seq := .wStart } }
  else s.respond .ok 0

/-- Phase X_COMMIT (R202). -/
def phaseXCommit (s : State) : State :=
  { s with eng := { s.eng with gain := some s.eng.sg } }.respond .ok 0

/-- Phase RESP (R204): it waits until the host takes the response (R180). -/
def phaseResp (s : State) : State := if s.inputs.rspReady then s.takeResponse else s

end Sys2Proof.Machine
end

