-- ==== Sys2Proof/Machine/Readiness.lean ====
section
/-! DEFINITION. The readiness phases W_START to W_TIME and R_CHECK (R186 to R189, R203): WAIT (R143) and IS_READY (R141). -/

namespace Sys2Proof.Machine

/-- Phase W_START (R186). -/
def phaseWStart (s : State) : State :=
  let n := s.nowMs
  let s := s.readClock
  { s with eng := { s.eng with t0 := n, seq := .wCheck } }

/-- Phase W_CHECK (R187): a low line ends the wait, POLLING to READY (R147). -/
def phaseWCheck (op : BitVec 8) (s : State) : State :=
  let b := s.dataLevel
  let s := s.pinRead
  if b then s.goto .wYield
  else if op = Opcode.waitReady then s.respond .ok 0
  else s.goto .sEnter

/-- Phase W_YIELD (R188). -/
def phaseWYield (s : State) : State := s.coarseDelay.goto .wTime

/-- Phase W_TIME (R189): the bound reached ends the wait, POLLING to EXPIRED (R147). -/
def phaseWTime (s : State) : State :=
  let n := s.nowMs
  let s := s.readClock
  if expired n s.eng.t0 s.eng.tmo then s.raise .timeout else s.goto .wCheck

/-- Phase R_CHECK (R203). -/
def phaseRCheck (s : State) : State :=
  let b := s.dataLevel
  s.pinRead.respond .ok (readyDatum b)

end Sys2Proof.Machine
end

