-- ==== Sys2Proof/Machine/Shift.lean ====
section
/-! DEFINITION. The shift phases S_ENTER to S_EXIT and X_DECODE (R190 to R201): SHIFT (R122), the gain pulses and DECODE (R130). -/

namespace Sys2Proof.Machine

/-- Phase S_ENTER (R190). -/
def phaseSEnter (s : State) : State :=
  let s := s.critEnter
  { s with eng := { s.eng with acc := 0, idx := 0, seq := .sHi } }

/-- Phase S_HI (R191). -/
def phaseSHi (s : State) : State := (s.pinWrite true).goto .sHiHold

/-- Phase S_HI_HOLD (R192). -/
def phaseSHiHold (s : State) : State := (s.delayUs Config.tHighUs).goto .sSample

/-- A bit OR-ed into ACC[23 - IDX] (R64, R122, R193). IDX is at most 23 in every state that meets the invariant; above
that the shift amount is 0, which no run reaches (log 19). -/
def orSample (acc : Raw) (idx : BitVec 5) (b : Bool) : Raw :=
  acc ||| ((BitVec.ofBool b).setWidth 24 <<< (23 - idx.toNat))

/-- Phase S_SAMPLE (R193). -/
def phaseSSample (s : State) : State :=
  let b := s.dataLevel
  let s := s.pinRead
  { s with eng := { s.eng with acc := orSample s.eng.acc s.eng.idx b, seq := .sLo } }

/-- Phase S_LO (R194). -/
def phaseSLo (s : State) : State := (s.pinWrite false).goto .sLoHold

/-- Phase S_LO_HOLD (R195). -/
def phaseSLoHold (s : State) : State :=
  let s := s.delayUs Config.tLowUs
  if s.eng.idx = 23 then { s with eng := { s.eng with pcnt := pcntOf s.eng.sg, seq := .gHi } }
  else { s with eng := { s.eng with idx := s.eng.idx + 1, seq := .sHi } }

/-- Phase G_HI (R196). -/
def phaseGHi (s : State) : State := (s.pinWrite true).goto .gHiHold

/-- Phase G_HI_HOLD: the data line is not read (R197). -/
def phaseGHiHold (s : State) : State := (s.delayUs Config.tHighUs).goto .gLo

/-- Phase G_LO (R198). -/
def phaseGLo (s : State) : State := (s.pinWrite false).goto .gLoHold

/-- Phase G_LO_HOLD (R199). -/
def phaseGLoHold (s : State) : State :=
  let s := s.delayUs Config.tLowUs
  if s.eng.pcnt = 1 then s.goto .sExit
  else { s with eng := { s.eng with pcnt := s.eng.pcnt - 1, seq := .gHi } }

/-- Phase S_EXIT (R200). -/
def phaseSExit (op : BitVec 8) (s : State) : State :=
  s.critExit.goto (if op = Opcode.read then .xDecode else .xCommit)

/-- Phase X_DECODE (R201). -/
def phaseXDecode (s : State) : State := s.respond .ok (decodeSample s.eng.acc)

end Sys2Proof.Machine
end

