-- ==== Sys2Proof/Machine/Sequencer.lean ====
section
/-! DEFINITION. The transition table (R180 to R205): what one step does in each phase, and the acceptance of a command (R181). -/

namespace Sys2Proof.Machine

/-- The transition table: the step of the phase SEQ names, for the latched command op, arg (R180, R182 to R205). In
IDLE without an accepted command the engine has no step of its own and waits. -/
def sequencer (op : BitVec 8) (arg : Word) (s : State) : State :=
  let s := s.quiet
  match s.eng.seq with
  | .idle => s
  | .iCfgData => phaseICfgData s
  | .iCfgClk => phaseICfgClk s
  | .pSet => phasePSet op arg s
  | .pHold => phasePHold op s
  | .wStart => phaseWStart s
  | .wCheck => phaseWCheck op s
  | .wYield => phaseWYield s
  | .wTime => phaseWTime s
  | .sEnter => phaseSEnter s
  | .sHi => phaseSHi s
  | .sHiHold => phaseSHiHold s
  | .sSample => phaseSSample s
  | .sLo => phaseSLo s
  | .sLoHold => phaseSLoHold s
  | .gHi => phaseGHi s
  | .gHiHold => phaseGHiHold s
  | .gLo => phaseGLo s
  | .gLoHold => phaseGLoHold s
  | .sExit => phaseSExit op s
  | .xDecode => phaseXDecode s
  | .xCommit => phaseXCommit s
  | .rCheck => phaseRCheck s
  | .resp => phaseResp s

/-- The operation begins: SG <- g and, for INIT, GAIN <- g (R181). -/
def State.loadSg (g : Selection) (s : State) : State := { s with eng := { s.eng with sg := g } }

/-- TMO <- t; SEQ <- W_START (R181). -/
def State.beginWait (t : Word) (s : State) : State := { s with eng := { s.eng with tmo := t, seq := .wStart } }

/-- Acceptance of INIT: the operand is validated first, then the handle is populated (R157, R158, R181). -/
def acceptInit (arg : Word) (s : State) : State :=
  let s := s.quiet.latch Opcode.init arg
  match gainOperand arg with
  | none => s.raise .invalidArgument
  | some g => { (s.loadSg g).goto .iCfgData with eng.gain := some g }

/-- Acceptance of SET_POWER (R181). -/
def acceptSetPower (down : Bool) (s : State) : State :=
  (s.quiet.latch Opcode.setPower (downArg down)).goto .pSet

/-- Acceptance of SET_GAIN (R163, R181). -/
def acceptSetGain (arg : Word) (s : State) : State :=
  let s := s.quiet.latch Opcode.setGain arg
  match gainOperand arg with
  | none => s.raise .invalidArgument
  | some g => (s.loadSg g).beginWait Config.tGainWaitMs

/-- Acceptance of IS_READY (R181). -/
def acceptIsReady (s : State) : State := (s.quiet.latch Opcode.isReady 0).goto .rCheck

/-- Acceptance of WAIT_READY (R181). -/
def acceptWaitReady (t : Word) (s : State) : State := (s.quiet.latch Opcode.waitReady t).beginWait t

/-- Acceptance of READ with GAIN = g (R168, R181). -/
def acceptRead (g : Selection) (s : State) : State :=
  ((s.quiet.latch Opcode.read 0).loadSg g).goto .sEnter

/-- Acceptance of a reserved word: answered InvalidArgument at once, nothing else touched (R94, R181, R232). -/
def acceptReserved (w : CommandWord) (s : State) : State :=
  (s.quiet.latch (opField w) (argField w)).raise .invalidArgument

end Sys2Proof.Machine
end

