-- ==== Sys2Proof/Machine/Commands.lean ====
section
/-! DEFINITION. The meaning of each command: the step it takes in the phase the sequencer is in, from its acceptance in IDLE to
RESP (R157, R161, R163, R141, R143, R168; phase by phase R180 to R205). Log 5. -/

namespace Sys2Proof.Machine

/-- One step of INIT g (R157, R181). -/
def execInit (gain : Word) (s : State) : Host.Outcome State Fault Refusal :=
  if s.eng.seq = .idle then .next (acceptInit gain s) else .next (sequencer Opcode.init gain s)

/-- One step of SET_POWER d (R161, R181). -/
def execSetPower (down : Bool) (s : State) : Host.Outcome State Fault Refusal :=
  if s.eng.seq = .idle then .next (acceptSetPower down s) else .next (sequencer Opcode.setPower (downArg down) s)

/-- One step of SET_GAIN g (R163, R181). -/
def execSetGain (gain : Word) (s : State) : Host.Outcome State Fault Refusal :=
  if s.eng.seq = .idle then .next (acceptSetGain gain s) else .next (sequencer Opcode.setGain gain s)

/-- One step of IS_READY (R141, R181). -/
def execIsReady (s : State) : Host.Outcome State Fault Refusal :=
  if s.eng.seq = .idle then .next (acceptIsReady s) else .next (sequencer Opcode.isReady 0 s)

/-- One step of WAIT_READY t (R143, R181). -/
def execWaitReady (timeoutMs : Word) (s : State) : Host.Outcome State Fault Refusal :=
  if s.eng.seq = .idle then .next (acceptWaitReady timeoutMs s) else .next (sequencer Opcode.waitReady timeoutMs s)

/-- One step of READ (R168, R181). READ accepted while GAIN is `none` is the spec's model fault (R170 (c), U8; log 7). -/
def execRead (s : State) : Host.Outcome State Fault Refusal :=
  if s.eng.seq = .idle then
    match s.eng.gain with
    | none => .fault .readBeforeGain
    | some g => .next (acceptRead g s)
  else .next (sequencer Opcode.read 0 s)

end Sys2Proof.Machine
end

