-- ==== Sys2Proof/Machine/Dispatch.lean ====
section
/-! DEFINITION. One arm per command. -/

namespace Sys2Proof.Machine

open Sys2Proof

def exec (i : Instr) (s : State) : Host.Outcome State Fault Refusal :=
  match i with
  | .init gain => Sys2Proof.Machine.execInit gain s
  | .setPower down => Sys2Proof.Machine.execSetPower down s
  | .setGain gain => Sys2Proof.Machine.execSetGain gain s
  | .isReady => Sys2Proof.Machine.execIsReady s
  | .waitReady timeoutMs => Sys2Proof.Machine.execWaitReady timeoutMs s
  | .read => Sys2Proof.Machine.execRead s

end Sys2Proof.Machine
end

