-- ==== Sys2Proof/Machine/Device.lean ====
section
/-! DEFINITION. The ADC as far as the document states it (50_environment.md R210 to R217). All it learns of the engine is the level
on the clock wire and how long it lasts (R76). Every value the document does not give is a free value (U1, U2, U4, U5,
U14); State.keepsFrame says when it gives none any more (R215, R216). The engine's step never depends on the device (R218). -/

namespace Sys2Proof.Machine

/-- The device has counted one to 24 pulses since it signalled ready: a part of its conversion is shifted out (R66). -/
def Device.partShifted (d : Device) : Bool :=
  match d.pulses with
  | some c => decide (0 < c) && decide (c < 25)
  | none => false

/-- The device may be in the middle of shifting a conversion out: from the first rising edge since it signalled ready to
the 25th falling one (R66). -/
def Device.midShift (d : Device) : Bool :=
  match d.pulses with
  | some c => decide (c < 25) && (decide (0 < c) || d.clk)
  | none => false

/-- The document gives no value of the device any more: DEV_SEL, DEV_PENDING and the conversion held are free; a device
in power-down has nothing pending (R214, U4). Log 13. -/
def Device.unknown (n : Nat) (d : Device) : Device :=
  { d with
    sel := Config.freeSel n
    pending := (d.pwr == .on) && Config.freePending n
    result := Config.freeResult n
    resultSel := Config.freeResultSel n }

/-- A frame is disturbed: nothing is known of the device until a power cycle (R67, R216, U4). Log 13. -/
def Device.disturb (n : Nat) (d : Device) : Device :=
  { d.unknown n with pulses := none, strayed := false, disturbed := true }

/-- The device sees a falling edge while it does not count: DEV_SEL is free (R215, U1; log 12), and if it has lost its
count, everything else of it too (log 16). -/
def Device.uncounted (n : Nat) (d : Device) : Device :=
  if d.strayed then d.unknown n else { d with sel := Config.freeSel n }

/-- The device sees an edge that is no pulse of a frame. If it counts, its count is lost, and nothing is known of it until
it signals ready again and counts afresh (R66); DEV_SEL is free in any case. No frame is disturbed. Log 16. -/
def Device.stray (n : Nat) (d : Device) : Device :=
  match d.pulses with
  | none => d.uncounted n
  | some _ => { d.unknown n with pulses := none, strayed := true }

/-- The device enters power-down and discards a pending conversion (R213, R214, R272). -/
def Device.powerDown (d : Device) : Device :=
  { d with pwr := .down, pending := false, pulses := none, strayed := false }

/-- The clock is driven low again: the device is on and starts converting afresh (R213, R214), and the effect of a
disturbed frame is over (U4). Whether it has kept its selection is not in source (N8, U14): DEV_SEL is a free value.
That the first falling edge of a frame begun with the clock high (N26, U5) does the same, and is no pulse the device
counts, is the model's choice. Log 13, log 26, log 29. -/
def Device.powerUp (n : Nat) (d : Device) : Device :=
  { d with pwr := .on, sel := Config.freeSel n, pulses := none, strayed := false, disturbed := false }

/-- The device counts a clock pulse (R66). The first 24 since it signalled ready shift the conversion out. The 25th to
the 27th are gain pulses: DEV_SEL is the selection of a frame that ends there, and the conversion is consumed (R126,
R212; when exactly is not in source, log 11, log 14). A further pulse, or one on a device that is not ready, leaves
DEV_SEL free (R215, U1, U2; log 12). -/
def Device.pulse (n : Nat) (d : Device) : Device :=
  match d.pulses with
  | none => d.uncounted n
  | some c =>
    if c < 24 then { d with pulses := some (c + 1) }
    else match selectionOfPulses (c + 1) with
      | some g => { d with pulses := some (c + 1), sel := g, pending := false }
      | none => { d with pulses := none, sel := Config.freeSel n }

/-- A rising clock edge. After a low that is no hold between two pulses the count is lost, for it does not stand at the
start of a frame; once a gain pulse was counted it ends, since the frame may have been over. (In a frame the platform's
broken bound disturbs it: State.keepsBounds.) Log 12, log 16. -/
def Device.risingEdge (n : Nat) (d : Device) : Device :=
  match d.pulses with
  | none => d
  | some c =>
    if c = 0 || Config.keepsHold Config.tLowUs d.levelNs then d
    else if c < 25 then d.stray n
    else { d with pulses := none }

/-- A falling clock edge. It ends power-down (R213), also as the first one of a frame begun with the clock high (N26; log
29), or completes a pulse; after a high that is no hold of a pulse it is none. Of a disturbed device nothing is known,
whatever it sees. Log 13, log 16. -/
def Device.fallingEdge (n : Nat) (d : Device) : Device :=
  match d.pwr with
  | .down => d.powerUp n
  | .on =>
    if d.disturbed then d.unknown n
    else if Config.keepsHold Config.tHighUs d.levelNs then d.pulse n
    else d.stray n

/-- The edge the device sees when the wire shows `level` (R76). -/
def Device.edge (n : Nat) (level : Bool) (d : Device) : Device :=
  match d.clk, level with
  | false, true => d.risingEdge n
  | true, false => d.fallingEdge n
  | _, _ => d

/-- For how long the wire has shown `level`, once it has done so for `ns` more nanoseconds. -/
def Device.levelTime (level : Bool) (ns : Nat) (d : Device) : Nat := if d.clk = level then d.levelNs + ns else ns

/-- The device sees `level` on the clock wire for `ns` nanoseconds (R76, R213). A level of a wire that is not driven powers
it down or up like a driven one, although D23's reason says that an undriven clock cannot power it down: the model's
choice, log 31. -/
def Device.observe (n : Nat) (level : Bool) (ns : Nat) (d : Device) : Device :=
  let e := { d.edge n level with clk := level, levelNs := d.levelTime level ns }
  if e.pwr = .on ∧ level = true ∧ 1000 * Config.tPdMinUs ≤ e.levelNs then e.powerDown else e

/-- A reset of the engine while the sequencer is in `seq`. It does not reach the device (R261), but from S_HI to
G_LO_HOLD it cuts a frame short, and then nothing is known of the device (R67, R262, U4). Log 20. -/
def Device.engineReset (n : Nat) (seq : Phase) (d : Device) : Device :=
  if cutsFrame seq then d.disturb n else d

/-- A conversion is finished: it was made under the selection in force, the device signals ready, and its count of pulses
begins (R66, R210, R212). In the middle of shifting out another one that disturbs the frame, and a disturbed device
counts nothing (N11, U4). Log 15. -/
def Device.complete (n : Nat) (raw : Raw) (d : Device) : Device :=
  if d.disturbed || d.partShifted then { d.disturb n with pending := true, result := raw }
  else { d with pending := true, result := raw, resultSel := d.sel, pulses := some 0, strayed := false }

/-- The finished conversion is no longer available (N11). In the middle of shifting it out that disturbs the frame. Log
15. -/
def Device.withdraw (n : Nat) (d : Device) : Device :=
  if d.partShifted then { d.disturb n with pending := false } else { d with pending := false, pulses := none }

/-- The device itself is reset (R271): the document gives no value it holds then (N12, U14). If it has a conversion, its
count of pulses begins. In the middle of shifting one out that disturbs the frame. Log 30. -/
def Device.ownReset (n : Nat) (d : Device) : Device :=
  if d.disturbed || d.partShifted then d.disturb n
  else { d.unknown n with pulses := if (d.unknown n).pending then some 0 else none, strayed := false }

/-- The device's own move: a conversion is finished, or the finished one is no longer available (N11), or the device is
reset (R271). A device in power-down converts nothing (R214). Log 15. -/
def Device.move (n : Nat) (m : DeviceMove) (d : Device) : Device :=
  match m with
  | .quiet => d
  | .complete raw => if d.pwr = .on then d.complete n raw else d
  | .withdraw => if d.pending then d.withdraw n else d
  | .reset => d.ownReset n

end Sys2Proof.Machine
end

