-- ==== Sys2Proof/Machine/Environment.lean ====
section
/-! DEFINITION. The agents other than the engine (R219): time, the device, the platform clock, the host; and the reset input (R260). -/

namespace Sys2Proof.Machine

/-- The environment's next move: the script's first, or a free one where the script has ended (R41, R223). Log 4. -/
def State.nextMove (s : State) : EnvMove :=
  match s.script with
  | m :: _ => m
  | [] => Config.freeMove s.draws

/-- How long an event takes, in nanoseconds: a delay its lower bound and this step's overrun, anything else no modelled
time (R220). Log 17. -/
def eventNs (overrunNs : Nat) : Event → Nat
  | .us n => 1000 * n + overrunNs
  | .tick => 1000 * Config.tTickUs + overrunNs
  | _ => 0

/-- How long the step just taken lasted, in nanoseconds (R220). -/
def State.stepNs (s : State) : Nat := (s.events.map (eventNs s.inputs.overrunNs)).sum

/-- The platform has kept its bounds in the step just taken: a hold is no longer than R220 and R226 (c) say, and while
MODE is CRITICAL the engine is not delayed before its next step (R226 (b)). -/
def State.keepsBounds (m : EnvMove) (s : State) : Bool :=
  s.events.all (fun e => match e with
    | .us n => Config.keepsHold n (eventNs s.inputs.overrunNs e)
    | _ => true) && (s.eng.mode != .critical || m.gapNs == 0)

/-- The document still gives the device's state: the platform has kept its bounds (R216, R226), and the device does not
come to signal ready in the middle of a frame, which did not find it ready then or is shifting out another conversion
(R215, U1, N11, N35). Log 12, log 13. -/
def State.keepsFrame (m : EnvMove) (s : State) : Bool := s.keepsBounds m && !(s.midFrame && m.device.signalsReady)

/-- The clock wire falls outside a SHIFT: a power command's write, or a wire that is not driven, and no pulse (R66). -/
def State.strayEdge (s : State) : Bool := s.eng.mode == .normal && s.dev.clk && !s.clkWire

/-- The device after a step of the engine and the environment's move: it sees the clock wire for as long as the step and
the wait after it last, and then makes a move of its own (R76, R210 to R216, R219 (b)). Where the document no longer
gives its state it is disturbed, though the wire does not show where a frame begins and where its last hold ends; and an
edge outside a SHIFT is no pulse (R66), though the wire may not show that either. Log 12, log 13, log 16. -/
def State.deviceAfter (m : EnvMove) (s : State) : Device :=
  let d := s.dev.observe s.draws s.clkWire (s.stepNs + m.gapNs)
  let e := if s.keepsFrame m then (if s.strayEdge then d.stray s.draws else d) else d.disturb s.draws
  e.move s.draws m.device

/-- The environment moves: time passes, the device reacts to the wire and moves itself, the platform clock advances,
and the inputs of the next step stand at the ports (R219, R220, R221, R223). -/
def State.advance (s : State) : State :=
  let m := s.nextMove
  { s with
    inputs := m.inputs
    clockMs := s.clockMs + m.msPassed
    dev := s.deviceAfter m
    script := s.script.tail
    draws := s.draws + 1 }

/-- The environment moves after a step that answers a next state. -/
def advanceOutcome : Host.Outcome State Fault Refusal → Host.Outcome State Fault Refusal
  | .next s => .next s.advance
  | .fault r => .fault r
  | .refused r => .refused r

/-- A step with rst asserted: the engine registers and the pins take their reset values, the device and the platform
clock are not reached (R260, R261, R262). Log 1, log 20. -/
def State.applyReset (s : State) : State :=
  { s with
    eng := Engine.reset
    pins := Pins.reset
    events := []
    dev := s.dev.engineReset s.draws s.eng.seq }

end Sys2Proof.Machine
end

