-- ==== Sys2Proof/Machine/Step.lean ====
section
/-! DEFINITION. One step of the machine: the reset input, the acceptance of a command word (R181) or the phase SEQ names (R180), and
then the environment's move (R219). -/

namespace Sys2Proof.Machine

open Sys2Proof

/-- The engine's step, before the environment moves: in IDLE with a command word presented the word is decoded and
accepted, a reserved word answered (R94, R181); in any other phase, and in IDLE without a word, the table runs (R180). -/
def engineStep (s : State) : Host.Outcome State Fault Refusal :=
  if s.eng.seq = .idle ∧ s.inputs.cmdValid = true then
    match decode s.inputs.cmdWord with
    | .ok i => exec i s
    | .error _ => .next (acceptReserved s.inputs.cmdWord s)
  else .next (sequencer s.eng.op s.eng.arg s)

/-- One step (R180, R219, R260). An asserted rst takes the place of the engine's step (log 25). -/
def step (s : State) : Host.Outcome State Fault Refusal :=
  if s.inputs.rst then .next s.applyReset.advance else advanceOutcome (engineStep s)

/-- The host presents the word `w` to an engine that is in IDLE, with rst released, so that the next step accepts it
(R45, R77, R181). Log 3. -/
def State.withFetchWord (s : State) (nbits w : Nat) : State :=
  { s with
    eng := { s.eng with seq := .idle }
    inputs := { s.inputs with rst := false, cmdValid := true, cmdWord := BitVec.ofNat 40 (w % 2 ^ nbits) } }

end Sys2Proof.Machine
end

