-- ==== Sys2Proof/Machine/Procedure.lean ====
section
/-! DEFINITION. The operations as the document's procedures (40, 41, 42: R122, R143, R141, R157, R161, R163, R168), read as functions
from the environment's answers to the event trace (R10, R124, R150) and the registers at RESP. The sequencer of R180 to
R204 refines them (R206). The model's step does not use this file. -/

namespace Sys2Proof.Machine

/-- The answers an operation asks for, each kind in the order it is asked for (R10, R41). -/
structure Answers where
  cfgs : List CfgResult
  nows : List Word
  douts : List Bool
  deriving DecidableEq, Repr

/-- The answers that a trace holds (R10). -/
def answersOf (tr : List Event) : Answers where
  cfgs := tr.filterMap fun e => match e with | .cfg _ _ r => some r | _ => none
  nows := tr.filterMap fun e => match e with | .now v => some v | _ => none
  douts := tr.filterMap fun e => match e with | .r b => some b | _ => none

/-- The registers R206 compares, before the response: GAIN, SCK and the two directions; a direction the spec leaves
unspecified is `none` (R36, U7). -/
structure Handle where
  gain : Option Selection
  sck : Bool
  dirData : Option PinDir
  dirClk : Option PinDir
  deriving DecidableEq, Repr

/-- What an operation leaves at RESP (R206). -/
structure Final where
  handle : Handle
  status : Status
  datum : Word
  deriving DecidableEq, Repr

/-- The state of R206 before an operation. -/
def State.handle (s : State) : Handle where
  gain := s.eng.gain
  sck := s.pins.sck
  dirData := some s.pins.dirData
  dirClk := some s.pins.dirClk

/-- The state at RESP holds what the procedure leaves; an unspecified direction may be any (R36, R206). -/
def Final.agrees (f : Final) (s : State) : Prop :=
  s.eng.gain = f.handle.gain ∧ s.pins.sck = f.handle.sck ∧
  (∀ d, f.handle.dirData = some d → s.pins.dirData = d) ∧
  (∀ d, f.handle.dirClk = some d → s.pins.dirClk = d) ∧
  s.eng.rspStatus = f.status ∧ s.eng.rspData = f.datum

/-- One data pulse (R97, R122). -/
def dataPulse (b : Bool) : List Event :=
  [.w true, .us Config.tHighUs, .r b, .w false, .us Config.tLowUs]

/-- One gain pulse (R97, R122). -/
def gainPulse : List Event := [.w true, .us Config.tHighUs, .w false, .us Config.tLowUs]

/-- The trace of SHIFT with samples `bits` and selection g (R124). -/
def shiftTrace (bits : List Bool) (g : Selection) : List Event :=
  [.critEnter] ++ bits.flatMap dataPulse ++ (List.replicate (pulsesOf g) gainPulse).flatten ++ [.critExit]

/-- The raw value of samples b_0, b_1, …: the number whose bit 23 - i is b_i, the sum of b_i * 2^(23 - i)
(R64, R99). -/
def assembleSamples (bits : List Bool) : Raw :=
  BitVec.ofNat 24 ((bits.zipIdx.map fun p => if p.1 then 2 ^ (23 - p.2) else 0).sum)

/-- WAIT's loop, given the bound, T0 and the answers of the line and the clock: the trace, whether it ended ready, and
the answers left over (R143, R150). `none`: the answers ran out. -/
def waitLoop (tmo t0 : Word) : List Bool → List Word → Option (List Event × Bool × List Bool)
  | [], _ => none
  | false :: bs, _ => some ([.r false], true, bs)
  | true :: _, [] => none
  | true :: bs, n :: ns =>
    if tmo ≤ n - t0 then some ([.r true, .tick, .now n], false, bs)
    else (waitLoop tmo t0 bs ns).map fun p => ([.r true, .tick, .now n] ++ p.1, p.2)

/-- WAIT(T) (R143). -/
def waitProc (tmo : Word) (a : Answers) : Option (List Event × Bool × List Bool) :=
  match a.nows with
  | [] => none
  | t0 :: ns => (waitLoop tmo t0 a.douts ns).map fun p => (.now t0 :: p.1, p.2)

/-- The trace and what is left, ended by a response (R9). -/
def finish (tr : List Event) (h : Handle) (st : Status) (d : Word) : List Event × Final :=
  (tr ++ [.rsp st d], ⟨h, st, d⟩)

/-- WAIT(200), the throwaway SHIFT and the commit: the body that SET_GAIN and INIT share (R157, R163). -/
def gainChange (g : Selection) (h : Handle) (a : Answers) : Option (List Event × Final) :=
  match waitProc 200 a with
  | none => none
  | some (tr, false, _) => some (finish tr h .timeout 0)
  | some (tr, true, bs) =>
    if bs.length = 24 then
      some (finish (tr ++ shiftTrace bs g) { h with gain := some g, sck := false } .ok 0)
    else none

/-- The procedure of each operation (R157, R161, R163, R141, R143, R168). `none`: the answers do not fit, or READ
without a gain (U8). -/
def procedure (i : Instr) (h : Handle) (a : Answers) : Option (List Event × Final) :=
  match i with
  | .init arg =>
    if arg.toNat < 3 then
      let g := if arg = 0 then Selection.a128 else if arg = 1 then Selection.b32 else Selection.a64
      let h := { h with gain := some g }
      match a.cfgs with
      | [.fail e] => some (finish [.cfg .data .input (.fail e)] { h with dirData := none } .pinFailure e.val)
      | [.ok, .fail e] =>
        some (finish [.cfg .data .input .ok, .cfg .clk .output (.fail e)]
          { h with dirData := some .input, dirClk := none } .pinFailure e.val)
      | [.ok, .ok] =>
        (gainChange g { h with dirData := some .input, dirClk := some .output, sck := false } a).map fun p =>
          ([.cfg .data .input .ok, .cfg .clk .output .ok, .w false, .tick] ++ p.1, p.2)
      | _ => none
    else some (finish [] h .invalidArgument 0)
  | .setPower down => some (finish [.w down, .tick] { h with sck := down } .ok 0)
  | .setGain arg =>
    if arg.toNat < 3 then
      gainChange (if arg = 0 then Selection.a128 else if arg = 1 then Selection.b32 else Selection.a64) h a
    else some (finish [] h .invalidArgument 0)
  | .isReady =>
    match a.douts with
    | [b] => some (finish [.r b] h .ok (if b then 0 else 1))
    | _ => none
  | .waitReady t =>
    match waitProc t a with
    | none => none
    | some (tr, false, _) => some (finish tr h .timeout 0)
    | some (tr, true, _) => some (finish tr h .ok 0)
  | .read =>
    match h.gain with
    | none => none
    | some g =>
      if a.douts.length = 24 then
        some (finish (shiftTrace a.douts g) { h with sck := false } .ok ((assembleSamples a.douts).signExtend 32))
      else none

end Sys2Proof.Machine
end

