-- ==== Sys2Proof/Safety.lean ====
section
/-! DEFINITION. Runs and their traces (R10, R227), the premises of claims about meaning (R218, R220, R225, R226), which command uses
which phase (R42), and the invariant of the sequencer. -/

namespace Sys2Proof.Machine

open Sys2Proof

/-- `k` steps: the state they lead to and the trace, the events of the steps in order (R10); `none` if a step stops. -/
def runTrace : Nat → State → Option (State × List Event)
  | 0, s => some (s, [])
  | k + 1, s =>
    match step s with
    | .next s' => (runTrace k s').map fun p => (p.1, s'.events ++ p.2)
    | _ => none

/-- P holds of the first `k` states of the run from `s` (the states the first `k` steps start in). -/
def Along (P : State → Prop) : Nat → State → Prop
  | 0, _ => True
  | k + 1, s => P s ∧ ∀ s', step s = .next s' → Along P k s'

/-- rst is not asserted in this step. -/
abbrev NoReset (s : State) : Prop := s.inputs.rst = false

/-- The host presents command `i` to an engine in IDLE (R45, R77). -/
abbrev Accepts (i : Instr) (s : State) : Prop :=
  s.inputs.rst = false ∧ s.eng.seq = .idle ∧ s.inputs.cmdValid = true ∧ s.inputs.cmdWord = encode i

/-- The phases a command passes through after its acceptance, RESP included (R42, R181 to R204). -/
def phasesOf : Instr → List Phase
  | .init _ => [.iCfgData, .iCfgClk, .pSet, .pHold, .wStart, .wCheck, .wYield, .wTime, .sEnter, .sHi, .sHiHold,
      .sSample, .sLo, .sLoHold, .gHi, .gHiHold, .gLo, .gLoHold, .sExit, .xCommit, .resp]
  | .setPower _ => [.pSet, .pHold, .resp]
  | .setGain _ => [.wStart, .wCheck, .wYield, .wTime, .sEnter, .sHi, .sHiHold, .sSample, .sLo, .sLoHold, .gHi,
      .gHiHold, .gLo, .gLoHold, .sExit, .xCommit, .resp]
  | .isReady => [.rCheck, .resp]
  | .waitReady _ => [.wStart, .wCheck, .wYield, .wTime, .resp]
  | .read => [.sEnter, .sHi, .sHiHold, .sSample, .sLo, .sLoHold, .gHi, .gHiHold, .gLo, .gLoHold, .sExit, .xDecode,
      .resp]

/-- The engine is in the middle of command `i`: OP and ARG hold it, its operand is valid, and SEQ is a phase of it. -/
def InOperation (i : Instr) (s : State) : Prop :=
  s.eng.op = i.opcode ∧ s.eng.arg = i.operand ∧ i.wellFormed = true ∧ s.eng.seq ∈ phasesOf i

/-- A phase in which CLK has been driven high in this pulse and not yet low. -/
def clockHighPhase : Phase → Bool
  | .sHiHold | .sSample | .sLo | .gHiHold | .gLo => true
  | _ => false

/-- A phase in which CLK is low because the shift has driven it so. -/
def clockLowPhase : Phase → Bool
  | .sLoHold | .gHi | .gLoHold | .sExit | .xDecode | .xCommit => true
  | _ => false

/-- A gain-pulse phase. -/
def gainPhase : Phase → Bool
  | .gHi | .gHiHold | .gLo | .gLoHold => true
  | _ => false

/-- A phase of WAIT (R143). -/
def waitPhase : Phase → Bool
  | .wStart | .wCheck | .wYield | .wTime => true
  | _ => false

/-- A phase of INIT that comes after both pin configurations. -/
def configuredPhase : Phase → Bool
  | .iCfgData | .iCfgClk | .idle | .resp => false
  | _ => true

/-- The invariant of the sequencer: what holds in every state from reset on. -/
structure SequencerInv (s : State) : Prop where
  /-- MODE = CRITICAL exactly in S_HI to G_LO_HOLD and S_EXIT (R31). -/
  mode_critical_iff : s.eng.mode = .critical ↔ inCriticalPhase s.eng.seq = true
  /-- IDX is at most 23 (R29). -/
  idx_le : s.eng.idx.toNat ≤ 23
  /-- PCNT is 1 to PULSES(SG) while in use (R29). -/
  pcnt_range : gainPhase s.eng.seq = true → 1 ≤ s.eng.pcnt.toNat ∧ s.eng.pcnt.toNat ≤ pulsesOf s.eng.sg
  /-- Outside IDLE and RESP the latched word is a command with a valid operand, in one of its phases (R42, R94). -/
  in_operation : s.eng.seq ≠ .idle → s.eng.seq ≠ .resp → ∃ i, InOperation i s
  /-- READ and INIT in progress: SG is GAIN (R23, R157, R168). -/
  sg_is_gain : s.eng.seq ≠ .idle → s.eng.seq ≠ .resp → s.eng.op = Opcode.read ∨ s.eng.op = Opcode.init →
    s.eng.gain = some s.eng.sg
  /-- SET_GAIN and INIT in progress: SG is the operand (R23, R163). -/
  sg_is_operand : s.eng.seq ≠ .idle → s.eng.seq ≠ .resp → s.eng.op = Opcode.setGain ∨ s.eng.op = Opcode.init →
    gainOperand s.eng.arg = some s.eng.sg
  /-- The bound of a wait: the operand of WAIT_READY, or 200 ms (R25). -/
  tmo_is_bound : waitPhase s.eng.seq = true →
    s.eng.tmo = if s.eng.op = Opcode.waitReady then s.eng.arg else Config.tGainWaitMs
  /-- SCK is high exactly in the high half of a pulse (R97). -/
  sck_high : clockHighPhase s.eng.seq = true → s.pins.sck = true
  sck_low : clockLowPhase s.eng.seq = true → s.pins.sck = false
  /-- The bits of ACC not sampled yet are 0 (R122, R128 (d)). -/
  acc_unsampled : inCriticalPhase s.eng.seq = true → gainPhase s.eng.seq = false → s.eng.seq ≠ .sExit →
    ∀ j, j < 23 - s.eng.idx.toNat → s.eng.acc.getLsbD j = false
  acc_current : s.eng.seq = .sHi ∨ s.eng.seq = .sHiHold ∨ s.eng.seq = .sSample →
    s.eng.acc.getLsbD (23 - s.eng.idx.toNat) = false
  /-- INIT past its first configuration: DATA is an input (R182). -/
  data_configured : s.eng.seq = .iCfgClk → s.pins.dirData = .input
  /-- INIT past its configurations: DATA is an input and CLK an output (R36, R265). -/
  configured : s.eng.op = Opcode.init → configuredPhase s.eng.seq = true →
    s.pins.dirData = .input ∧ s.pins.dirClk = .output
  /-- The datum of an error response (R96): 0, or the platform's nonzero code. -/
  error_datum : s.eng.seq = .resp →
    (s.eng.rspStatus = .invalidArgument ∨ s.eng.rspStatus = .timeout → s.eng.rspData = 0) ∧
    (s.eng.rspStatus = .pinFailure → s.eng.rspData ≠ 0)
  /-- A count of pulses runs only on a device that is on and undisturbed, up to 27, and the conversion is available
  until the 25th (R66, R212, R215; log 11, log 12, log 13, log 14). -/
  device_counts : ∀ c, s.dev.pulses = some c →
    c ≤ 27 ∧ (s.dev.pending = true ↔ c < 25) ∧ s.dev.pwr = .on ∧ s.dev.disturbed = false ∧ s.dev.strayed = false
  /-- An undisturbed device that is in no count, and has not lost one, has no conversion available (R66, R210; log 12). -/
  device_unready : s.dev.pulses = none → s.dev.disturbed = false → s.dev.strayed = false → s.dev.pending = false
  /-- While CLK is an output, the level the device saw last is SCK (R35, R72). -/
  device_sees_sck : s.pins.dirClk = .output → s.dev.clk = s.pins.sck
  /-- A device in power-down sees its clock high and has no pending conversion (R213, R214). -/
  power_down_is_high : s.dev.pwr = .down → s.dev.clk = true ∧ s.dev.pending = false

/-- A run of `k` steps that starts with the acceptance of command `i`, meets no reset, and ends in the first state in
phase RESP: the state and the trace (R206). -/
structure FirstResponse (i : Instr) (s : State) (k : Nat) (t : State) (tr : List Event) : Prop where
  accepts : Accepts i s
  busy : Along (fun u => NoReset u ∧ u.eng.seq ≠ .resp) k s
  run : runTrace k s = some (t, tr)
  responds : t.eng.seq = .resp

/-- Premise R210: while no frame is in progress and the device is on, the data line is low exactly when a conversion is
available. -/
def ReadyConvention (s : State) : Prop :=
  s.dev.pwr = .on → s.eng.mode = .normal → s.dev.midShift = false → s.inputs.dout = !s.dev.pending

/-- Premise R211: in data pulse i of a frame the device counts, the data line carries bit 23 - i of the result by the
time the engine samples it, T_HIGH_US after the rising edge. When before that the bit becomes valid is not in source
(N6), and the premise does not ask for it. Log 27. -/
def DataOutput (s : State) : Prop :=
  ∀ i, s.dev.pulses = some i → i < 24 → s.dev.clk = true → 1000 * Config.tHighUs ≤ s.dev.levelNs →
    s.inputs.dout = s.dev.result.getLsbD (23 - i)

/-- The phases from S_ENTER to the last hold of a frame (R70). -/
def frameInProgress (p : Phase) : Bool := p = .sEnter || cutsFrame p

/-- Premise R226 (b), (c), R220, R272: from S_ENTER to the last hold the platform keeps the bound on the holds, a hold of
1 us really lasts below 2 us, and the engine is not delayed between two steps. -/
def PlatformKeepsBounds (s : State) : Prop :=
  frameInProgress s.eng.seq = true →
    s.inputs.overrunNs ≤ 1000 * Config.tJitterUs ∧ 1000 * Config.tHighUs + s.inputs.overrunNs < Config.holdLimitNs ∧
    s.nextMove.gapNs = 0

/-- Premise N11, R271: the device is not reset, and from S_ENTER to the last hold it neither finishes another conversion
nor withdraws the one it is shifting out. -/
def DeviceKeepsItsConversion (s : State) : Prop :=
  s.nextMove.device ≠ .reset ∧ (frameInProgress s.eng.seq = true → s.nextMove.device = .quiet)

/-- Premise R7, R226 (d): the coarse delay after a power command lasts at least the power-down time. -/
def CoarseDelayReachesPowerDown (s : State) : Prop :=
  s.eng.seq = .pHold → 1000 * Config.tPdMinUs ≤ 1000 * Config.tTickUs + s.inputs.overrunNs

/-! Infinite runs (R222). -/

/-- The course of one wait, of any of the three commands that wait: it begins in W_START, and from every state in a
phase of the wait the run goes on with the machine's next step, with no reset. After the wait the sequence is open. -/
structure WaitRun (r : Nat → State) : Prop where
  starts : (r 0).eng.seq = .wStart
  goesOn : ∀ j, waitPhase (r j).eng.seq = true → NoReset (r j) ∧ step (r j) = .next (r (j + 1))

/-- The progress assumption (R222), a fairness assumption on the platform: if infinitely many CoarseDelay steps are
performed in this one wait, the values n -32 T0 read in W_TIME eventually reach any bound below 2^32. Log 28. -/
def Progress (r : Nat → State) : Prop :=
  (∀ j, waitPhase (r j).eng.seq = true) → (∀ m, ∃ j, m ≤ j ∧ (r j).eng.seq = .wYield) →
    ∀ bound : Word, ∃ j, (r j).eng.seq = .wTime ∧ bound.toNat ≤ ((r j).nowMs - (r j).eng.t0).toNat

end Sys2Proof.Machine
end

