-- ==== Sys2Proof/Certificates/Slice0/Obligations.lean ====
section
/-! DEFINITION. The statements about the model, in the order of OBLIGATIONS.json. -/

open Sys2Proof Sys2Proof.Machine

/-! ## Encodings -/

/-- R90, R91, R93, R106: decoding and encoding are inverse, for every operand, valid or not. -/
def Obligations.DecodeAndEncodeAreInverse : Prop :=
  ∀ (w : CommandWord) (i : Instr), decode w = .ok i ↔ encode i = w

/-- R91: a word decodes as the command whose row selects it, no two rows select one word, and a word that no row
selects is rejected. -/
def Obligations.DecodeFollowsTheOpcodeTable : Prop :=
  ∀ w : CommandWord,
    (∀ i, decode w = .ok i → ∀ r ∈ opcodeTable, r.selects w = true ↔ r.mnemonic = i.mnemonic) ∧
    ((∃ e, decode w = .error e) ↔ ∀ r ∈ opcodeTable, r.selects w = false)

/-- R94: which words are reserved, and that a reserved word is accepted and answered at once, with only OP, ARG,
RSP_STATUS, RSP_DATA and SEQ changed. -/
def Obligations.ReservedWordsAreAnswered : Prop :=
  (∀ w : CommandWord, (∃ e, decode w = .error e) ↔
    opField w = 0 ∨ 7 ≤ opField w ∨ (opField w = 2 ∧ (argField w).extractLsb' 1 31 ≠ 0) ∨
    ((opField w = 4 ∨ opField w = 6) ∧ argField w ≠ 0)) ∧
  ∀ s : State, s.inputs.rst = false → s.eng.seq = .idle → s.inputs.cmdValid = true →
    (∃ e, decode s.inputs.cmdWord = .error e) →
    step s = .next (State.advance
      { s with
        eng := { s.eng with
          op := opField s.inputs.cmdWord, arg := argField s.inputs.cmdWord,
          rspStatus := .invalidArgument, rspData := 0, seq := .resp }
        events := [.rsp .invalidArgument 0] })

/-- Words written out from the fields of R91, bit by bit: each decodes to its command, and the reserved ones to none
(95_test_vectors.md V9). -/
def Obligations.WordsOfTheSpecDecode : Prop :=
  decode 0b0000000100000000000000000000000000000010#40 = .ok (.init 2) ∧
  decode 0b0000001000000000000000000000000000000001#40 = .ok (.setPower true) ∧
  decode 0b0000001100000000000000000000000000000001#40 = .ok (.setGain 1) ∧
  decode 0b0000010000000000000000000000000000000000#40 = .ok .isReady ∧
  decode 0b0000010100000000000000000000000011001000#40 = .ok (.waitReady 200) ∧
  decode 0b0000011000000000000000000000000000000000#40 = .ok .read ∧
  decode 0b0000001000000000000000000000000000000010#40 = .error (.setPowerArg 2) ∧
  decode 0b0000000000000000000000000000000000000000#40 = .error (.opcode 0)

/-- R92: a gain operand is valid exactly when it is below 3 as an unsigned number, and then the selection is the one
whose code is arg[1:0]. -/
def Obligations.GainOperandIsTheWholeArg : Prop :=
  ∀ arg : Word,
    (validGain arg = true ↔ arg.toNat < 3) ∧
    (gainOperand arg = none ↔ ¬ arg.toNat < 3) ∧
    ∀ g, gainOperand arg = some g ↔ arg.toNat < 3 ∧ codeOf g = arg.extractLsb' 0 2

/-! ## The step and the instruction it runs -/

/-- R77, R180, R181: an engine in IDLE with a command word presented runs the decoded command, and then the
environment moves. -/
def Obligations.StepRunsTheDecodedCommand : Prop :=
  ∀ (i : Instr) (s : State), s.inputs.rst = false → s.eng.seq = .idle → s.inputs.cmdValid = true →
    decode s.inputs.cmdWord = .ok i → step s = advanceOutcome (exec i s)

/-- R78, R180: in the middle of a command, with rst not asserted, a step is the latched command's own next step, and
then the environment moves. -/
def Obligations.StepContinuesTheLatchedCommand : Prop :=
  ∀ (i : Instr) (s : State), s.inputs.rst = false → InOperation i s → step s = advanceOutcome (exec i s)

/-- R180: in IDLE without a command word, and in RESP until the host takes the response, only the environment moves.
That such a step is a next state of its own, of step and of every command's meaning, is the model's reading (log 6). -/
def Obligations.EngineWaitsForTheHost : Prop :=
  (∀ s : State, s.inputs.rst = false →
    (s.eng.seq = .idle ∧ s.inputs.cmdValid = false) ∨ (s.eng.seq = .resp ∧ s.inputs.rspReady = false) →
    step s = .next (State.advance { s with events := [] })) ∧
  ∀ (i : Instr) (s : State), s.eng.seq = .resp → s.inputs.rspReady = false → exec i s = .next { s with events := [] }

/-- R204, R231, R240: phase RESP presents the response, its status by the code of R231, and, whatever it is and whichever
word it answers, a reserved one included, returns to IDLE when the host takes it. (Until then the engine waits:
EngineWaitsForTheHost.) -/
def Obligations.ResponseIsPresentedAndTaken : Prop :=
  ∀ s : State, s.eng.seq = .resp →
    s.rspValid = true ∧ s.rspDataPort = s.eng.rspData ∧
    (s.eng.rspStatus = .ok → s.rspStatusPort = 0) ∧ (s.eng.rspStatus = .invalidArgument → s.rspStatusPort = 1) ∧
    (s.eng.rspStatus = .timeout → s.rspStatusPort = 2) ∧ (s.eng.rspStatus = .pinFailure → s.rspStatusPort = 3) ∧
    (s.inputs.rspReady = true →
      (∀ i, exec i s = .next { s with eng := { s.eng with seq := .idle }, events := [] }) ∧
      (s.inputs.rst = false →
        step s = .next (State.advance { s with eng := { s.eng with seq := .idle }, events := [] })))

/-- R260, R261: a step with rst asserted leaves the engine and the pins at the values the spec gives, whatever the
phase; outside S_HI to G_LO_HOLD it does not touch the device (R262), and it never touches the platform clock. That the
step performs no primitive of its phase is the model's choice (log 25), and the state it answers has the model's values
(log 1) in the registers the spec leaves unspecified. -/
def Obligations.ResetInputResetsTheEngineOnly : Prop :=
  ∀ s : State, s.inputs.rst = true →
    step s = .next s.applyReset.advance ∧
    s.applyReset.advance.eng.seq = .idle ∧ s.applyReset.advance.eng.mode = .normal ∧
    s.applyReset.advance.eng.gain = none ∧
    s.applyReset.advance.pins = { sck := false, dirData := .unconfigured, dirClk := .unconfigured } ∧
    s.applyReset.advance.rspValid = false ∧ s.applyReset.advance.busy = false ∧
    s.applyReset.advance.crit = false ∧ s.applyReset.advance.cmdReady = true ∧
    s.applyReset.advance.events = [] ∧
    s.applyReset.clockMs = s.clockMs ∧ (cutsFrame s.eng.seq = false → s.applyReset.dev = s.dev)

/-- R44: the values the spec gives the state after reset. -/
def Obligations.ResetStateHasTheSpecValues : Prop :=
  State.reset.eng.seq = .idle ∧ State.reset.eng.mode = .normal ∧ State.reset.eng.gain = none ∧
  State.reset.pins = { sck := false, dirData := .unconfigured, dirClk := .unconfigured } ∧
  State.reset.rspValid = false ∧ State.reset.busy = false ∧ State.reset.crit = false ∧
  State.reset.cmdReady = true

/-! ## Acceptance -/

/-- R157, R158, R163, R181: acceptance of INIT and SET_GAIN in IDLE. A valid operand starts the operation, an invalid
one is answered InvalidArgument with nothing but OP, ARG, RSP_STATUS, RSP_DATA and SEQ changed. -/
def Obligations.GainCommandsAreValidatedFirst : Prop :=
  ∀ (arg : Word) (s : State), s.eng.seq = .idle →
    (∀ g, gainOperand arg = some g →
      exec (.init arg) s = .next
        { s with
          eng := { s.eng with op := 0x01, arg := arg, gain := some g, sg := g, seq := .iCfgData }
          events := [] } ∧
      exec (.setGain arg) s = .next
        { s with
          eng := { s.eng with op := 0x03, arg := arg, sg := g, tmo := 200, seq := .wStart }
          events := [] }) ∧
    (¬ arg.toNat < 3 →
      exec (.init arg) s = .next
        { s with
          eng := { s.eng with op := 0x01, arg := arg, rspStatus := .invalidArgument, rspData := 0, seq := .resp }
          events := [.rsp .invalidArgument 0] } ∧
      exec (.setGain arg) s = .next
        { s with
          eng := { s.eng with op := 0x03, arg := arg, rspStatus := .invalidArgument, rspData := 0, seq := .resp }
          events := [.rsp .invalidArgument 0] })

/-- R181: acceptance of SET_POWER, IS_READY and WAIT_READY in IDLE. -/
def Obligations.PlainCommandsAreAccepted : Prop :=
  ∀ s : State, s.eng.seq = .idle →
    (∀ down, exec (.setPower down) s = .next
      { s with
        eng := { s.eng with op := 0x02, arg := if down then 1 else 0, seq := .pSet }
        events := [] }) ∧
    exec .isReady s = .next
      { s with eng := { s.eng with op := 0x04, arg := 0, seq := .rCheck }, events := [] } ∧
    (∀ t, exec (.waitReady t) s = .next
      { s with eng := { s.eng with op := 0x05, arg := t, tmo := t, seq := .wStart }, events := [] })

/-- R168, R170 (c), R181: acceptance of READ in IDLE: SG <- GAIN, or, while GAIN is `none`, the model fault of U8. -/
def Obligations.ReadIsAcceptedOnceGainIsWritten : Prop :=
  ∀ s : State, s.eng.seq = .idle →
    (∀ g, s.eng.gain = some g → exec .read s = .next
      { s with eng := { s.eng with op := 0x06, arg := 0, sg := g, seq := .sEnter }, events := [] }) ∧
    (s.eng.gain = none → exec .read s = .fault .readBeforeGain)

/-! ## The phases -/

/-- R182, R183: the two pin configurations. After a failure the direction of that pin may be any. -/
def Obligations.ConfigurationPhases : Prop :=
  ∀ (i : Instr) (s : State),
    (s.eng.seq = .iCfgData →
      (s.inputs.cfg = .ok → exec i s = .next
        { s with
          eng := { s.eng with seq := .iCfgClk }
          pins := { s.pins with dirData := .input }
          events := [.cfg .data .input .ok] }) ∧
      (∀ e, s.inputs.cfg = .fail e → ∃ d, exec i s = .next
        { s with
          eng := { s.eng with rspStatus := .pinFailure, rspData := e.val, seq := .resp }
          pins := { s.pins with dirData := d }
          events := [.cfg .data .input (.fail e), .rsp .pinFailure e.val] })) ∧
    (s.eng.seq = .iCfgClk →
      (s.inputs.cfg = .ok → exec i s = .next
        { s with
          eng := { s.eng with seq := .pSet }
          pins := { s.pins with dirClk := .output }
          events := [.cfg .clk .output .ok] }) ∧
      (∀ e, s.inputs.cfg = .fail e → ∃ d, exec i s = .next
        { s with
          eng := { s.eng with rspStatus := .pinFailure, rspData := e.val, seq := .resp }
          pins := { s.pins with dirClk := d }
          events := [.cfg .clk .output (.fail e), .rsp .pinFailure e.val] }))

/-- R184, R185: the power phases, for the two commands that use them. -/
def Obligations.PowerPhases : Prop :=
  ∀ s : State,
    (s.eng.seq = .pSet →
      (∀ g, exec (.init g) s = .next
        { s with
          eng := { s.eng with seq := .pHold }
          pins := { s.pins with sck := false }
          events := [.w false] }) ∧
      (∀ down, exec (.setPower down) s = .next
        { s with
          eng := { s.eng with seq := .pHold }
          pins := { s.pins with sck := down }
          events := [.w down] })) ∧
    (s.eng.seq = .pHold →
      (∀ g, exec (.init g) s = .next
        { s with eng := { s.eng with tmo := 200, seq := .wStart }, events := [.tick] }) ∧
      (∀ down, exec (.setPower down) s = .next
        { s with
          eng := { s.eng with rspStatus := .ok, rspData := 0, seq := .resp }
          events := [.tick, .rsp .ok 0] }))

/-- R186, R187, R188, R189: the phases of a wait. -/
def Obligations.WaitPhases : Prop :=
  ∀ (i : Instr) (s : State),
    (s.eng.seq = .wStart → exec i s = .next
      { s with eng := { s.eng with t0 := s.nowMs, seq := .wCheck }, events := [.now s.nowMs] }) ∧
    (s.eng.seq = .wCheck → s.dataLevel = false →
      (∀ t, i = .waitReady t → exec i s = .next
        { s with
          eng := { s.eng with rspStatus := .ok, rspData := 0, seq := .resp }
          events := [.r false, .rsp .ok 0] }) ∧
      (∀ g, i = .init g ∨ i = .setGain g → exec i s = .next
        { s with eng := { s.eng with seq := .sEnter }, events := [.r false] })) ∧
    (s.eng.seq = .wCheck → s.dataLevel = true → exec i s = .next
      { s with eng := { s.eng with seq := .wYield }, events := [.r true] }) ∧
    (s.eng.seq = .wYield → exec i s = .next
      { s with eng := { s.eng with seq := .wTime }, events := [.tick] }) ∧
    (s.eng.seq = .wTime → s.eng.tmo.toNat ≤ (s.nowMs - s.eng.t0).toNat → exec i s = .next
      { s with
        eng := { s.eng with rspStatus := .timeout, rspData := 0, seq := .resp }
        events := [.now s.nowMs, .rsp .timeout 0] }) ∧
    (s.eng.seq = .wTime → (s.nowMs - s.eng.t0).toNat < s.eng.tmo.toNat → exec i s = .next
      { s with eng := { s.eng with seq := .wCheck }, events := [.now s.nowMs] })

/-- R190, R191, R192, R193, R194, R195: the entry of the shift and the data pulse. -/
def Obligations.DataPulsePhases : Prop :=
  ∀ (i : Instr) (s : State),
    (s.eng.seq = .sEnter → exec i s = .next
      { s with
        eng := { s.eng with mode := .critical, acc := 0, idx := 0, seq := .sHi }
        events := [.critEnter] }) ∧
    (s.eng.seq = .sHi → exec i s = .next
      { s with
        eng := { s.eng with seq := .sHiHold }
        pins := { s.pins with sck := true }
        events := [.w true] }) ∧
    (s.eng.seq = .sHiHold → exec i s = .next
      { s with eng := { s.eng with seq := .sSample }, events := [.us 1] }) ∧
    (s.eng.seq = .sSample → exec i s = .next
      { s with
        eng := { s.eng with
          acc := s.eng.acc ||| ((BitVec.ofBool s.dataLevel).setWidth 24 <<< (23 - s.eng.idx.toNat))
          seq := .sLo }
        events := [.r s.dataLevel] }) ∧
    (s.eng.seq = .sLo → exec i s = .next
      { s with
        eng := { s.eng with seq := .sLoHold }
        pins := { s.pins with sck := false }
        events := [.w false] }) ∧
    (s.eng.seq = .sLoHold → s.eng.idx = 23 → exec i s = .next
      { s with
        eng := { s.eng with pcnt := codeOf s.eng.sg + 1, seq := .gHi }
        events := [.us 1] }) ∧
    (s.eng.seq = .sLoHold → s.eng.idx ≠ 23 → exec i s = .next
      { s with
        eng := { s.eng with idx := s.eng.idx + 1, seq := .sHi }
        events := [.us 1] })

/-- R196, R197, R198, R199: the gain pulse. -/
def Obligations.GainPulsePhases : Prop :=
  ∀ (i : Instr) (s : State),
    (s.eng.seq = .gHi → exec i s = .next
      { s with
        eng := { s.eng with seq := .gHiHold }
        pins := { s.pins with sck := true }
        events := [.w true] }) ∧
    (s.eng.seq = .gHiHold → exec i s = .next
      { s with eng := { s.eng with seq := .gLo }, events := [.us 1] }) ∧
    (s.eng.seq = .gLo → exec i s = .next
      { s with
        eng := { s.eng with seq := .gLoHold }
        pins := { s.pins with sck := false }
        events := [.w false] }) ∧
    (s.eng.seq = .gLoHold → s.eng.pcnt = 1 → exec i s = .next
      { s with eng := { s.eng with seq := .sExit }, events := [.us 1] }) ∧
    (s.eng.seq = .gLoHold → s.eng.pcnt ≠ 1 → exec i s = .next
      { s with eng := { s.eng with pcnt := s.eng.pcnt - 1, seq := .gHi }, events := [.us 1] })

/-- R200, R201, R202: the exit of the shift, the decoding of READ and the commit of SET_GAIN and INIT. -/
def Obligations.CompletionPhases : Prop :=
  ∀ s : State,
    (s.eng.seq = .sExit →
      exec .read s = .next
        { s with eng := { s.eng with mode := .normal, seq := .xDecode }, events := [.critExit] } ∧
      ∀ g i, i = .init g ∨ i = .setGain g → exec i s = .next
        { s with eng := { s.eng with mode := .normal, seq := .xCommit }, events := [.critExit] }) ∧
    (s.eng.seq = .xDecode → exec .read s = .next
      { s with
        eng := { s.eng with rspStatus := .ok, rspData := s.eng.acc.signExtend 32, seq := .resp }
        events := [.rsp .ok (s.eng.acc.signExtend 32)] }) ∧
    (s.eng.seq = .xCommit → ∀ g i, i = .init g ∨ i = .setGain g → exec i s = .next
      { s with
        eng := { s.eng with gain := some s.eng.sg, rspStatus := .ok, rspData := 0, seq := .resp }
        events := [.rsp .ok 0] })

/-- R203: the phase of IS_READY: 1 for a low line, 0 for a high one. -/
def Obligations.IsReadyPhase : Prop :=
  ∀ s : State, s.eng.seq = .rCheck → exec .isReady s = .next
    { s with
      eng := { s.eng with
        rspStatus := .ok, rspData := (BitVec.ofBool (!s.dataLevel)).setWidth 32, seq := .resp }
      events := [.r s.dataLevel, .rsp .ok ((BitVec.ofBool (!s.dataLevel)).setWidth 32)] }

/-- R205: every command has a next state in every phase, but for the one model fault, and what the engine does never
writes an input, the clock, the device or the model's own fields. The next state in RESP before the response is taken is
the model's reading (log 6), and so is one in a phase the command does not use (log 19). -/
def Obligations.EveryCommandStepsInEveryPhase : Prop :=
  ∀ (i : Instr) (s : State),
    (¬ (i = .read ∧ s.eng.seq = .idle ∧ s.eng.gain = none) → ∃ t, exec i s = .next t) ∧
    (∀ f, exec i s = .fault f → i = .read ∧ s.eng.seq = .idle ∧ s.eng.gain = none ∧ f = .readBeforeGain) ∧
    (∀ r, exec i s ≠ .refused r) ∧
    ∀ t, exec i s = .next t →
      t.inputs = s.inputs ∧ t.clockMs = s.clockMs ∧ t.dev = s.dev ∧ t.script = s.script ∧ t.draws = s.draws

/-! ## Frames (R42): what a command leaves as it was, in IDLE and in each of its own phases -/

/-- R42, R142, R151: the frame of IS_READY and WAIT_READY: no pin, no MODE, nothing of a shift, no GAIN; IS_READY
leaves T0 and TMO too; OP and ARG change at acceptance only. -/
def Obligations.ReadinessCommandsFrame : Prop :=
  ∀ (i : Instr) (s t : State), (i = .isReady ∨ ∃ ms, i = .waitReady ms) →
    s.eng.seq = .idle ∨ s.eng.seq ∈ phasesOf i → exec i s = .next t →
    t.pins = s.pins ∧ t.eng.mode = s.eng.mode ∧ t.eng.gain = s.eng.gain ∧ t.eng.sg = s.eng.sg ∧
    t.eng.acc = s.eng.acc ∧ t.eng.idx = s.eng.idx ∧ t.eng.pcnt = s.eng.pcnt ∧
    (i = .isReady → t.eng.t0 = s.eng.t0 ∧ t.eng.tmo = s.eng.tmo) ∧
    (s.eng.seq ≠ .wStart → t.eng.t0 = s.eng.t0) ∧
    (s.eng.seq ≠ .idle → t.eng.op = s.eng.op ∧ t.eng.arg = s.eng.arg ∧ t.eng.tmo = s.eng.tmo) ∧
    (t.eng.seq ≠ .resp ∨ s.eng.seq = .resp →
      t.eng.rspStatus = s.eng.rspStatus ∧ t.eng.rspData = s.eng.rspData)

/-- R42, R161, R162: the frame of SET_POWER: of the pins SCK only, and of the engine's registers only SEQ, the
response, and OP and ARG at acceptance. -/
def Obligations.SetPowerFrame : Prop :=
  ∀ (down : Bool) (s t : State), s.eng.seq = .idle ∨ s.eng.seq ∈ phasesOf (.setPower down) →
    exec (.setPower down) s = .next t →
    t.pins.dirData = s.pins.dirData ∧ t.pins.dirClk = s.pins.dirClk ∧
    (s.eng.seq ≠ .pSet → t.pins.sck = s.pins.sck) ∧
    t.eng.mode = s.eng.mode ∧ t.eng.gain = s.eng.gain ∧ t.eng.sg = s.eng.sg ∧
    t.eng.acc = s.eng.acc ∧ t.eng.idx = s.eng.idx ∧ t.eng.pcnt = s.eng.pcnt ∧
    t.eng.t0 = s.eng.t0 ∧ t.eng.tmo = s.eng.tmo ∧
    (s.eng.seq ≠ .idle → t.eng.op = s.eng.op ∧ t.eng.arg = s.eng.arg) ∧
    (t.eng.seq ≠ .resp ∨ s.eng.seq = .resp →
      t.eng.rspStatus = s.eng.rspStatus ∧ t.eng.rspData = s.eng.rspData)

/-- R42, R168: the frame of READ: GAIN, T0, TMO and the directions are never written; MODE only by S_ENTER and
S_EXIT, ACC only by S_ENTER and S_SAMPLE, SCK only by the four writes of a pulse, SG, OP and ARG at acceptance only. -/
def Obligations.ReadFrame : Prop :=
  ∀ s t : State, s.eng.seq = .idle ∨ s.eng.seq ∈ phasesOf .read → exec .read s = .next t →
    t.eng.gain = s.eng.gain ∧ t.eng.t0 = s.eng.t0 ∧ t.eng.tmo = s.eng.tmo ∧
    t.pins.dirData = s.pins.dirData ∧ t.pins.dirClk = s.pins.dirClk ∧
    (s.eng.seq ∉ [.sHi, .sLo, .gHi, .gLo] → t.pins.sck = s.pins.sck) ∧
    (s.eng.seq ∉ [.sEnter, .sExit] → t.eng.mode = s.eng.mode) ∧
    (s.eng.seq ∉ [.sEnter, .sSample] → t.eng.acc = s.eng.acc) ∧
    (s.eng.seq ∉ [.sEnter, .sLoHold] → t.eng.idx = s.eng.idx) ∧
    (s.eng.seq ∉ [.sLoHold, .gLoHold] → t.eng.pcnt = s.eng.pcnt) ∧
    (s.eng.seq ≠ .idle → t.eng.op = s.eng.op ∧ t.eng.arg = s.eng.arg ∧ t.eng.sg = s.eng.sg) ∧
    (t.eng.seq ≠ .resp ∨ s.eng.seq = .resp →
      t.eng.rspStatus = s.eng.rspStatus ∧ t.eng.rspData = s.eng.rspData)

/-- R42, R157, R163: the frame of INIT and SET_GAIN, register by register: each is written in the phases named and
in no other; SET_GAIN never writes a direction, and writes GAIN in its commit only. -/
def Obligations.GainCommandsFrame : Prop :=
  ∀ (i : Instr) (s t : State), (∃ g, i = .init g ∨ i = .setGain g) →
    s.eng.seq = .idle ∨ s.eng.seq ∈ phasesOf i → exec i s = .next t →
    (s.eng.seq ∉ [.iCfgData] → t.pins.dirData = s.pins.dirData) ∧
    (s.eng.seq ∉ [.iCfgClk] → t.pins.dirClk = s.pins.dirClk) ∧
    (s.eng.seq ∉ [.pSet, .sHi, .sLo, .gHi, .gLo] → t.pins.sck = s.pins.sck) ∧
    (s.eng.seq ∉ [.sEnter, .sExit] → t.eng.mode = s.eng.mode) ∧
    (s.eng.seq ∉ [.sEnter, .sSample] → t.eng.acc = s.eng.acc) ∧
    (s.eng.seq ∉ [.sEnter, .sLoHold] → t.eng.idx = s.eng.idx) ∧
    (s.eng.seq ∉ [.sLoHold, .gLoHold] → t.eng.pcnt = s.eng.pcnt) ∧
    (s.eng.seq ∉ [.wStart] → t.eng.t0 = s.eng.t0) ∧
    (s.eng.seq ∉ [.idle, .pHold] → t.eng.tmo = s.eng.tmo) ∧
    (s.eng.seq ∉ [.idle, .xCommit] → t.eng.gain = s.eng.gain) ∧
    (∀ g, i = .setGain g → t.pins.dirData = s.pins.dirData ∧ t.pins.dirClk = s.pins.dirClk ∧
      (s.eng.seq ≠ .xCommit → t.eng.gain = s.eng.gain)) ∧
    (s.eng.seq ≠ .idle → t.eng.op = s.eng.op ∧ t.eng.arg = s.eng.arg ∧ t.eng.sg = s.eng.sg) ∧
    (t.eng.seq ≠ .resp ∨ s.eng.seq = .resp →
      t.eng.rspStatus = s.eng.rspStatus ∧ t.eng.rspData = s.eng.rspData)

/-! ## The whole machine -/

/-- Every step keeps the invariant of the sequencer, from every state that meets it, a step with rst included. After
such a step the bound on IDX rests on the model's reset value (log 1); the clauses on the device's count say what the
model's device does (log 11 to log 16), after a reset of its own too (log 30). -/
def Obligations.EveryStepKeepsTheInvariant : Prop :=
  ∀ s t : State, SequencerInv s → step s = .next t → SequencerInv t

/-- The invariant holds after reset. Its clauses on IDX and on the device rest on reset values the model chose (log 1,
log 2). -/
def Obligations.ResetMeetsTheInvariant : Prop := SequencerInv State.reset

/-- R21, R31, R35, R36, R61, R166: which steps of the machine, reset apart, may change GAIN, SCK, MODE and the
directions; and DATA is only ever configured as input, CLK only as output. -/
def Obligations.OnlyTheNamedPhasesWrite : Prop :=
  ∀ s t : State, s.inputs.rst = false → step s = .next t →
    (t.eng.gain ≠ s.eng.gain →
      (s.eng.seq = .idle ∧ s.inputs.cmdValid = true ∧ ∃ arg sel, decode s.inputs.cmdWord = .ok (.init arg) ∧
        gainOperand arg = some sel ∧ t.eng.gain = some sel) ∨
      (s.eng.seq = .xCommit ∧ t.eng.gain = some s.eng.sg)) ∧
    (t.pins.sck ≠ s.pins.sck → s.eng.seq ∈ [.pSet, .sHi, .sLo, .gHi, .gLo]) ∧
    (t.eng.mode ≠ s.eng.mode → s.eng.seq = .sEnter ∨ s.eng.seq = .sExit) ∧
    (t.pins.dirData ≠ s.pins.dirData → s.eng.seq = .iCfgData) ∧
    (t.pins.dirClk ≠ s.pins.dirClk → s.eng.seq = .iCfgClk) ∧
    (∀ p d r, .cfg p d r ∈ t.events → (p = .data ∧ d = .input) ∨ (p = .clk ∧ d = .output))

/-- R62, R70, R245: in a state that meets the invariant, while MODE is CRITICAL a step performs only PinWrite(CLK),
PinRead(DATA), DelayUs and the final CritExit; a DelayUs is performed only then; and the engine suspends only in
P_HOLD and W_YIELD. -/
def Obligations.CriticalSectionAdmitsOnlyShiftEvents : Prop :=
  ∀ s t : State, SequencerInv s → s.inputs.rst = false → step s = .next t →
    (s.eng.mode = .critical → ∀ e ∈ t.events,
      (∃ v, e = .w v) ∨ (∃ b, e = .r b) ∨ e = .us 1 ∨ (e = .critExit ∧ s.eng.seq = .sExit)) ∧
    (∀ n, .us n ∈ t.events → s.eng.mode = .critical ∧ n = 1) ∧
    (.tick ∈ t.events → s.eng.seq = .pHold ∨ s.eng.seq = .wYield)

/-- R230, R231, R234, R241: a step that brings the engine into RESP gives exactly one response event, the one in
RSP_STATUS and RSP_DATA, and the error codes arise only in the phases the spec names; no other step gives one. -/
def Obligations.ErrorsAriseOnlyInTheirPhases : Prop :=
  ∀ s t : State, s.inputs.rst = false → step s = .next t →
    (s.eng.seq ≠ .resp → t.eng.seq = .resp →
      t.events.filter (fun e => match e with | .rsp _ _ => true | _ => false) =
        [.rsp t.eng.rspStatus t.eng.rspData] ∧
      (t.eng.rspStatus = .invalidArgument → s.eng.seq = .idle ∧ t.events = [.rsp .invalidArgument 0]) ∧
      (t.eng.rspStatus = .timeout → s.eng.seq = .wTime) ∧
      (t.eng.rspStatus = .pinFailure → (s.eng.seq = .iCfgData ∨ s.eng.seq = .iCfgClk) ∧
        ∃ e, s.inputs.cfg = .fail e ∧ t.eng.rspData = e.val)) ∧
    (s.eng.seq = .resp ∨ t.eng.seq ≠ .resp → ∀ st d, .rsp st d ∉ t.events)

/-- R77, R78, R180: while the engine is busy, the command port is not seen, and outside RESP neither is rsp_ready. -/
def Obligations.BusyEngineIgnoresTheHost : Prop :=
  ∀ (s : State) (v r : Bool) (w : CommandWord), s.eng.seq ≠ .idle →
    step { s with inputs := { s.inputs with cmdValid := v, cmdWord := w } } = step s ∧
    (s.eng.seq ≠ .resp → step { s with inputs := { s.inputs with rspReady := r } } = step s)

/-- R218: no run of the engine depends on the device's hidden state: with another device the same commands give the
same trace and the same state, the device apart. -/
def Obligations.RunsNeverDependOnTheDevice : Prop :=
  ∀ (k : Nat) (s : State) (d : Device),
    (runTrace k { s with dev := d }).map (fun p => ({ p.1 with dev := d }, p.2)) =
    (runTrace k s).map (fun p => ({ p.1 with dev := d }, p.2))

/-! ## Arithmetic -/

/-- R130, R131: DECODE keeps the signed value, its low 24 bits are the raw value, it is injective, and its top byte is
0xFF for a negative sample and 0x00 otherwise. -/
def Obligations.DecodeSignExtends : Prop :=
  ∀ raw : Raw,
    (decodeSample raw).toInt = raw.toInt ∧
    (decodeSample raw).extractLsb' 0 24 = raw ∧
    (decodeSample raw).extractLsb' 24 8 = (if raw.msb then 0xFF else 0x00) ∧
    -8388608 ≤ (decodeSample raw).toInt ∧ (decodeSample raw).toInt ≤ 8388607 ∧
    ∀ raw', decodeSample raw' = decodeSample raw → raw' = raw

/-- R121, R98, R101, R212: PULSES(g) = g + 1, one to three and one for each selection; a frame of 24 + PULSES(g) pulses
selects g. That no other count selects anything is the model's treatment of what the spec leaves open (N9, U2; log 12). -/
def Obligations.GainPulsesEncodeTheSelection : Prop :=
  ∀ g : Selection,
    pulsesOf g = (codeOf g).toNat + 1 ∧ 1 ≤ pulsesOf g ∧ pulsesOf g ≤ 3 ∧ (pcntOf g).toNat = pulsesOf g ∧
    ∀ n, selectionOfPulses n = some g ↔ n = 24 + pulsesOf g

/-- R64, R99: the samples are assembled most significant bit first. -/
def Obligations.SamplesAreAssembledMsbFirst : Prop :=
  ∀ bits : List Bool, bits.length = 24 →
    ∀ i (h : i < bits.length), (assembleSamples bits).getLsbD (23 - i) = bits[i]

/-- R145, R221: the modular comparison tells whether the true elapsed time has reached the bound, as long as less than
2^32 ms have passed, whatever the counter showed at the start. -/
def Obligations.ElapsedTimeIsWraparoundSafe : Prop :=
  ∀ (start now : Nat) (tmo : Word), start ≤ now → now - start < 2 ^ 32 →
    (expired (BitVec.ofNat 32 now) (BitVec.ofNat 32 start) tmo = true ↔ tmo.toNat ≤ now - start)

/-! ## Whole operations -/

/-- R122, R124, R127: the shift, from S_ENTER on, with no reset on the way. It takes 126 + 4 g steps, emits exactly the
trace of R124 for the samples it read, leaves ACC assembled from them, IDX 23, PCNT 1, CLK low and MODE NORMAL, moves
SEQ on, and leaves GAIN, SG, T0, TMO, OP, ARG, the response and the directions as they were. -/
def Obligations.ShiftEmitsItsFrame : Prop :=
  ∀ s : State, s.eng.seq = .sEnter → Along NoReset (126 + 4 * (codeOf s.eng.sg).toNat) s →
    ∃ (t : State) (bits : List Bool), bits.length = 24 ∧
      runTrace (126 + 4 * (codeOf s.eng.sg).toNat) s = some (t, shiftTrace bits s.eng.sg) ∧
      t.eng = { s.eng with
        acc := assembleSamples bits, idx := 23, pcnt := 1, mode := .normal,
        seq := if s.eng.op = Opcode.read then .xDecode else .xCommit } ∧
      t.pins = { s.pins with sck := false }

/-- R168, R169: READ, from acceptance to RESP: no wait, no check; the frame carries GAIN, the response is OK with the
sign-extended sample, and GAIN is not written. -/
def Obligations.ReadAnswersTheDecodedSample : Prop :=
  ∀ (s : State) (g : Selection), Accepts .read s → s.eng.gain = some g →
    Along NoReset (128 + 4 * (codeOf g).toNat) s →
    ∃ (t : State) (bits : List Bool), bits.length = 24 ∧
      runTrace (128 + 4 * (codeOf g).toNat) s =
        some (t, shiftTrace bits g ++ [.rsp .ok ((assembleSamples bits).signExtend 32)]) ∧
      t.eng.seq = .resp ∧ t.eng.rspStatus = .ok ∧ t.eng.rspData = (assembleSamples bits).signExtend 32 ∧
      t.eng.gain = some g ∧ t.eng.mode = .normal ∧ t.eng.t0 = s.eng.t0 ∧ t.eng.tmo = s.eng.tmo ∧
      t.pins = { s.pins with sck := false }

/-- R141, R142: IS_READY, from acceptance to RESP: one PinRead and no other primitive; the datum is 1 exactly when the
line reads low in that step. -/
def Obligations.IsReadyAnswersTheLine : Prop :=
  ∀ s : State, Accepts .isReady s → Along NoReset 2 s →
    ∃ u t : State, step s = .next u ∧ (s.pins.dirData = .input → u.dataLevel = u.inputs.dout) ∧
      runTrace 2 s = some (t, [.r u.dataLevel, .rsp .ok (if u.dataLevel then 0 else 1)]) ∧
      t.eng = { s.eng with
        op := 0x04, arg := 0, rspStatus := .ok, rspData := if u.dataLevel then 0 else 1, seq := .resp } ∧
      t.pins = s.pins

/-- R161: SET_POWER, from acceptance to RESP: the clock level, one coarse delay, OK. -/
def Obligations.SetPowerDrivesTheClock : Prop :=
  ∀ (down : Bool) (s : State), Accepts (.setPower down) s → Along NoReset 3 s →
    ∃ t : State, runTrace 3 s = some (t, [.w down, .tick, .rsp .ok 0]) ∧
      t.eng = { s.eng with
        op := 0x02, arg := if down then 1 else 0, rspStatus := .ok, rspData := 0, seq := .resp } ∧
      t.pins = { s.pins with sck := down }

/-- R157, R163, R207: SET_GAIN and INIT complete. With a valid operand, on a data line that reads low when the wait
looks at it (and, for INIT, pin configurations that succeed), they run from acceptance to RESP, emit the stated trace
and commit the gain. -/
def Obligations.GainCommandsCommitOnAReadyLine : Prop :=
  ∀ (arg : Word) (g : Selection) (s : State), gainOperand arg = some g →
    (Accepts (.setGain arg) s → s.pins.dirData = .input →
      Along (fun u => NoReset u ∧ (u.eng.seq = .wCheck → u.inputs.dout = false)) (130 + 4 * (codeOf g).toNat) s →
      ∃ (t : State) (n : Word) (bits : List Bool), bits.length = 24 ∧
        runTrace (130 + 4 * (codeOf g).toNat) s =
          some (t, [.now n, .r false] ++ shiftTrace bits g ++ [.rsp .ok 0]) ∧
        t.eng.seq = .resp ∧ t.eng.rspStatus = .ok ∧ t.eng.rspData = 0 ∧ t.eng.gain = some g ∧ t.eng.mode = .normal ∧
        t.pins = { s.pins with sck := false }) ∧
    (Accepts (.init arg) s →
      Along (fun u => NoReset u ∧ (u.eng.seq = .iCfgData ∨ u.eng.seq = .iCfgClk → u.inputs.cfg = .ok) ∧
        (u.eng.seq = .wCheck → u.inputs.dout = false)) (134 + 4 * (codeOf g).toNat) s →
      ∃ (t : State) (n : Word) (bits : List Bool), bits.length = 24 ∧
        runTrace (134 + 4 * (codeOf g).toNat) s =
          some (t, [.cfg .data .input .ok, .cfg .clk .output .ok, .w false, .tick, .now n, .r false] ++
            shiftTrace bits g ++ [.rsp .ok 0]) ∧
        t.eng.seq = .resp ∧ t.eng.rspStatus = .ok ∧ t.eng.rspData = 0 ∧ t.eng.gain = some g ∧ t.eng.mode = .normal ∧
        t.pins = { sck := false, dirData := .input, dirClk := .output })

/-- R206: the sequencer refines the procedures: for every command, every state in IDLE and every sequence of answers,
the trace up to RESP is the procedure's for those answers, and GAIN, SCK, the directions and the response are the
procedure's. -/
def Obligations.SequencerRefinesTheProcedures : Prop :=
  ∀ (i : Instr) (s t : State) (k : Nat) (tr : List Event), FirstResponse i s k t tr →
    ∃ f : Final, procedure i s.handle (answersOf tr) = some (tr, f) ∧ f.agrees t

/-- R207: the step counts, acceptance and RESP included, where m is the number of coarse delays of the wait; the two
counts of a Timeout of SET_GAIN and INIT follow from R186 to R189 (95_test_vectors.md V6, V7). -/
def Obligations.OperationsTakeTheStatedSteps : Prop :=
  ∀ (i : Instr) (s t : State) (k : Nat) (tr : List Event), FirstResponse i s k t tr →
    (i = .isReady → k + 1 = 3) ∧
    (∀ d, i = .setPower d → k + 1 = 4) ∧
    (∀ g, i = .read → s.eng.gain = some g → k + 1 = 129 + 4 * (codeOf g).toNat) ∧
    (∀ ms, i = .waitReady ms →
      (t.eng.rspStatus = .ok → k + 1 = 3 * tr.count .tick + 4) ∧
      (t.eng.rspStatus = .timeout → 1 ≤ tr.count .tick ∧ k + 1 = 3 * tr.count .tick + 3)) ∧
    (∀ arg g, i = .setGain arg → gainOperand arg = some g → t.eng.rspStatus = .ok →
      k + 1 = 3 * tr.count .tick + 4 * (codeOf g).toNat + 131) ∧
    (∀ arg g, i = .init arg → gainOperand arg = some g → t.eng.rspStatus = .ok →
      k + 1 = 3 * (tr.count .tick - 1) + 4 * (codeOf g).toNat + 135) ∧
    (∀ arg, i = .setGain arg → t.eng.rspStatus = .timeout → k + 1 = 3 * tr.count .tick + 3) ∧
    (∀ arg, i = .init arg → t.eng.rspStatus = .timeout → k + 1 = 3 * (tr.count .tick - 1) + 7) ∧
    (t.eng.rspStatus = .invalidArgument → k + 1 = 2)

/-- R151, R163, R165: a SET_GAIN that ends in Timeout leaves GAIN, ACC, MODE and every pin as they were, and its trace
holds no clock edge and no microsecond delay. -/
def Obligations.TimedOutSetGainKeepsGainAndPins : Prop :=
  ∀ (arg : Word) (s t : State) (k : Nat) (tr : List Event), FirstResponse (.setGain arg) s k t tr →
    t.eng.rspStatus = .timeout →
    t.eng.gain = s.eng.gain ∧ t.eng.acc = s.eng.acc ∧ t.eng.mode = s.eng.mode ∧ t.pins = s.pins ∧
    t.eng.rspData = 0 ∧ (∀ v, .w v ∉ tr) ∧ ∀ n, .us n ∉ tr

/-- R159: what a failed INIT with a valid operand leaves: always GAIN = g; after a failure of the first configuration
the clock pin as it was; after a failure of the second DATA an input and the clock level as it was; after a Timeout
both pins configured and CLK low; and no frame in any of them. -/
def Obligations.FailedInitKeepsWhatWasDone : Prop :=
  ∀ (arg : Word) (g : Selection) (s t : State) (k : Nat) (tr : List Event),
    FirstResponse (.init arg) s k t tr → gainOperand arg = some g → t.eng.rspStatus ≠ .ok →
    t.eng.gain = some g ∧ .critEnter ∉ tr ∧ .w true ∉ tr ∧
    ((t.eng.rspStatus = .pinFailure ∧ t.eng.rspData ≠ 0 ∧ t.pins.sck = s.pins.sck ∧
        ((t.pins.dirClk = s.pins.dirClk ∧ k = 2) ∨ (t.pins.dirData = .input ∧ k = 3))) ∨
      (t.eng.rspStatus = .timeout ∧ t.eng.rspData = 0 ∧ t.pins.sck = false ∧ t.pins.dirData = .input ∧
        t.pins.dirClk = .output))

/-- R148: a WAIT_READY whose every look at the line reads high is answered Timeout, never OK, and at its last look at
the clock the elapsed time had reached the bound. -/
def Obligations.NeverReadyIsAnsweredTimeout : Prop :=
  ∀ (ms : Word) (s t : State) (k : Nat) (tr : List Event), FirstResponse (.waitReady ms) s k t tr →
    (∀ b, .r b ∈ tr → b = true) →
    t.eng.rspStatus = .timeout ∧
    ∃ t0 n rest, tr.head? = some (.now t0) ∧ tr = rest ++ [.now n, .rsp .timeout 0] ∧ ms.toNat ≤ (n - t0).toNat

/-- R222, R148: with the progress assumption every wait ends, of WAIT_READY, SET_GAIN and INIT alike: it is answered
(READY or EXPIRED for WAIT_READY, Timeout for the others), or goes on to the shift. -/
def Obligations.EveryWaitEndsUnderProgress : Prop :=
  ∀ r : Nat → State, WaitRun r → Progress r →
    ∃ j, ((r j).eng.seq = .resp ∨ (r j).eng.seq = .sEnter) ∧ ∀ i, i < j → waitPhase (r i).eng.seq = true

/-- R148, R222: a bound on the steps, under a stronger premise than R222's. If the clock advances by at least 1 ms at
every yield and by at most d ms in any step, and the bound and one round more stay below the counter's range, a
WAIT_READY is answered within 3 T + 5 steps. -/
def Obligations.WaitReadyEndsWhenTheClockAdvances : Prop :=
  ∀ (ms : Word) (d : Nat) (s : State), Accepts (.waitReady ms) s → ms.toNat + 3 * d < 2 ^ 32 →
    Along (fun u => NoReset u ∧ (u.eng.seq = .wYield → 1 ≤ u.nextMove.msPassed) ∧ u.nextMove.msPassed ≤ d)
      (3 * ms.toNat + 5) s →
    ∃ (k : Nat) (t : State) (tr : List Event), k ≤ 3 * ms.toNat + 5 ∧ FirstResponse (.waitReady ms) s k t tr

/-! ## With the device and the platform keeping their side (R218) -/

/-- R126, R212: premises: the device has signalled ready and counted no pulse since, it is on and undisturbed, its clock
is driven and low when the shift begins, the platform keeps its bounds and the device its conversion. Then at the end of
the frame DEV_SEL is the selection sent, and a conversion the device finishes next is made under it. When the device
latches, which frames count, what disturbs one and when a conversion may finish are the model's choices (log 11, log 12,
log 13, log 14, log 15). -/
def Obligations.SoundFrameLatchesTheSelection : Prop :=
  ∀ s : State, s.eng.seq = .sEnter →
    s.pins.dirClk = .output → s.dev.pending = true → s.dev.pulses = some 0 → s.dev.pwr = .on → s.dev.clk = false →
    s.dev.disturbed = false →
    Along (fun u => NoReset u ∧ PlatformKeepsBounds u ∧ DeviceKeepsItsConversion u)
      (126 + 4 * (codeOf s.eng.sg).toNat) s →
    ∃ (t : State) (tr : List Event), runTrace (126 + 4 * (codeOf s.eng.sg).toNat) s = some (t, tr) ∧
      t.dev.sel = s.eng.sg ∧ t.dev.disturbed = false ∧
      ∀ n raw, (t.dev.move n (.complete raw)).result = raw ∧ (t.dev.move n (.complete raw)).resultSel = s.eng.sg

/-- R211, R212, R225 (b), R218: premises: as above, DATA an input, and the data line carrying the result's bits. Then
READ answers the conversion the device had finished when the frame began, sign-extended, and the device's next
conversion has the selection GAIN. When the device latches, which frames count, what disturbs one and when a conversion
may finish are the model's choices (log 11, log 12, log 13, log 14, log 15). -/
def Obligations.ReadAnswersTheDeviceConversion : Prop :=
  ∀ (s : State) (g : Selection), InOperation .read s → s.eng.seq = .sEnter → s.eng.sg = g →
    s.pins.dirData = .input → s.pins.dirClk = .output →
    s.dev.pending = true → s.dev.pulses = some 0 → s.dev.pwr = .on → s.dev.clk = false →
    s.dev.disturbed = false →
    Along (fun u => NoReset u ∧ PlatformKeepsBounds u ∧ DeviceKeepsItsConversion u ∧ DataOutput u)
      (127 + 4 * (codeOf g).toNat) s →
    ∃ (t : State) (tr : List Event), runTrace (127 + 4 * (codeOf g).toNat) s = some (t, tr) ∧
      t.eng.seq = .resp ∧ t.eng.rspStatus = .ok ∧ t.eng.rspData = s.dev.result.signExtend 32 ∧ t.dev.sel = g

/-- R161, R213, R214, R226 (d): with the clock driven and a coarse delay of at least 60 us, the device is in power-down
and has discarded its conversion when SET_POWER 1 answers, and it is on when SET_POWER 0 answers. That nothing is
pending then rests on the model's choice that a device in power-down finishes no conversion (log 15), and that a reset
of the device itself on the way leaves DEV_PWR to the clock level is the model's choice too (log 30). -/
def Obligations.PowerFollowsTheClockLevel : Prop :=
  ∀ (down : Bool) (s : State), SequencerInv s → Accepts (.setPower down) s → s.pins.dirClk = .output →
    Along (fun u => NoReset u ∧ CoarseDelayReachesPowerDown u) 3 s →
    ∃ (t : State) (tr : List Event), runTrace 3 s = some (t, tr) ∧
      (down = true → t.dev.pwr = .down ∧ t.dev.pending = false) ∧ (down = false → t.dev.pwr = .on)

/-- R210, R225 (b): with the ready convention, an answer of IS_READY says whether a conversion is available. -/
def Obligations.IsReadyTellsWhetherAConversionIsAvailable : Prop :=
  ∀ s : State, s.eng.seq = .rCheck → s.eng.mode = .normal → s.pins.dirData = .input → s.dev.pwr = .on →
    s.dev.midShift = false → ReadyConvention s →
    ∃ t, exec .isReady s = .next t ∧ (t.eng.rspData = 1 ↔ s.dev.pending = true) ∧
      (t.eng.rspData = 0 ↔ s.dev.pending = false)

/-- R67, R262, R216: a step with rst asserted in S_HI to G_LO_HOLD, on a device that is not in power-down, leaves the
device disturbed and in no count of pulses; and every step of any kind leaves a disturbed device disturbed, as long as
it was not in power-down. The cut is R262's (log 20); that the disturbance lasts until a power cycle is the model's
choice (log 13). -/
def Obligations.CutFrameDisturbsTheDevice : Prop :=
  (∀ s : State, s.inputs.rst = true → cutsFrame s.eng.seq = true → s.dev.pwr = .on →
    ∃ t, step s = .next t ∧ t.dev.disturbed = true ∧ t.dev.pulses = none) ∧
  ∀ s t : State, step s = .next t → s.dev.disturbed = true → s.dev.pulses = none → s.dev.pwr = .on →
    t.dev.disturbed = true ∧ t.dev.pulses = none

/-- R216, R220, R226 (b), (c): a step without rst in which the platform broke a bound of a frame, in any of its holds,
leaves the device disturbed. What counts as a break, and how long its effect lasts, are the model's choices (log 13). -/
def Obligations.BrokenBoundDisturbsTheDevice : Prop :=
  ∀ s u : State, s.inputs.rst = false → engineStep s = .next u →
    (∃ n, .us n ∈ u.events ∧
      (1000 * Config.tJitterUs < s.inputs.overrunNs ∨ 2000 ≤ 1000 * n + s.inputs.overrunNs)) ∨
    (u.eng.mode = .critical ∧ s.nextMove.gapNs ≠ 0) →
    ∃ t, step s = .next t ∧ t.dev.disturbed = true ∧ t.dev.pulses = none

/-- R215, R66: a device that comes to signal ready in the middle of a frame, on the wire, is disturbed: nothing is known of
DEV_SEL after that frame. In any other step that keeps the platform's bounds an undisturbed device that finishes a
conversion, and has none partly shifted out, begins its count there, however short its clock has been low. What a
disturbance is, and how long it lasts, are the model's choices (log 12, log 13, log 15). -/
def Obligations.ReadyBeginsTheCountOutsideAFrame : Prop :=
  ∀ (s u : State) (raw : Raw), s.inputs.rst = false → engineStep s = .next u → s.nextMove.device = .complete raw →
    ∃ t, step s = .next t ∧
      (u.midFrame = true → t.dev.disturbed = true ∧ t.dev.pulses = none) ∧
      (u.midFrame = false → u.keepsBounds s.nextMove = true →
        let d := s.dev.observe u.draws u.clkWire (u.stepNs + s.nextMove.gapNs)
        d.pwr = .on → d.disturbed = false → d.partShifted = false →
        t.dev.pulses = some 0 ∧ t.dev.disturbed = false ∧ t.dev.strayed = false ∧ t.dev.pending = true ∧
        t.dev.result = raw ∧ t.dev.resultSel = t.dev.sel ∧ (u.strayEdge = false → t.dev.sel = d.sel))

/-- R66, R67, R216: whatever the clock wire shows, it disturbs no device, a wire that is not driven included: an undisturbed
device is disturbed only in a step in which the document no longer gives its state (a bound broken in a frame, or
ready in the middle of one: log 12, log 13), or by a move of its own with a conversion partly shifted
out (log 15, log 30). -/
def Obligations.EdgesAloneDisturbNoDevice : Prop :=
  ∀ s t : State, s.inputs.rst = false → step s = .next t → s.dev.disturbed = false → t.dev.disturbed = true →
    ∃ u, engineStep s = .next u ∧
      (u.keepsFrame s.nextMove = false ∨
        (s.nextMove.device ≠ .quiet ∧
          (s.dev.observe u.draws u.clkWire (u.stepNs + s.nextMove.gapNs)).partShifted = true))

/-- R66, R70, R76, R219: the clock wire is all the device learns of the engine, and it moves in every step: after any
step without rst in which the document still gives its state (R215, R216), and the wire does not fall outside a SHIFT
(R66; log 16), the device is what it was, having seen the clock wire's level for the step's time and then made the
move the environment lets it make. A move finishes a conversion, or drops one, in every step and phase, inside a frame
too (log 15). And two steps of that kind that show it the same level for the same time, with the same move and the
same draws of the free values, leave it the same, whatever the engine did. -/
def Obligations.DeviceActsOnTheWireOnly : Prop :=
  (∀ s u : State, s.inputs.rst = false → engineStep s = .next u →
    ∃ t, step s = .next t ∧
      (u.keepsFrame u.nextMove = true → u.strayEdge = false →
        t.dev = (s.dev.observe u.draws u.clkWire (u.stepNs + u.nextMove.gapNs)).move u.draws u.nextMove.device) ∧
      (∀ raw, u.nextMove.device = .complete raw → t.dev.pwr = .on → t.dev.pending = true ∧ t.dev.result = raw) ∧
      (u.nextMove.device = .withdraw → t.dev.pending = false)) ∧
  ∀ s s' u u' : State, s.inputs.rst = false → s'.inputs.rst = false → engineStep s = .next u →
    engineStep s' = .next u' → u.keepsFrame u.nextMove = true → u'.keepsFrame u'.nextMove = true →
    u.strayEdge = false → u'.strayEdge = false →
    s'.dev = s.dev → u'.clkWire = u.clkWire → u'.draws = u.draws →
    u'.stepNs + u'.nextMove.gapNs = u.stepNs + u.nextMove.gapNs → u'.nextMove.device = u.nextMove.device →
    ∃ t t', step s = .next t ∧ step s' = .next t' ∧ t'.dev = t.dev
end

