-- ==== Sys2Proof/Laws/Decode.lean ====
section
/-! SUPPORT. The two fields of a command word determine it, and the word assembled has the fields it was assembled from. -/

namespace Sys2Proof

theorem opField_append (op : BitVec 8) (arg : Word) : opField (op ++ arg) = op := by
  apply BitVec.eq_of_getLsbD_eq
  intro i hi
  have h := BitVec.getLsbD_append (x := op) (y := arg) (i := 32 + i)
  simp only [opField, BitVec.getLsbD_extractLsb', hi, decide_true, Bool.true_and]
  rw [h]
  simp

theorem argField_append (op : BitVec 8) (arg : Word) : argField (op ++ arg) = arg := by
  apply BitVec.eq_of_getLsbD_eq
  intro i hi
  have h := BitVec.getLsbD_append (x := op) (y := arg) (i := i)
  simp only [argField, BitVec.getLsbD_extractLsb', hi, decide_true, Bool.true_and, Nat.zero_add]
  rw [h]
  simp [hi]

theorem append_fields (w : CommandWord) : opField w ++ argField w = w := by
  apply BitVec.eq_of_getLsbD_eq
  intro i hi
  have h := BitVec.getLsbD_append (x := opField w) (y := argField w) (i := i)
  rw [h]
  by_cases h2 : i < 32
  · simp [argField, h2]
  · simp [opField, h2, show 32 + (i - 32) = i by omega, show i - 32 < 8 by omega]

theorem opField_encode (i : Instr) : opField (encode i) = i.opcode := opField_append _ _

theorem argField_encode (i : Instr) : argField (encode i) = i.operand := argField_append _ _

/-- A word is determined by its two fields (R90). -/
theorem eq_encode_iff {w : CommandWord} {i : Instr} : encode i = w ↔ opField w = i.opcode ∧ argField w = i.operand := by
  constructor
  · rintro rfl; exact ⟨opField_encode i, argField_encode i⟩
  · rintro ⟨h1, h2⟩; rw [← append_fields w, h1, h2]; rfl

/-- The words of SET_POWER's two operands (R93). -/
theorem downArg_eq_zero {d : Bool} : downArg d = 0 ↔ d = false := by cases d <;> decide

/-- arg[31:1] is 0 for the operands 0 and 1 only (R93). -/
theorem upper_bits_zero_iff {arg : Word} : arg.extractLsb' 1 31 = 0 ↔ arg = 0 ∨ arg = 1 := by
  have hlt := arg.isLt
  have key : (arg.extractLsb' 1 31).toNat = arg.toNat / 2 := by
    rw [BitVec.extractLsb'_toNat, Nat.shiftRight_eq_div_pow, Nat.mod_eq_of_lt (by omega)]
  rw [← BitVec.toNat_inj, ← BitVec.toNat_inj, ← BitVec.toNat_inj, key]
  simp
  omega

/-- A word selects a row with mask m ++ n and pattern p ++ q field by field. -/
theorem and_append_eq_iff (w : CommandWord) (m p : BitVec 8) (n q : Word) :
    w &&& (m ++ n : CommandWord) = (p ++ q : CommandWord) ↔ opField w &&& m = p ∧ argField w &&& n = q := by
  have hw : w &&& (m ++ n : CommandWord) = ((opField w &&& m) ++ (argField w &&& n) : CommandWord) := by
    conv_lhs => rw [← append_fields w]
    exact BitVec.and_append
  rw [hw]
  constructor
  · intro h
    have ho := congrArg opField h
    have ha := congrArg argField h
    rw [opField_append, opField_append] at ho
    rw [argField_append, argField_append] at ha
    exact ⟨ho, ha⟩
  · rintro ⟨rfl, rfl⟩; rfl

/-- What the mask of SET_POWER leaves of arg (R91). -/
theorem and_mask_setPower {arg : Word} : arg &&& 0xFFFFFFFE = 0 ↔ arg = 0 ∨ arg = 1 := by
  rw [← upper_bits_zero_iff]
  constructor
  · intro h
    apply BitVec.eq_of_getLsbD_eq
    intro i hi
    have hb : (arg &&& 0xFFFFFFFE).getLsbD (1 + i) = false := by rw [h]; simp
    have hm : BitVec.getLsbD (0xFFFFFFFE : Word) (1 + i) = true := by interval_cases i <;> decide
    rw [BitVec.getLsbD_and, hm, Bool.and_true] at hb
    simpa [hi] using hb
  · intro h
    apply BitVec.eq_of_getLsbD_eq
    intro i hi
    by_cases h0 : i = 0
    · subst h0; simp
    · have hb := congrArg (fun v => v.getLsbD (i - 1)) h
      simp only [BitVec.getLsbD_extractLsb', show 1 + (i - 1) = i by omega, show i - 1 < 31 by omega, decide_true,
        Bool.true_and] at hb
      simp [BitVec.getLsbD_and, hb]

/-- Which words select which row of the table (R91). -/
theorem table_selects (w : CommandWord) :
    (w &&& 0xFF00000000 = 0x0100000000 ↔ opField w = 1) ∧
    (w &&& 0xFFFFFFFFFE = 0x0200000000 ↔ opField w = 2 ∧ (argField w = 0 ∨ argField w = 1)) ∧
    (w &&& 0xFF00000000 = 0x0300000000 ↔ opField w = 3) ∧
    (w &&& 0xFFFFFFFFFF = 0x0400000000 ↔ opField w = 4 ∧ argField w = 0) ∧
    (w &&& 0xFF00000000 = 0x0500000000 ↔ opField w = 5) ∧
    (w &&& 0xFFFFFFFFFF = 0x0600000000 ↔ opField w = 6 ∧ argField w = 0) := by
  have all8 : ∀ x : BitVec 8, x &&& 0xFF = x := fun x => BitVec.and_allOnes
  have all32 : ∀ x : Word, x &&& 0xFFFFFFFF = x := fun x => BitVec.and_allOnes
  have none32 : ∀ x : Word, x &&& 0 = 0 := fun x => BitVec.and_zero
  have opOnly : ∀ p : BitVec 8, w &&& ((0xFF : BitVec 8) ++ (0 : Word) : CommandWord) = (p ++ (0 : Word) : CommandWord) ↔ opField w = p := by
    intro p; rw [and_append_eq_iff, all8, none32]; simp
  have whole : ∀ p : BitVec 8, w &&& ((0xFF : BitVec 8) ++ (0xFFFFFFFF : Word) : CommandWord) = (p ++ (0 : Word) : CommandWord) ↔
      opField w = p ∧ argField w = 0 := by
    intro p; rw [and_append_eq_iff, all8, all32]
  have power : w &&& ((0xFF : BitVec 8) ++ (0xFFFFFFFE : Word) : CommandWord) = ((2 : BitVec 8) ++ (0 : Word) : CommandWord) ↔
      opField w = 2 ∧ (argField w = 0 ∨ argField w = 1) := by
    rw [and_append_eq_iff, all8, and_mask_setPower]
  exact ⟨opOnly 1, power, opOnly 3, whole 4, opOnly 5, whole 6⟩

/-- Reading a word through the rows of the opcode table (R91). -/
theorem decode_eq (w : CommandWord) : decode w =
    if opField w = 1 then .ok (.init (argField w))
    else if opField w = 2 then
      if argField w = 0 then .ok (.setPower false)
      else if argField w = 1 then .ok (.setPower true)
      else .error (.setPowerArg (argField w))
    else if opField w = 3 then .ok (.setGain (argField w))
    else if opField w = 4 then if argField w = 0 then .ok .isReady else .error (.isReadyArg (argField w))
    else if opField w = 5 then .ok (.waitReady (argField w))
    else if opField w = 6 then if argField w = 0 then .ok .read else .error (.readArg (argField w))
    else .error (.opcode (opField w)) := rfl

end Sys2Proof
end

