-- ==== Sys2Proof/Laws/State.lean ====
section
/-! SUPPORT. One lemma per field and operation on the state, so that no proof unfolds a record update. -/

namespace Sys2Proof.Machine

section
variable (s : State)

@[simp] theorem quiet_eng : (State.quiet s).eng = s.eng := rfl
@[simp] theorem quiet_pins : (State.quiet s).pins = s.pins := rfl
@[simp] theorem quiet_inputs : (State.quiet s).inputs = s.inputs := rfl
@[simp] theorem quiet_clockMs : (State.quiet s).clockMs = s.clockMs := rfl
@[simp] theorem quiet_dev : (State.quiet s).dev = s.dev := rfl
@[simp] theorem quiet_events : (State.quiet s).events = [] := rfl
@[simp] theorem quiet_script : (State.quiet s).script = s.script := rfl
@[simp] theorem quiet_draws : (State.quiet s).draws = s.draws := rfl

@[simp] theorem emit_eng (e : Event) : (State.emit e s).eng = s.eng := rfl
@[simp] theorem emit_pins (e : Event) : (State.emit e s).pins = s.pins := rfl
@[simp] theorem emit_inputs (e : Event) : (State.emit e s).inputs = s.inputs := rfl
@[simp] theorem emit_clockMs (e : Event) : (State.emit e s).clockMs = s.clockMs := rfl
@[simp] theorem emit_dev (e : Event) : (State.emit e s).dev = s.dev := rfl
@[simp] theorem emit_events (e : Event) : (State.emit e s).events = s.events ++ [e] := rfl
@[simp] theorem emit_script (e : Event) : (State.emit e s).script = s.script := rfl
@[simp] theorem emit_draws (e : Event) : (State.emit e s).draws = s.draws := rfl

@[simp] theorem goto_eng (p : Phase) : (State.goto p s).eng = { s.eng with seq := p } := rfl
@[simp] theorem goto_pins (p : Phase) : (State.goto p s).pins = s.pins := rfl
@[simp] theorem goto_inputs (p : Phase) : (State.goto p s).inputs = s.inputs := rfl
@[simp] theorem goto_clockMs (p : Phase) : (State.goto p s).clockMs = s.clockMs := rfl
@[simp] theorem goto_dev (p : Phase) : (State.goto p s).dev = s.dev := rfl
@[simp] theorem goto_events (p : Phase) : (State.goto p s).events = s.events := rfl
@[simp] theorem goto_script (p : Phase) : (State.goto p s).script = s.script := rfl
@[simp] theorem goto_draws (p : Phase) : (State.goto p s).draws = s.draws := rfl

@[simp] theorem pinRead_eng : (State.pinRead s).eng = s.eng := rfl
@[simp] theorem pinRead_pins : (State.pinRead s).pins = s.pins := rfl
@[simp] theorem pinRead_inputs : (State.pinRead s).inputs = s.inputs := rfl
@[simp] theorem pinRead_clockMs : (State.pinRead s).clockMs = s.clockMs := rfl
@[simp] theorem pinRead_dev : (State.pinRead s).dev = s.dev := rfl
@[simp] theorem pinRead_events : (State.pinRead s).events = s.events ++ [.r s.dataLevel] := rfl
@[simp] theorem pinRead_script : (State.pinRead s).script = s.script := rfl
@[simp] theorem pinRead_draws : (State.pinRead s).draws = s.draws := rfl

@[simp] theorem pinWrite_eng (v : Bool) : (State.pinWrite v s).eng = s.eng := rfl
@[simp] theorem pinWrite_pins (v : Bool) : (State.pinWrite v s).pins = { s.pins with sck := v } := rfl
@[simp] theorem pinWrite_inputs (v : Bool) : (State.pinWrite v s).inputs = s.inputs := rfl
@[simp] theorem pinWrite_clockMs (v : Bool) : (State.pinWrite v s).clockMs = s.clockMs := rfl
@[simp] theorem pinWrite_dev (v : Bool) : (State.pinWrite v s).dev = s.dev := rfl
@[simp] theorem pinWrite_events (v : Bool) : (State.pinWrite v s).events = s.events ++ [.w v] := rfl
@[simp] theorem pinWrite_script (v : Bool) : (State.pinWrite v s).script = s.script := rfl
@[simp] theorem pinWrite_draws (v : Bool) : (State.pinWrite v s).draws = s.draws := rfl

@[simp] theorem pinConfig_eng (p : Pin) (d : PinDir) : (State.pinConfig p d s).eng = s.eng := by cases p <;> rfl
@[simp] theorem pinConfig_inputs (p : Pin) (d : PinDir) : (State.pinConfig p d s).inputs = s.inputs := by cases p <;> rfl
@[simp] theorem pinConfig_clockMs (p : Pin) (d : PinDir) : (State.pinConfig p d s).clockMs = s.clockMs := by cases p <;> rfl
@[simp] theorem pinConfig_dev (p : Pin) (d : PinDir) : (State.pinConfig p d s).dev = s.dev := by cases p <;> rfl
@[simp] theorem pinConfig_events (p : Pin) (d : PinDir) : (State.pinConfig p d s).events = s.events ++ [.cfg p d s.inputs.cfg] := by cases p <;> rfl
@[simp] theorem pinConfig_script (p : Pin) (d : PinDir) : (State.pinConfig p d s).script = s.script := by cases p <;> rfl
@[simp] theorem pinConfig_draws (p : Pin) (d : PinDir) : (State.pinConfig p d s).draws = s.draws := by cases p <;> rfl

@[simp] theorem delayUs_eng (n : Nat) : (State.delayUs n s).eng = s.eng := rfl
@[simp] theorem delayUs_pins (n : Nat) : (State.delayUs n s).pins = s.pins := rfl
@[simp] theorem delayUs_inputs (n : Nat) : (State.delayUs n s).inputs = s.inputs := rfl
@[simp] theorem delayUs_clockMs (n : Nat) : (State.delayUs n s).clockMs = s.clockMs := rfl
@[simp] theorem delayUs_dev (n : Nat) : (State.delayUs n s).dev = s.dev := rfl
@[simp] theorem delayUs_events (n : Nat) : (State.delayUs n s).events = s.events ++ [.us n] := rfl
@[simp] theorem delayUs_script (n : Nat) : (State.delayUs n s).script = s.script := rfl
@[simp] theorem delayUs_draws (n : Nat) : (State.delayUs n s).draws = s.draws := rfl

@[simp] theorem coarseDelay_eng : (State.coarseDelay s).eng = s.eng := rfl
@[simp] theorem coarseDelay_pins : (State.coarseDelay s).pins = s.pins := rfl
@[simp] theorem coarseDelay_inputs : (State.coarseDelay s).inputs = s.inputs := rfl
@[simp] theorem coarseDelay_clockMs : (State.coarseDelay s).clockMs = s.clockMs := rfl
@[simp] theorem coarseDelay_dev : (State.coarseDelay s).dev = s.dev := rfl
@[simp] theorem coarseDelay_events : (State.coarseDelay s).events = s.events ++ [.tick] := rfl
@[simp] theorem coarseDelay_script : (State.coarseDelay s).script = s.script := rfl
@[simp] theorem coarseDelay_draws : (State.coarseDelay s).draws = s.draws := rfl

@[simp] theorem readClock_eng : (State.readClock s).eng = s.eng := rfl
@[simp] theorem readClock_pins : (State.readClock s).pins = s.pins := rfl
@[simp] theorem readClock_inputs : (State.readClock s).inputs = s.inputs := rfl
@[simp] theorem readClock_clockMs : (State.readClock s).clockMs = s.clockMs := rfl
@[simp] theorem readClock_dev : (State.readClock s).dev = s.dev := rfl
@[simp] theorem readClock_events : (State.readClock s).events = s.events ++ [.now s.nowMs] := rfl
@[simp] theorem readClock_script : (State.readClock s).script = s.script := rfl
@[simp] theorem readClock_draws : (State.readClock s).draws = s.draws := rfl

@[simp] theorem critEnter_eng : (State.critEnter s).eng = { s.eng with mode := .critical } := rfl
@[simp] theorem critEnter_pins : (State.critEnter s).pins = s.pins := rfl
@[simp] theorem critEnter_inputs : (State.critEnter s).inputs = s.inputs := rfl
@[simp] theorem critEnter_clockMs : (State.critEnter s).clockMs = s.clockMs := rfl
@[simp] theorem critEnter_dev : (State.critEnter s).dev = s.dev := rfl
@[simp] theorem critEnter_events : (State.critEnter s).events = s.events ++ [.critEnter] := rfl
@[simp] theorem critEnter_script : (State.critEnter s).script = s.script := rfl
@[simp] theorem critEnter_draws : (State.critEnter s).draws = s.draws := rfl

@[simp] theorem critExit_eng : (State.critExit s).eng = { s.eng with mode := .normal } := rfl
@[simp] theorem critExit_pins : (State.critExit s).pins = s.pins := rfl
@[simp] theorem critExit_inputs : (State.critExit s).inputs = s.inputs := rfl
@[simp] theorem critExit_clockMs : (State.critExit s).clockMs = s.clockMs := rfl
@[simp] theorem critExit_dev : (State.critExit s).dev = s.dev := rfl
@[simp] theorem critExit_events : (State.critExit s).events = s.events ++ [.critExit] := rfl
@[simp] theorem critExit_script : (State.critExit s).script = s.script := rfl
@[simp] theorem critExit_draws : (State.critExit s).draws = s.draws := rfl

@[simp] theorem respond_eng (st : Status) (d : Word) : (State.respond st d s).eng = { s.eng with rspStatus := st, rspData := d, seq := .resp } := rfl
@[simp] theorem respond_pins (st : Status) (d : Word) : (State.respond st d s).pins = s.pins := rfl
@[simp] theorem respond_inputs (st : Status) (d : Word) : (State.respond st d s).inputs = s.inputs := rfl
@[simp] theorem respond_clockMs (st : Status) (d : Word) : (State.respond st d s).clockMs = s.clockMs := rfl
@[simp] theorem respond_dev (st : Status) (d : Word) : (State.respond st d s).dev = s.dev := rfl
@[simp] theorem respond_events (st : Status) (d : Word) : (State.respond st d s).events = s.events ++ [.rsp st d] := rfl
@[simp] theorem respond_script (st : Status) (d : Word) : (State.respond st d s).script = s.script := rfl
@[simp] theorem respond_draws (st : Status) (d : Word) : (State.respond st d s).draws = s.draws := rfl

@[simp] theorem raise_eng (e : Error) : (State.raise e s).eng = { s.eng with rspStatus := e.status, rspData := e.info, seq := .resp } := rfl
@[simp] theorem raise_pins (e : Error) : (State.raise e s).pins = s.pins := rfl
@[simp] theorem raise_inputs (e : Error) : (State.raise e s).inputs = s.inputs := rfl
@[simp] theorem raise_clockMs (e : Error) : (State.raise e s).clockMs = s.clockMs := rfl
@[simp] theorem raise_dev (e : Error) : (State.raise e s).dev = s.dev := rfl
@[simp] theorem raise_events (e : Error) : (State.raise e s).events = s.events ++ [.rsp e.status e.info] := rfl
@[simp] theorem raise_script (e : Error) : (State.raise e s).script = s.script := rfl
@[simp] theorem raise_draws (e : Error) : (State.raise e s).draws = s.draws := rfl

@[simp] theorem takeResponse_eng : (State.takeResponse s).eng = { s.eng with seq := .idle } := rfl
@[simp] theorem takeResponse_pins : (State.takeResponse s).pins = s.pins := rfl
@[simp] theorem takeResponse_inputs : (State.takeResponse s).inputs = s.inputs := rfl
@[simp] theorem takeResponse_clockMs : (State.takeResponse s).clockMs = s.clockMs := rfl
@[simp] theorem takeResponse_dev : (State.takeResponse s).dev = s.dev := rfl
@[simp] theorem takeResponse_events : (State.takeResponse s).events = s.events := rfl
@[simp] theorem takeResponse_script : (State.takeResponse s).script = s.script := rfl
@[simp] theorem takeResponse_draws : (State.takeResponse s).draws = s.draws := rfl

@[simp] theorem latch_eng (op : BitVec 8) (arg : Word) : (State.latch op arg s).eng = { s.eng with op := op, arg := arg } := rfl
@[simp] theorem latch_pins (op : BitVec 8) (arg : Word) : (State.latch op arg s).pins = s.pins := rfl
@[simp] theorem latch_inputs (op : BitVec 8) (arg : Word) : (State.latch op arg s).inputs = s.inputs := rfl
@[simp] theorem latch_clockMs (op : BitVec 8) (arg : Word) : (State.latch op arg s).clockMs = s.clockMs := rfl
@[simp] theorem latch_dev (op : BitVec 8) (arg : Word) : (State.latch op arg s).dev = s.dev := rfl
@[simp] theorem latch_events (op : BitVec 8) (arg : Word) : (State.latch op arg s).events = s.events := rfl
@[simp] theorem latch_script (op : BitVec 8) (arg : Word) : (State.latch op arg s).script = s.script := rfl
@[simp] theorem latch_draws (op : BitVec 8) (arg : Word) : (State.latch op arg s).draws = s.draws := rfl

@[simp] theorem loadSg_eng (g : Selection) : (State.loadSg g s).eng = { s.eng with sg := g } := rfl
@[simp] theorem loadSg_pins (g : Selection) : (State.loadSg g s).pins = s.pins := rfl
@[simp] theorem loadSg_inputs (g : Selection) : (State.loadSg g s).inputs = s.inputs := rfl
@[simp] theorem loadSg_clockMs (g : Selection) : (State.loadSg g s).clockMs = s.clockMs := rfl
@[simp] theorem loadSg_dev (g : Selection) : (State.loadSg g s).dev = s.dev := rfl
@[simp] theorem loadSg_events (g : Selection) : (State.loadSg g s).events = s.events := rfl
@[simp] theorem loadSg_script (g : Selection) : (State.loadSg g s).script = s.script := rfl
@[simp] theorem loadSg_draws (g : Selection) : (State.loadSg g s).draws = s.draws := rfl

@[simp] theorem beginWait_eng (w : Word) : (State.beginWait w s).eng = { s.eng with tmo := w, seq := .wStart } := rfl
@[simp] theorem beginWait_pins (w : Word) : (State.beginWait w s).pins = s.pins := rfl
@[simp] theorem beginWait_inputs (w : Word) : (State.beginWait w s).inputs = s.inputs := rfl
@[simp] theorem beginWait_clockMs (w : Word) : (State.beginWait w s).clockMs = s.clockMs := rfl
@[simp] theorem beginWait_dev (w : Word) : (State.beginWait w s).dev = s.dev := rfl
@[simp] theorem beginWait_events (w : Word) : (State.beginWait w s).events = s.events := rfl
@[simp] theorem beginWait_script (w : Word) : (State.beginWait w s).script = s.script := rfl
@[simp] theorem beginWait_draws (w : Word) : (State.beginWait w s).draws = s.draws := rfl

@[simp] theorem advance_eng : (State.advance s).eng = s.eng := rfl
@[simp] theorem advance_pins : (State.advance s).pins = s.pins := rfl
@[simp] theorem advance_inputs : (State.advance s).inputs = s.nextMove.inputs := rfl
@[simp] theorem advance_clockMs : (State.advance s).clockMs = s.clockMs + s.nextMove.msPassed := rfl
@[simp] theorem advance_dev : (State.advance s).dev = s.deviceAfter s.nextMove := rfl
@[simp] theorem advance_events : (State.advance s).events = s.events := rfl
@[simp] theorem advance_script : (State.advance s).script = s.script.tail := rfl
@[simp] theorem advance_draws : (State.advance s).draws = s.draws + 1 := rfl

@[simp] theorem applyReset_eng : (State.applyReset s).eng = Engine.reset := rfl
@[simp] theorem applyReset_pins : (State.applyReset s).pins = Pins.reset := rfl
@[simp] theorem applyReset_inputs : (State.applyReset s).inputs = s.inputs := rfl
@[simp] theorem applyReset_clockMs : (State.applyReset s).clockMs = s.clockMs := rfl
@[simp] theorem applyReset_dev : (State.applyReset s).dev = s.dev.engineReset s.draws s.eng.seq := rfl
@[simp] theorem applyReset_events : (State.applyReset s).events = [] := rfl
@[simp] theorem applyReset_script : (State.applyReset s).script = s.script := rfl
@[simp] theorem applyReset_draws : (State.applyReset s).draws = s.draws := rfl

@[simp] theorem pinConfig_data_pins (d : PinDir) :
    (State.pinConfig .data d s).pins = { s.pins with dirData := s.dirAfter d } := rfl
@[simp] theorem pinConfig_clk_pins (d : PinDir) :
    (State.pinConfig .clk d s).pins = { s.pins with dirClk := s.dirAfter d } := rfl
theorem dirAfter_ok {d : PinDir} (h : s.inputs.cfg = .ok) : s.dirAfter d = d := by simp [State.dirAfter, h]

/-- U9 aside: a DATA pin that is an input reads the wire (R37, R223). -/
theorem dataLevel_input (h : s.pins.dirData = .input) : s.dataLevel = s.inputs.dout := by
  simp [State.dataLevel, h]

/-- A driven clock wire carries SCK (R35). -/
theorem clkWire_output (h : s.pins.dirClk = .output) : s.clkWire = s.pins.sck := by
  simp [State.clkWire, h]

@[simp] theorem nowMs_quiet : s.quiet.nowMs = s.nowMs := rfl
@[simp] theorem dataLevel_quiet : s.quiet.dataLevel = s.dataLevel := rfl
@[simp] theorem dirAfter_quiet (d : PinDir) : s.quiet.dirAfter d = s.dirAfter d := rfl
end

end Sys2Proof.Machine
end

