-- ==== Sys2Proof/Laws/Sequencer.lean ====
section
/-! SUPPORT. What one step of the engine does, once for each phase and each acceptance: the lemmas every later proof cites. -/

namespace Sys2Proof.Machine

open Sys2Proof

section
variable {s : State} (op : BitVec 8) (arg : Word)

theorem sequencer_idle (h : s.eng.seq = .idle) : sequencer op arg s = { s with events := [] } := by
  simp only [sequencer, quiet_eng, h]; rfl

theorem sequencer_iCfgData_ok (h : s.eng.seq = .iCfgData) (hc : s.inputs.cfg = .ok) :
    sequencer op arg s =
      { s with
        eng := { s.eng with seq := .iCfgClk }
        pins := { s.pins with dirData := .input }
        events := [.cfg .data .input .ok] } := by
  simp only [sequencer, quiet_eng, h, phaseICfgData, quiet_inputs, hc]
  simp [State.goto, State.pinConfig, State.setDir, State.emit, State.quiet, State.dirAfter, hc]

theorem sequencer_iCfgData_fail (h : s.eng.seq = .iCfgData) {e : FailureCode} (hc : s.inputs.cfg = .fail e) :
    sequencer op arg s =
      { s with
        eng := { s.eng with rspStatus := .pinFailure, rspData := e.val, seq := .resp }
        pins := { s.pins with dirData := Config.freeDir s.draws }
        events := [.cfg .data .input (.fail e), .rsp .pinFailure e.val] } := by
  simp only [sequencer, quiet_eng, h, phaseICfgData, quiet_inputs, hc]
  simp [State.raise, State.respond, Error.status, Error.info, State.pinConfig, State.setDir, State.emit, State.quiet,
    State.dirAfter, hc]

theorem sequencer_iCfgClk_ok (h : s.eng.seq = .iCfgClk) (hc : s.inputs.cfg = .ok) :
    sequencer op arg s =
      { s with
        eng := { s.eng with seq := .pSet }
        pins := { s.pins with dirClk := .output }
        events := [.cfg .clk .output .ok] } := by
  simp only [sequencer, quiet_eng, h, phaseICfgClk, quiet_inputs, hc]
  simp [State.goto, State.pinConfig, State.setDir, State.emit, State.quiet, State.dirAfter, hc]

theorem sequencer_iCfgClk_fail (h : s.eng.seq = .iCfgClk) {e : FailureCode} (hc : s.inputs.cfg = .fail e) :
    sequencer op arg s =
      { s with
        eng := { s.eng with rspStatus := .pinFailure, rspData := e.val, seq := .resp }
        pins := { s.pins with dirClk := Config.freeDir s.draws }
        events := [.cfg .clk .output (.fail e), .rsp .pinFailure e.val] } := by
  simp only [sequencer, quiet_eng, h, phaseICfgClk, quiet_inputs, hc]
  simp [State.raise, State.respond, Error.status, Error.info, State.pinConfig, State.setDir, State.emit, State.quiet,
    State.dirAfter, hc]

theorem sequencer_pSet (h : s.eng.seq = .pSet) :
    sequencer op arg s =
      { s with
        eng := { s.eng with seq := .pHold }
        pins := { s.pins with sck := powerLevel op arg }
        events := [.w (powerLevel op arg)] } := by
  simp only [sequencer, quiet_eng, h]; rfl

theorem sequencer_pHold_init (h : s.eng.seq = .pHold) :
    sequencer Opcode.init arg s = { s with eng := { s.eng with tmo := 200, seq := .wStart }, events := [.tick] } := by
  simp only [sequencer, quiet_eng, h, phasePHold]; rfl

theorem sequencer_pHold_power (h : s.eng.seq = .pHold) (ho : op ≠ Opcode.init) :
    sequencer op arg s =
      { s with
        eng := { s.eng with rspStatus := .ok, rspData := 0, seq := .resp }
        events := [.tick, .rsp .ok 0] } := by
  simp only [sequencer, quiet_eng, h, phasePHold, if_neg ho]; rfl

theorem sequencer_wStart (h : s.eng.seq = .wStart) :
    sequencer op arg s =
      { s with eng := { s.eng with t0 := s.nowMs, seq := .wCheck }, events := [.now s.nowMs] } := by
  simp only [sequencer, quiet_eng, h]; rfl

theorem sequencer_wCheck_high (h : s.eng.seq = .wCheck) (hb : s.dataLevel = true) :
    sequencer op arg s = { s with eng := { s.eng with seq := .wYield }, events := [.r true] } := by
  have hq : s.quiet.dataLevel = true := hb
  simp only [sequencer, quiet_eng, h, phaseWCheck, State.pinRead, hq]
  rfl

theorem sequencer_wCheck_ready (h : s.eng.seq = .wCheck) (hb : s.dataLevel = false) :
    sequencer Opcode.waitReady arg s =
      { s with
        eng := { s.eng with rspStatus := .ok, rspData := 0, seq := .resp }
        events := [.r false, .rsp .ok 0] } := by
  have hq : s.quiet.dataLevel = false := hb
  simp only [sequencer, quiet_eng, h, phaseWCheck, State.pinRead, hq]
  rfl

theorem sequencer_wCheck_shift (h : s.eng.seq = .wCheck) (hb : s.dataLevel = false) (ho : op ≠ Opcode.waitReady) :
    sequencer op arg s = { s with eng := { s.eng with seq := .sEnter }, events := [.r false] } := by
  have hq : s.quiet.dataLevel = false := hb
  simp only [sequencer, quiet_eng, h, phaseWCheck, State.pinRead, hq, if_neg ho]
  rfl

theorem sequencer_wYield (h : s.eng.seq = .wYield) :
    sequencer op arg s = { s with eng := { s.eng with seq := .wTime }, events := [.tick] } := by
  simp only [sequencer, quiet_eng, h]; rfl

theorem sequencer_wTime_expired (h : s.eng.seq = .wTime) (he : expired s.nowMs s.eng.t0 s.eng.tmo = true) :
    sequencer op arg s =
      { s with
        eng := { s.eng with rspStatus := .timeout, rspData := 0, seq := .resp }
        events := [.now s.nowMs, .rsp .timeout 0] } := by
  simp only [sequencer, quiet_eng, h, phaseWTime, readClock_eng, nowMs_quiet, he]; rfl

theorem sequencer_wTime_again (h : s.eng.seq = .wTime) (he : expired s.nowMs s.eng.t0 s.eng.tmo = false) :
    sequencer op arg s = { s with eng := { s.eng with seq := .wCheck }, events := [.now s.nowMs] } := by
  simp only [sequencer, quiet_eng, h, phaseWTime, readClock_eng, nowMs_quiet, he]; rfl

theorem sequencer_sEnter (h : s.eng.seq = .sEnter) :
    sequencer op arg s =
      { s with
        eng := { s.eng with mode := .critical, acc := 0, idx := 0, seq := .sHi }
        events := [.critEnter] } := by
  simp only [sequencer, quiet_eng, h]; rfl

theorem sequencer_sHi (h : s.eng.seq = .sHi) :
    sequencer op arg s =
      { s with
        eng := { s.eng with seq := .sHiHold }
        pins := { s.pins with sck := true }
        events := [.w true] } := by
  simp only [sequencer, quiet_eng, h]; rfl

theorem sequencer_sHiHold (h : s.eng.seq = .sHiHold) :
    sequencer op arg s = { s with eng := { s.eng with seq := .sSample }, events := [.us 1] } := by
  simp only [sequencer, quiet_eng, h]; rfl

theorem sequencer_sSample (h : s.eng.seq = .sSample) :
    sequencer op arg s =
      { s with
        eng := { s.eng with acc := orSample s.eng.acc s.eng.idx s.dataLevel, seq := .sLo }
        events := [.r s.dataLevel] } := by
  simp only [sequencer, quiet_eng, h]; rfl

theorem sequencer_sLo (h : s.eng.seq = .sLo) :
    sequencer op arg s =
      { s with
        eng := { s.eng with seq := .sLoHold }
        pins := { s.pins with sck := false }
        events := [.w false] } := by
  simp only [sequencer, quiet_eng, h]; rfl

theorem sequencer_sLoHold_last (h : s.eng.seq = .sLoHold) (hi : s.eng.idx = 23) :
    sequencer op arg s =
      { s with eng := { s.eng with pcnt := pcntOf s.eng.sg, seq := .gHi }, events := [.us 1] } := by
  simp only [sequencer, quiet_eng, h]; exact (if_pos hi).trans rfl

theorem sequencer_sLoHold_more (h : s.eng.seq = .sLoHold) (hi : s.eng.idx ≠ 23) :
    sequencer op arg s =
      { s with eng := { s.eng with idx := s.eng.idx + 1, seq := .sHi }, events := [.us 1] } := by
  simp only [sequencer, quiet_eng, h]; exact (if_neg hi).trans rfl

theorem sequencer_gHi (h : s.eng.seq = .gHi) :
    sequencer op arg s =
      { s with
        eng := { s.eng with seq := .gHiHold }
        pins := { s.pins with sck := true }
        events := [.w true] } := by
  simp only [sequencer, quiet_eng, h]; rfl

theorem sequencer_gHiHold (h : s.eng.seq = .gHiHold) :
    sequencer op arg s = { s with eng := { s.eng with seq := .gLo }, events := [.us 1] } := by
  simp only [sequencer, quiet_eng, h]; rfl

theorem sequencer_gLo (h : s.eng.seq = .gLo) :
    sequencer op arg s =
      { s with
        eng := { s.eng with seq := .gLoHold }
        pins := { s.pins with sck := false }
        events := [.w false] } := by
  simp only [sequencer, quiet_eng, h]; rfl

theorem sequencer_gLoHold_last (h : s.eng.seq = .gLoHold) (hp : s.eng.pcnt = 1) :
    sequencer op arg s = { s with eng := { s.eng with seq := .sExit }, events := [.us 1] } := by
  simp only [sequencer, quiet_eng, h]; exact (if_pos hp).trans rfl

theorem sequencer_gLoHold_more (h : s.eng.seq = .gLoHold) (hp : s.eng.pcnt ≠ 1) :
    sequencer op arg s =
      { s with eng := { s.eng with pcnt := s.eng.pcnt - 1, seq := .gHi }, events := [.us 1] } := by
  simp only [sequencer, quiet_eng, h]; exact (if_neg hp).trans rfl

theorem sequencer_sExit (h : s.eng.seq = .sExit) :
    sequencer op arg s =
      { s with
        eng := { s.eng with mode := .normal, seq := if op = Opcode.read then .xDecode else .xCommit }
        events := [.critExit] } := by
  simp only [sequencer, quiet_eng, h]; rfl

theorem sequencer_xDecode (h : s.eng.seq = .xDecode) :
    sequencer op arg s =
      { s with
        eng := { s.eng with rspStatus := .ok, rspData := decodeSample s.eng.acc, seq := .resp }
        events := [.rsp .ok (decodeSample s.eng.acc)] } := by
  simp only [sequencer, quiet_eng, h]; rfl

theorem sequencer_xCommit (h : s.eng.seq = .xCommit) :
    sequencer op arg s =
      { s with
        eng := { s.eng with gain := some s.eng.sg, rspStatus := .ok, rspData := 0, seq := .resp }
        events := [.rsp .ok 0] } := by
  simp only [sequencer, quiet_eng, h]; rfl

theorem sequencer_rCheck (h : s.eng.seq = .rCheck) :
    sequencer op arg s =
      { s with
        eng := { s.eng with rspStatus := .ok, rspData := readyDatum s.dataLevel, seq := .resp }
        events := [.r s.dataLevel, .rsp .ok (readyDatum s.dataLevel)] } := by
  simp only [sequencer, quiet_eng, h]; rfl

theorem sequencer_resp_taken (h : s.eng.seq = .resp) (hr : s.inputs.rspReady = true) :
    sequencer op arg s = { s with eng := { s.eng with seq := .idle }, events := [] } := by
  simp only [sequencer, quiet_eng, h, phaseResp, quiet_inputs, hr]; rfl

theorem sequencer_resp_waits (h : s.eng.seq = .resp) (hr : s.inputs.rspReady = false) :
    sequencer op arg s = { s with events := [] } := by
  simp only [sequencer, quiet_eng, h, phaseResp, quiet_inputs, hr]; rfl

end

/-! The operand forms. -/

theorem gainOperand_eq_none {arg : Word} : gainOperand arg = none ↔ ¬ arg.toNat < 3 := by
  unfold gainOperand
  split_ifs with h0 h1 h2
  · simp [h0]
  · simp [h1]
  · simp [h2]
  · simp only [true_iff]
    intro h
    have h0' : arg.toNat ≠ 0 := fun e => h0 (BitVec.eq_of_toNat_eq (by simpa using e))
    have h1' : arg.toNat ≠ 1 := fun e => h1 (BitVec.eq_of_toNat_eq (by simpa using e))
    have h2' : arg.toNat ≠ 2 := fun e => h2 (BitVec.eq_of_toNat_eq (by simpa using e))
    omega

theorem validGain_iff {arg : Word} : validGain arg = true ↔ arg.toNat < 3 := by
  simp [validGain, BitVec.ult]

theorem powerLevel_init (arg : Word) : powerLevel Opcode.init arg = false := by simp [powerLevel]

theorem powerLevel_setPower (down : Bool) : powerLevel Opcode.setPower (downArg down) = down := by
  cases down <;> decide

theorem expired_iff {now t0 tmo : Word} : expired now t0 tmo = true ↔ tmo.toNat ≤ (now - t0).toNat := by
  simp only [expired, BitVec.ule, decide_eq_true_eq]

/-! Acceptance. -/

section
variable (s : State)

theorem acceptInit_valid {arg : Word} {g : Selection} (h : gainOperand arg = some g) :
    acceptInit arg s =
      { s with
        eng := { s.eng with op := Opcode.init, arg := arg, gain := some g, sg := g, seq := .iCfgData }
        events := [] } := by
  simp only [acceptInit, h]; rfl

theorem acceptInit_invalid {arg : Word} (h : gainOperand arg = none) :
    acceptInit arg s =
      { s with
        eng := { s.eng with op := Opcode.init, arg := arg, rspStatus := .invalidArgument, rspData := 0, seq := .resp }
        events := [.rsp .invalidArgument 0] } := by
  simp only [acceptInit, h]; rfl

theorem acceptSetGain_valid {arg : Word} {g : Selection} (h : gainOperand arg = some g) :
    acceptSetGain arg s =
      { s with
        eng := { s.eng with op := Opcode.setGain, arg := arg, sg := g, tmo := 200, seq := .wStart }
        events := [] } := by
  simp only [acceptSetGain, h]; rfl

theorem acceptSetGain_invalid {arg : Word} (h : gainOperand arg = none) :
    acceptSetGain arg s =
      { s with
        eng := { s.eng with op := Opcode.setGain, arg := arg, rspStatus := .invalidArgument, rspData := 0, seq := .resp }
        events := [.rsp .invalidArgument 0] } := by
  simp only [acceptSetGain, h]; rfl

theorem acceptSetPower_eq (down : Bool) :
    acceptSetPower down s =
      { s with eng := { s.eng with op := Opcode.setPower, arg := downArg down, seq := .pSet }, events := [] } := rfl

theorem acceptIsReady_eq :
    acceptIsReady s = { s with eng := { s.eng with op := Opcode.isReady, arg := 0, seq := .rCheck }, events := [] } := rfl

theorem acceptWaitReady_eq (t : Word) :
    acceptWaitReady t s =
      { s with eng := { s.eng with op := Opcode.waitReady, arg := t, tmo := t, seq := .wStart }, events := [] } := rfl

theorem acceptRead_eq (g : Selection) :
    acceptRead g s =
      { s with eng := { s.eng with op := Opcode.read, arg := 0, sg := g, seq := .sEnter }, events := [] } := rfl

theorem acceptReserved_eq (w : CommandWord) :
    acceptReserved w s =
      { s with
        eng := { s.eng with
          op := opField w, arg := argField w, rspStatus := .invalidArgument, rspData := 0, seq := .resp }
        events := [.rsp .invalidArgument 0] } := rfl

end

/-! Which meaning a step runs. -/

/-- Outside IDLE every command's meaning is the transition table with its own word. -/
theorem exec_busy (i : Instr) {s : State} (h : s.eng.seq ≠ .idle) :
    exec i s = .next (sequencer i.opcode i.operand s) := by
  cases i <;> simp [exec, execInit, execSetPower, execSetGain, execIsReady, execWaitReady, execRead, h, Instr.opcode,
    Instr.operand]

theorem step_reset {s : State} (h : s.inputs.rst = true) : step s = .next s.applyReset.advance := by
  simp [step, h]

theorem step_busy {s : State} (hr : s.inputs.rst = false) (h : s.eng.seq ≠ .idle) :
    step s = .next (sequencer s.eng.op s.eng.arg s).advance := by
  simp [step, hr, engineStep, h, advanceOutcome]

theorem step_idle {s : State} (hr : s.inputs.rst = false) (h : s.eng.seq = .idle) (hv : s.inputs.cmdValid = false) :
    step s = .next ({ s with events := [] } : State).advance := by
  simp [step, hr, engineStep, hv, advanceOutcome, sequencer_idle _ _ h]

theorem step_accept {s : State} {i : Instr} (hr : s.inputs.rst = false) (h : s.eng.seq = .idle)
    (hv : s.inputs.cmdValid = true) (hd : decode s.inputs.cmdWord = .ok i) : step s = advanceOutcome (exec i s) := by
  simp [step, hr, engineStep, h, hv, hd]

theorem step_reserved {s : State} {e : Reserved} (hr : s.inputs.rst = false) (h : s.eng.seq = .idle)
    (hv : s.inputs.cmdValid = true) (hd : decode s.inputs.cmdWord = .error e) :
    step s = .next (acceptReserved s.inputs.cmdWord s).advance := by
  simp [step, hr, engineStep, h, hv, hd, advanceOutcome]

/-! What a step reads. -/

/-- Of the inputs the table reads the configuration result and DOUT, and in RESP rsp_ready; of the device nothing
(R180, R218). -/
theorem sequencer_congr (op : BitVec 8) (arg : Word) (s : State) (i' : Inputs) (d : Device) (h1 : i'.cfg = s.inputs.cfg)
    (h2 : i'.dout = s.inputs.dout) (h3 : s.eng.seq = .resp → i'.rspReady = s.inputs.rspReady) :
    sequencer op arg { s with inputs := i', dev := d } = { sequencer op arg s with inputs := i', dev := d } := by
  have hl : ({ s with inputs := i', dev := d } : State).dataLevel = s.dataLevel := by simp [State.dataLevel, h2]
  cases h : s.eng.seq with
  | idle => rw [sequencer_idle _ _ h, sequencer_idle _ _ (by exact h)]
  | iCfgData =>
    cases hc : s.inputs.cfg with
    | ok => rw [sequencer_iCfgData_ok _ _ h hc, sequencer_iCfgData_ok _ _ (by exact h) (by simpa [h1] using hc)]
    | fail e => rw [sequencer_iCfgData_fail _ _ h hc, sequencer_iCfgData_fail (e := e) _ _ (by exact h) (by simpa [h1] using hc)]
  | iCfgClk =>
    cases hc : s.inputs.cfg with
    | ok => rw [sequencer_iCfgClk_ok _ _ h hc, sequencer_iCfgClk_ok _ _ (by exact h) (by simpa [h1] using hc)]
    | fail e => rw [sequencer_iCfgClk_fail _ _ h hc, sequencer_iCfgClk_fail (e := e) _ _ (by exact h) (by simpa [h1] using hc)]
  | pSet => rw [sequencer_pSet _ _ h, sequencer_pSet _ _ (by exact h)]
  | pHold =>
    by_cases ho : op = Opcode.init
    · subst ho; rw [sequencer_pHold_init _ h, sequencer_pHold_init _ (by exact h)]
    · rw [sequencer_pHold_power _ _ h ho, sequencer_pHold_power _ _ (by exact h) ho]
  | wStart => rw [sequencer_wStart _ _ h, sequencer_wStart _ _ (by exact h)]; rfl
  | wCheck =>
    cases hb : s.dataLevel with
    | true => rw [sequencer_wCheck_high _ _ h hb, sequencer_wCheck_high _ _ (by exact h) (by rw [hl, hb])]
    | false =>
      by_cases ho : op = Opcode.waitReady
      · subst ho; rw [sequencer_wCheck_ready _ h hb, sequencer_wCheck_ready _ (by exact h) (by rw [hl, hb])]
      · rw [sequencer_wCheck_shift _ _ h hb ho, sequencer_wCheck_shift _ _ (by exact h) (by rw [hl, hb]) ho]
  | wYield => rw [sequencer_wYield _ _ h, sequencer_wYield _ _ (by exact h)]
  | wTime =>
    cases he : expired s.nowMs s.eng.t0 s.eng.tmo with
    | true => rw [sequencer_wTime_expired _ _ h he, sequencer_wTime_expired _ _ (by exact h) (by exact he)]; rfl
    | false => rw [sequencer_wTime_again _ _ h he, sequencer_wTime_again _ _ (by exact h) (by exact he)]; rfl
  | sEnter => rw [sequencer_sEnter _ _ h, sequencer_sEnter _ _ (by exact h)]
  | sHi => rw [sequencer_sHi _ _ h, sequencer_sHi _ _ (by exact h)]
  | sHiHold => rw [sequencer_sHiHold _ _ h, sequencer_sHiHold _ _ (by exact h)]
  | sSample => rw [sequencer_sSample _ _ h, sequencer_sSample _ _ (by exact h), hl]
  | sLo => rw [sequencer_sLo _ _ h, sequencer_sLo _ _ (by exact h)]
  | sLoHold =>
    by_cases hi : s.eng.idx = 23
    · rw [sequencer_sLoHold_last _ _ h hi, sequencer_sLoHold_last _ _ (by exact h) (by exact hi)]
    · rw [sequencer_sLoHold_more _ _ h hi, sequencer_sLoHold_more _ _ (by exact h) (by exact hi)]
  | gHi => rw [sequencer_gHi _ _ h, sequencer_gHi _ _ (by exact h)]
  | gHiHold => rw [sequencer_gHiHold _ _ h, sequencer_gHiHold _ _ (by exact h)]
  | gLo => rw [sequencer_gLo _ _ h, sequencer_gLo _ _ (by exact h)]
  | gLoHold =>
    by_cases hp : s.eng.pcnt = 1
    · rw [sequencer_gLoHold_last _ _ h hp, sequencer_gLoHold_last _ _ (by exact h) (by exact hp)]
    · rw [sequencer_gLoHold_more _ _ h hp, sequencer_gLoHold_more _ _ (by exact h) (by exact hp)]
  | sExit => rw [sequencer_sExit _ _ h, sequencer_sExit _ _ (by exact h)]
  | xDecode => rw [sequencer_xDecode _ _ h, sequencer_xDecode _ _ (by exact h)]
  | xCommit => rw [sequencer_xCommit _ _ h, sequencer_xCommit _ _ (by exact h)]
  | rCheck => rw [sequencer_rCheck _ _ h, sequencer_rCheck _ _ (by exact h), hl]
  | resp =>
    cases hr : s.inputs.rspReady with
    | true => rw [sequencer_resp_taken _ _ h hr, sequencer_resp_taken _ _ (by exact h) (by rw [← hr]; exact h3 h)]
    | false => rw [sequencer_resp_waits _ _ h hr, sequencer_resp_waits _ _ (by exact h) (by rw [← hr]; exact h3 h)]

/-- Of the inputs the environment's move reads the overrun only. -/
theorem State.advance_congr (s : State) (i' : Inputs) (h : i'.overrunNs = s.inputs.overrunNs) :
    ({ s with inputs := i' } : State).advance = s.advance := by
  have hm : ({ s with inputs := i' } : State).nextMove = s.nextMove := rfl
  have : ∀ m, ({ s with inputs := i' } : State).deviceAfter m = s.deviceAfter m := by
    intro m
    unfold State.deviceAfter State.strayEdge State.keepsFrame State.keepsBounds State.midFrame State.stepNs State.clkWire
    dsimp only
    rw [h]
  unfold State.advance
  rw [hm]; dsimp only; rw [this]

end Sys2Proof.Machine
end

