-- ==== Sys2Proof/Laws/Inversion.lean ====
section
/-! SUPPORT. The inversion lemma: everything one step of the engine can do, one constructor for each row of the transition table
and each acceptance. Invariants and frames are case analyses over it. -/

namespace Sys2Proof.Machine

open Sys2Proof

/-- The rows of the transition table (R182 to R204) and the waiting steps (R180). -/
inductive TableMove (op : BitVec 8) (arg : Word) (s : State) : State → Prop
  | idle (h : s.eng.seq = .idle) : TableMove op arg s { s with events := [] }
  | cfgData (h : s.eng.seq = .iCfgData) (hc : s.inputs.cfg = .ok) : TableMove op arg s
      { s with
        eng := { s.eng with seq := .iCfgClk }, pins := { s.pins with dirData := .input }
        events := [.cfg .data .input .ok] }
  | cfgDataFail (h : s.eng.seq = .iCfgData) (e : FailureCode) (hc : s.inputs.cfg = .fail e) : TableMove op arg s
      { s with
        eng := { s.eng with rspStatus := .pinFailure, rspData := e.val, seq := .resp }
        pins := { s.pins with dirData := Config.freeDir s.draws }
        events := [.cfg .data .input (.fail e), .rsp .pinFailure e.val] }
  | cfgClk (h : s.eng.seq = .iCfgClk) (hc : s.inputs.cfg = .ok) : TableMove op arg s
      { s with
        eng := { s.eng with seq := .pSet }, pins := { s.pins with dirClk := .output }
        events := [.cfg .clk .output .ok] }
  | cfgClkFail (h : s.eng.seq = .iCfgClk) (e : FailureCode) (hc : s.inputs.cfg = .fail e) : TableMove op arg s
      { s with
        eng := { s.eng with rspStatus := .pinFailure, rspData := e.val, seq := .resp }
        pins := { s.pins with dirClk := Config.freeDir s.draws }
        events := [.cfg .clk .output (.fail e), .rsp .pinFailure e.val] }
  | pSet (h : s.eng.seq = .pSet) : TableMove op arg s
      { s with
        eng := { s.eng with seq := .pHold }, pins := { s.pins with sck := powerLevel op arg }
        events := [.w (powerLevel op arg)] }
  | pHoldInit (h : s.eng.seq = .pHold) (ho : op = Opcode.init) : TableMove op arg s
      { s with eng := { s.eng with tmo := Config.tGainWaitMs, seq := .wStart }, events := [.tick] }
  | pHoldPower (h : s.eng.seq = .pHold) (ho : op ≠ Opcode.init) : TableMove op arg s
      { s with eng := { s.eng with rspStatus := .ok, rspData := 0, seq := .resp }, events := [.tick, .rsp .ok 0] }
  | wStart (h : s.eng.seq = .wStart) : TableMove op arg s
      { s with eng := { s.eng with t0 := s.nowMs, seq := .wCheck }, events := [.now s.nowMs] }
  | wCheckHigh (h : s.eng.seq = .wCheck) (hb : s.dataLevel = true) : TableMove op arg s
      { s with eng := { s.eng with seq := .wYield }, events := [.r true] }
  | wCheckReady (h : s.eng.seq = .wCheck) (hb : s.dataLevel = false) (ho : op = Opcode.waitReady) : TableMove op arg s
      { s with
        eng := { s.eng with rspStatus := .ok, rspData := 0, seq := .resp }, events := [.r false, .rsp .ok 0] }
  | wCheckShift (h : s.eng.seq = .wCheck) (hb : s.dataLevel = false) (ho : op ≠ Opcode.waitReady) : TableMove op arg s
      { s with eng := { s.eng with seq := .sEnter }, events := [.r false] }
  | wYield (h : s.eng.seq = .wYield) : TableMove op arg s
      { s with eng := { s.eng with seq := .wTime }, events := [.tick] }
  | wTimeExpired (h : s.eng.seq = .wTime) (he : expired s.nowMs s.eng.t0 s.eng.tmo = true) : TableMove op arg s
      { s with
        eng := { s.eng with rspStatus := .timeout, rspData := 0, seq := .resp }
        events := [.now s.nowMs, .rsp .timeout 0] }
  | wTimeAgain (h : s.eng.seq = .wTime) (he : expired s.nowMs s.eng.t0 s.eng.tmo = false) : TableMove op arg s
      { s with eng := { s.eng with seq := .wCheck }, events := [.now s.nowMs] }
  | sEnter (h : s.eng.seq = .sEnter) : TableMove op arg s
      { s with eng := { s.eng with mode := .critical, acc := 0, idx := 0, seq := .sHi }, events := [.critEnter] }
  | sHi (h : s.eng.seq = .sHi) : TableMove op arg s
      { s with eng := { s.eng with seq := .sHiHold }, pins := { s.pins with sck := true }, events := [.w true] }
  | sHiHold (h : s.eng.seq = .sHiHold) : TableMove op arg s
      { s with eng := { s.eng with seq := .sSample }, events := [.us 1] }
  | sSample (h : s.eng.seq = .sSample) : TableMove op arg s
      { s with
        eng := { s.eng with acc := orSample s.eng.acc s.eng.idx s.dataLevel, seq := .sLo }
        events := [.r s.dataLevel] }
  | sLo (h : s.eng.seq = .sLo) : TableMove op arg s
      { s with eng := { s.eng with seq := .sLoHold }, pins := { s.pins with sck := false }, events := [.w false] }
  | sLoHoldLast (h : s.eng.seq = .sLoHold) (hi : s.eng.idx = 23) : TableMove op arg s
      { s with eng := { s.eng with pcnt := pcntOf s.eng.sg, seq := .gHi }, events := [.us 1] }
  | sLoHoldMore (h : s.eng.seq = .sLoHold) (hi : s.eng.idx ≠ 23) : TableMove op arg s
      { s with eng := { s.eng with idx := s.eng.idx + 1, seq := .sHi }, events := [.us 1] }
  | gHi (h : s.eng.seq = .gHi) : TableMove op arg s
      { s with eng := { s.eng with seq := .gHiHold }, pins := { s.pins with sck := true }, events := [.w true] }
  | gHiHold (h : s.eng.seq = .gHiHold) : TableMove op arg s
      { s with eng := { s.eng with seq := .gLo }, events := [.us 1] }
  | gLo (h : s.eng.seq = .gLo) : TableMove op arg s
      { s with eng := { s.eng with seq := .gLoHold }, pins := { s.pins with sck := false }, events := [.w false] }
  | gLoHoldLast (h : s.eng.seq = .gLoHold) (hp : s.eng.pcnt = 1) : TableMove op arg s
      { s with eng := { s.eng with seq := .sExit }, events := [.us 1] }
  | gLoHoldMore (h : s.eng.seq = .gLoHold) (hp : s.eng.pcnt ≠ 1) : TableMove op arg s
      { s with eng := { s.eng with pcnt := s.eng.pcnt - 1, seq := .gHi }, events := [.us 1] }
  | sExitRead (h : s.eng.seq = .sExit) (ho : op = Opcode.read) : TableMove op arg s
      { s with eng := { s.eng with mode := .normal, seq := .xDecode }, events := [.critExit] }
  | sExitGain (h : s.eng.seq = .sExit) (ho : op ≠ Opcode.read) : TableMove op arg s
      { s with eng := { s.eng with mode := .normal, seq := .xCommit }, events := [.critExit] }
  | xDecode (h : s.eng.seq = .xDecode) : TableMove op arg s
      { s with
        eng := { s.eng with rspStatus := .ok, rspData := decodeSample s.eng.acc, seq := .resp }
        events := [.rsp .ok (decodeSample s.eng.acc)] }
  | xCommit (h : s.eng.seq = .xCommit) : TableMove op arg s
      { s with
        eng := { s.eng with gain := some s.eng.sg, rspStatus := .ok, rspData := 0, seq := .resp }
        events := [.rsp .ok 0] }
  | rCheck (h : s.eng.seq = .rCheck) : TableMove op arg s
      { s with
        eng := { s.eng with rspStatus := .ok, rspData := readyDatum s.dataLevel, seq := .resp }
        events := [.r s.dataLevel, .rsp .ok (readyDatum s.dataLevel)] }
  | respTaken (h : s.eng.seq = .resp) (hr : s.inputs.rspReady = true) : TableMove op arg s
      { s with eng := { s.eng with seq := .idle }, events := [] }
  | respWaits (h : s.eng.seq = .resp) (hr : s.inputs.rspReady = false) : TableMove op arg s { s with events := [] }

theorem sequencer_tableMove (op : BitVec 8) (arg : Word) (s : State) : TableMove op arg s (sequencer op arg s) := by
  cases h : s.eng.seq with
  | idle => rw [sequencer_idle _ _ h]; exact .idle h
  | iCfgData =>
    cases hc : s.inputs.cfg with
    | ok => rw [sequencer_iCfgData_ok _ _ h hc]; exact .cfgData h hc
    | fail e => rw [sequencer_iCfgData_fail _ _ h hc]; exact .cfgDataFail h e hc
  | iCfgClk =>
    cases hc : s.inputs.cfg with
    | ok => rw [sequencer_iCfgClk_ok _ _ h hc]; exact .cfgClk h hc
    | fail e => rw [sequencer_iCfgClk_fail _ _ h hc]; exact .cfgClkFail h e hc
  | pSet => rw [sequencer_pSet _ _ h]; exact .pSet h
  | pHold =>
    by_cases ho : op = Opcode.init
    · subst ho; rw [sequencer_pHold_init _ h]; exact .pHoldInit h rfl
    · rw [sequencer_pHold_power _ _ h ho]; exact .pHoldPower h ho
  | wStart => rw [sequencer_wStart _ _ h]; exact .wStart h
  | wCheck =>
    cases hb : s.dataLevel with
    | true => rw [sequencer_wCheck_high _ _ h hb]; exact .wCheckHigh h hb
    | false =>
      by_cases ho : op = Opcode.waitReady
      · subst ho; rw [sequencer_wCheck_ready _ h hb]; exact .wCheckReady h hb rfl
      · rw [sequencer_wCheck_shift _ _ h hb ho]; exact .wCheckShift h hb ho
  | wYield => rw [sequencer_wYield _ _ h]; exact .wYield h
  | wTime =>
    cases he : expired s.nowMs s.eng.t0 s.eng.tmo with
    | true => rw [sequencer_wTime_expired _ _ h he]; exact .wTimeExpired h he
    | false => rw [sequencer_wTime_again _ _ h he]; exact .wTimeAgain h he
  | sEnter => rw [sequencer_sEnter _ _ h]; exact .sEnter h
  | sHi => rw [sequencer_sHi _ _ h]; exact .sHi h
  | sHiHold => rw [sequencer_sHiHold _ _ h]; exact .sHiHold h
  | sSample => rw [sequencer_sSample _ _ h]; exact .sSample h
  | sLo => rw [sequencer_sLo _ _ h]; exact .sLo h
  | sLoHold =>
    by_cases hi : s.eng.idx = 23
    · rw [sequencer_sLoHold_last _ _ h hi]; exact .sLoHoldLast h hi
    · rw [sequencer_sLoHold_more _ _ h hi]; exact .sLoHoldMore h hi
  | gHi => rw [sequencer_gHi _ _ h]; exact .gHi h
  | gHiHold => rw [sequencer_gHiHold _ _ h]; exact .gHiHold h
  | gLo => rw [sequencer_gLo _ _ h]; exact .gLo h
  | gLoHold =>
    by_cases hp : s.eng.pcnt = 1
    · rw [sequencer_gLoHold_last _ _ h hp]; exact .gLoHoldLast h hp
    · rw [sequencer_gLoHold_more _ _ h hp]; exact .gLoHoldMore h hp
  | sExit =>
    rw [sequencer_sExit _ _ h]
    by_cases ho : op = Opcode.read
    · rw [if_pos ho]; exact .sExitRead h ho
    · rw [if_neg ho]; exact .sExitGain h ho
  | xDecode => rw [sequencer_xDecode _ _ h]; exact .xDecode h
  | xCommit => rw [sequencer_xCommit _ _ h]; exact .xCommit h
  | rCheck => rw [sequencer_rCheck _ _ h]; exact .rCheck h
  | resp =>
    cases hr : s.inputs.rspReady with
    | true => rw [sequencer_resp_taken _ _ h hr]; exact .respTaken h hr
    | false => rw [sequencer_resp_waits _ _ h hr]; exact .respWaits h hr

/-- The acceptances of R181, in IDLE. -/
inductive AcceptMove (s : State) : Instr → State → Prop
  | init (arg : Word) (g : Selection) (hg : gainOperand arg = some g) : AcceptMove s (.init arg)
      { s with
        eng := { s.eng with op := Opcode.init, arg := arg, gain := some g, sg := g, seq := .iCfgData }, events := [] }
  | initInvalid (arg : Word) (hg : gainOperand arg = none) : AcceptMove s (.init arg)
      { s with
        eng := { s.eng with op := Opcode.init, arg := arg, rspStatus := .invalidArgument, rspData := 0, seq := .resp }
        events := [.rsp .invalidArgument 0] }
  | setPower (down : Bool) : AcceptMove s (.setPower down)
      { s with eng := { s.eng with op := Opcode.setPower, arg := downArg down, seq := .pSet }, events := [] }
  | setGain (arg : Word) (g : Selection) (hg : gainOperand arg = some g) : AcceptMove s (.setGain arg)
      { s with
        eng := { s.eng with op := Opcode.setGain, arg := arg, sg := g, tmo := 200, seq := .wStart }, events := [] }
  | setGainInvalid (arg : Word) (hg : gainOperand arg = none) : AcceptMove s (.setGain arg)
      { s with
        eng := { s.eng with
          op := Opcode.setGain, arg := arg, rspStatus := .invalidArgument, rspData := 0, seq := .resp }
        events := [.rsp .invalidArgument 0] }
  | isReady : AcceptMove s .isReady
      { s with eng := { s.eng with op := Opcode.isReady, arg := 0, seq := .rCheck }, events := [] }
  | waitReady (t : Word) : AcceptMove s (.waitReady t)
      { s with eng := { s.eng with op := Opcode.waitReady, arg := t, tmo := t, seq := .wStart }, events := [] }
  | read (g : Selection) (hg : s.eng.gain = some g) : AcceptMove s .read
      { s with eng := { s.eng with op := Opcode.read, arg := 0, sg := g, seq := .sEnter }, events := [] }

/-- In IDLE a command is accepted, but READ without a gain. -/
theorem exec_idle (i : Instr) {s : State} (h : s.eng.seq = .idle) :
    (i = .read ∧ s.eng.gain = none ∧ exec i s = .fault .readBeforeGain) ∨
      ∃ u, exec i s = .next u ∧ AcceptMove s i u := by
  cases i with
  | init arg =>
    right
    cases hg : gainOperand arg with
    | none => exact ⟨_, by simp only [exec, execInit, if_pos h, acceptInit_invalid s hg], .initInvalid arg hg⟩
    | some g => exact ⟨_, by simp only [exec, execInit, if_pos h, acceptInit_valid s hg], .init arg g hg⟩
  | setPower down => exact .inr ⟨_, by simp only [exec, execSetPower, if_pos h, acceptSetPower_eq], .setPower down⟩
  | setGain arg =>
    right
    cases hg : gainOperand arg with
    | none => exact ⟨_, by simp only [exec, execSetGain, if_pos h, acceptSetGain_invalid s hg], .setGainInvalid arg hg⟩
    | some g => exact ⟨_, by simp only [exec, execSetGain, if_pos h, acceptSetGain_valid s hg], .setGain arg g hg⟩
  | isReady => exact .inr ⟨_, by simp only [exec, execIsReady, if_pos h, acceptIsReady_eq], .isReady⟩
  | waitReady t => exact .inr ⟨_, by simp only [exec, execWaitReady, if_pos h, acceptWaitReady_eq], .waitReady t⟩
  | read =>
    cases hg : s.eng.gain with
    | none => exact .inl ⟨rfl, rfl, by simp only [exec, execRead, if_pos h, hg]⟩
    | some g => exact .inr ⟨_, by simp only [exec, execRead, if_pos h, hg, acceptRead_eq], .read g hg⟩

/-- One step, rst apart: the state before the environment moves is a row of the table, an acceptance, or the answer to
a reserved word. -/
inductive EngineMove (s : State) : State → Prop
  | table (u : State) (h : ¬ (s.eng.seq = .idle ∧ s.inputs.cmdValid = true)) (m : TableMove s.eng.op s.eng.arg s u) :
      EngineMove s u
  | accept (i : Instr) (u : State) (h : s.eng.seq = .idle) (hv : s.inputs.cmdValid = true)
      (hd : decode s.inputs.cmdWord = .ok i) (m : AcceptMove s i u) : EngineMove s u
  | reserved (h : s.eng.seq = .idle) (hv : s.inputs.cmdValid = true) (e : Reserved)
      (hd : decode s.inputs.cmdWord = .error e) : EngineMove s
        { s with
          eng := { s.eng with
            op := opField s.inputs.cmdWord, arg := argField s.inputs.cmdWord,
            rspStatus := .invalidArgument, rspData := 0, seq := .resp }
          events := [.rsp .invalidArgument 0] }

/-- The inversion of the engine's step. -/
theorem engineStep_inv {s u : State} (h : engineStep s = .next u) : EngineMove s u := by
  unfold engineStep at h
  split at h
  · rename_i hc
    cases hd : decode s.inputs.cmdWord with
    | error e =>
      rw [hd] at h
      obtain rfl := Host.Outcome.next.inj h
      exact .reserved hc.1 hc.2 e hd
    | ok i =>
      rw [hd] at h
      dsimp only at h
      rcases exec_idle i hc.1 with ⟨-, -, hx⟩ | ⟨u', hx, m⟩
      · rw [hx] at h; cases h
      · rw [hx] at h
        obtain rfl := Host.Outcome.next.inj h
        exact .accept i u' hc.1 hc.2 hd m
  · rename_i hc
    obtain rfl := Host.Outcome.next.inj h
    exact .table _ hc (sequencer_tableMove _ _ s)

/-- The inversion of a step. -/
theorem step_inv {s t : State} (h : step s = .next t) :
    (s.inputs.rst = true ∧ t = s.applyReset.advance) ∨
      (s.inputs.rst = false ∧ ∃ u, EngineMove s u ∧ t = u.advance) := by
  unfold step at h
  split at h
  · rename_i hr
    exact .inl ⟨hr, (Host.Outcome.next.inj h).symm⟩
  · rename_i hr
    refine .inr ⟨by simpa using hr, ?_⟩
    cases he : engineStep s with
    | next u =>
      rw [he] at h
      exact ⟨u, engineStep_inv he, (Host.Outcome.next.inj h).symm⟩
    | fault f => rw [he] at h; cases h
    | refused f => rw [he] at h; cases h

/-- No engine move writes the environment's part of the state. -/
theorem EngineMove.environment {s u : State} (m : EngineMove s u) :
    u.inputs = s.inputs ∧ u.clockMs = s.clockMs ∧ u.dev = s.dev ∧ u.script = s.script ∧ u.draws = s.draws := by
  cases m with
  | table _ _ m => cases m <;> exact ⟨rfl, rfl, rfl, rfl, rfl⟩
  | accept _ _ _ _ _ m => cases m <;> exact ⟨rfl, rfl, rfl, rfl, rfl⟩
  | reserved => exact ⟨rfl, rfl, rfl, rfl, rfl⟩

end Sys2Proof.Machine
end

