-- ==== Sys2Proof/Laws/Run.lean ====
section
/-! SUPPORT. Runs and traces: composition, premises along a run, and the two pulses as runs. -/

namespace Sys2Proof.Machine

open Sys2Proof

/-! Composition. -/

theorem runTrace_succ {s t : State} (h : step s = .next t) (k : Nat) :
    runTrace (k + 1) s = (runTrace k t).map fun p => (p.1, t.events ++ p.2) := by
  simp [runTrace, h]

theorem runTrace_one {s t : State} (h : step s = .next t) : runTrace 1 s = some (t, t.events) := by
  simp [runTrace, h]

theorem runTrace_succ_some {s t u : State} {tr : List Event} {k : Nat} (h : step s = .next t)
    (hr : runTrace k t = some (u, tr)) : runTrace (k + 1) s = some (u, t.events ++ tr) := by
  simp [runTrace_succ h, hr]

/-- Two runs in a row. -/
theorem runTrace_add {j k : Nat} {s t u : State} {tr tr' : List Event} (hs : runTrace j s = some (t, tr))
    (ht : runTrace k t = some (u, tr')) : runTrace (j + k) s = some (u, tr ++ tr') := by
  induction j generalizing s tr with
  | zero =>
    simp only [runTrace, Option.some.injEq, Prod.mk.injEq] at hs
    obtain ⟨rfl, rfl⟩ := hs
    simpa using ht
  | succ j ih =>
    cases hst : step s with
    | fault f => simp [runTrace, hst] at hs
    | refused f => simp [runTrace, hst] at hs
    | next v =>
      rw [runTrace_succ hst, Option.map_eq_some_iff] at hs
      obtain ⟨⟨w, tw⟩, hw, he⟩ := hs
      simp only [Prod.mk.injEq] at he
      obtain ⟨rfl, rfl⟩ := he
      rw [Nat.add_right_comm, runTrace_succ_some hst (ih hw)]
      simp

/-- A run of j + k steps is a run of j and a run of k. -/
theorem runTrace_split {j k : Nat} {s u : State} {tr : List Event} (h : runTrace (j + k) s = some (u, tr)) :
    ∃ t tr₁ tr₂, runTrace j s = some (t, tr₁) ∧ runTrace k t = some (u, tr₂) ∧ tr = tr₁ ++ tr₂ := by
  induction j generalizing s tr with
  | zero => exact ⟨s, [], tr, rfl, by simpa using h, rfl⟩
  | succ j ih =>
    rw [Nat.add_right_comm] at h
    cases hst : step s with
    | fault f => simp [runTrace, hst] at h
    | refused f => simp [runTrace, hst] at h
    | next v =>
      rw [runTrace_succ hst, Option.map_eq_some_iff] at h
      obtain ⟨⟨w, tw⟩, hw, he⟩ := h
      simp only [Prod.mk.injEq] at he
      obtain ⟨rfl, rfl⟩ := he
      obtain ⟨t, a, b, ha, hb, rfl⟩ := ih hw
      exact ⟨t, _, b, runTrace_succ_some hst ha, hb, by simp⟩

theorem Along.head {P : State → Prop} {k : Nat} {s : State} (h : Along P (k + 1) s) : P s := h.1

theorem Along.tail {P : State → Prop} {k : Nat} {s t : State} (h : Along P (k + 1) s) (hs : step s = .next t) :
    Along P k t := h.2 t hs

theorem Along.mono {P Q : State → Prop} (hPQ : ∀ s, P s → Q s) {k : Nat} {s : State} (h : Along P k s) :
    Along Q k s := by
  induction k generalizing s with
  | zero => trivial
  | succ k ih => exact ⟨hPQ s h.1, fun t ht => ih (h.2 t ht)⟩

theorem Along.take {P : State → Prop} {j k : Nat} (hjk : j ≤ k) {s : State} (h : Along P k s) : Along P j s := by
  induction j generalizing s k with
  | zero => trivial
  | succ j ih =>
    obtain ⟨k, rfl⟩ : ∃ n, k = n + 1 := ⟨k - 1, by omega⟩
    exact ⟨h.1, fun t ht => ih (by omega) (h.2 t ht)⟩

/-- What holds along a run holds along its rest. -/
theorem Along.after {P : State → Prop} {j k : Nat} {s t : State} {tr : List Event} (h : Along P (j + k) s)
    (hr : runTrace j s = some (t, tr)) : Along P k t := by
  induction j generalizing s tr with
  | zero =>
    simp only [runTrace, Option.some.injEq, Prod.mk.injEq] at hr
    obtain ⟨rfl, -⟩ := hr
    simpa using h
  | succ j ih =>
    rw [Nat.add_right_comm] at h
    cases hst : step s with
    | fault f => simp [runTrace, hst] at hr
    | refused f => simp [runTrace, hst] at hr
    | next v =>
      rw [runTrace_succ hst, Option.map_eq_some_iff] at hr
      obtain ⟨⟨w, tw⟩, hw, he⟩ := hr
      simp only [Prod.mk.injEq] at he
      obtain ⟨rfl, -⟩ := he
      exact ih (h.2 v hst) hw

/-- What every step keeps holds along a run. -/
theorem Along.of_kept {P J : State → Prop} (hJ : ∀ s t, J s → step s = .next t → J t) (hP : ∀ s, J s → P s) (k : Nat)
    {s : State} (hs : J s) : Along P k s := by
  induction k generalizing s with
  | zero => trivial
  | succ k ih => exact ⟨hP s hs, fun t ht => ih (hJ s t hs ht)⟩

/-! The environment's part of a step. -/

/-- A step takes the head of the script, so a script that holds `k` moves decides the inputs of the next `k` states. -/
theorem step_script {s t : State} (h : step s = .next t) :
    t.inputs = s.nextMove.inputs ∧ t.script = s.script.tail ∧ t.clockMs = s.clockMs + s.nextMove.msPassed ∧
      t.draws = s.draws + 1 := by
  have adv : ∀ u : State, u.inputs = s.inputs → u.script = s.script → u.draws = s.draws → u.clockMs = s.clockMs →
      (u.advance.inputs = s.nextMove.inputs ∧ u.advance.script = s.script.tail ∧
        u.advance.clockMs = s.clockMs + s.nextMove.msPassed ∧ u.advance.draws = s.draws + 1) := by
    intro u _ hsc hd hc
    have hm : u.nextMove = s.nextMove := by unfold State.nextMove; rw [hsc, hd]
    simp [hm, hsc, hd, hc]
  rcases step_inv h with ⟨-, rfl⟩ | ⟨-, u, m, rfl⟩
  · exact adv _ rfl rfl rfl rfl
  · obtain ⟨hi, hc, -, hs, hd⟩ := m.environment
    exact adv u hi hs hd hc

/-- A premise on the inputs and the move alone holds along a run whose script meets it. -/
theorem Along.of_script {Q : Inputs → Prop} {k : Nat} {s : State} (h0 : Q s.inputs)
    (hs : ∀ m ∈ s.script, Q m.inputs) (hk : k ≤ s.script.length + 1) : Along (fun u => Q u.inputs) k s := by
  induction k generalizing s with
  | zero => trivial
  | succ k ih =>
    refine ⟨h0, fun t ht => ?_⟩
    obtain ⟨hi, hsc, -, -⟩ := step_script ht
    cases hl : s.script with
    | nil =>
      obtain rfl : k = 0 := by simp [hl] at hk; omega
      trivial
    | cons m rest =>
      have hm : s.nextMove = m := by simp [State.nextMove, hl]
      refine ih ?_ ?_ ?_
      · rw [hi, hm]; exact hs m (by simp [hl])
      · rw [hsc, hl]; intro m' hm'; exact hs m' (by simp [hl]; exact Or.inr hm')
      · rw [hsc, hl]; simp [hl] at hk ⊢; omega

/-! One busy step of a run. -/

/-- A step in a busy phase, given what the transition table does there: the engine, the pins and the events are the
table's, the rest is the environment's. -/
theorem busy_step {s u : State} (hr : s.inputs.rst = false) (hs : s.eng.seq ≠ .idle)
    (hu : sequencer s.eng.op s.eng.arg s = u) :
    ∃ t, step s = .next t ∧ t.eng = u.eng ∧ t.pins = u.pins ∧ t.events = u.events ∧ t.dev = u.deviceAfter u.nextMove :=
  ⟨u.advance, by rw [step_busy hr hs, hu], rfl, rfl, rfl, rfl⟩

/-- A data pulse as a run of five steps (R191 to R195). -/
theorem dataPulse_run {s : State} (h : s.eng.seq = .sHi) (hr : Along NoReset 5 s) :
    ∃ t b, runTrace 5 s = some (t, dataPulse b) ∧ t.pins = { s.pins with sck := false } ∧
      t.eng = if s.eng.idx = 23 then
          { s.eng with acc := orSample s.eng.acc s.eng.idx b, pcnt := pcntOf s.eng.sg, seq := .gHi }
        else
          { s.eng with acc := orSample s.eng.acc s.eng.idx b, idx := s.eng.idx + 1, seq := .sHi } := by
  obtain ⟨s1, e1, g1, p1, v1, -⟩ := busy_step hr.head (by simp [h]) (sequencer_sHi _ _ h)
  have r1 := hr.tail e1
  obtain ⟨s2, e2, g2, p2, v2, -⟩ := busy_step r1.head (by simp [g1]) (sequencer_sHiHold _ _ (by simp [g1]))
  have r2 := r1.tail e2
  obtain ⟨s3, e3, g3, p3, v3, -⟩ := busy_step r2.head (by simp [g2]) (sequencer_sSample _ _ (by simp [g2]))
  have r3 := r2.tail e3
  obtain ⟨s4, e4, g4, p4, v4, -⟩ := busy_step r3.head (by simp [g3]) (sequencer_sLo _ _ (by simp [g3]))
  have r4 := r3.tail e4
  have run4 : ∀ {t}, step s4 = .next t → runTrace 5 s = some (t, s1.events ++ (s2.events ++ (s3.events ++ (s4.events ++
      t.events)))) := fun e =>
    runTrace_succ_some e1 (runTrace_succ_some e2 (runTrace_succ_some e3 (runTrace_succ_some e4 (runTrace_one e))))
  by_cases hi : s.eng.idx = 23
  · obtain ⟨s5, e5, g5, p5, v5, -⟩ := busy_step r4.head (by simp [g4])
      (sequencer_sLoHold_last _ _ (by simp [g4]) (by simp [g4, g3, g2, g1, hi]))
    exact ⟨s5, s2.dataLevel, by rw [run4 e5, v1, v2, v3, v4, v5]; rfl, by simp [p5, p4, p3, p2, p1],
      by simp [g5, g4, g3, g2, g1, hi]⟩
  · obtain ⟨s5, e5, g5, p5, v5, -⟩ := busy_step r4.head (by simp [g4])
      (sequencer_sLoHold_more _ _ (by simp [g4]) (by simpa [g4, g3, g2, g1] using hi))
    exact ⟨s5, s2.dataLevel, by rw [run4 e5, v1, v2, v3, v4, v5]; rfl, by simp [p5, p4, p3, p2, p1], by
      rw [if_neg hi]; simp [g5, g4, g3, g2, g1]⟩

/-- A gain pulse as a run of four steps (R196 to R199). -/
theorem gainPulse_run {s : State} (h : s.eng.seq = .gHi) (hr : Along NoReset 4 s) :
    ∃ t, runTrace 4 s = some (t, gainPulse) ∧ t.pins = { s.pins with sck := false } ∧
      t.eng = if s.eng.pcnt = 1 then { s.eng with seq := .sExit }
        else { s.eng with pcnt := s.eng.pcnt - 1, seq := .gHi } := by
  obtain ⟨s1, e1, g1, p1, v1, -⟩ := busy_step hr.head (by simp [h]) (sequencer_gHi _ _ h)
  have r1 := hr.tail e1
  obtain ⟨s2, e2, g2, p2, v2, -⟩ := busy_step r1.head (by simp [g1]) (sequencer_gHiHold _ _ (by simp [g1]))
  have r2 := r1.tail e2
  obtain ⟨s3, e3, g3, p3, v3, -⟩ := busy_step r2.head (by simp [g2]) (sequencer_gLo _ _ (by simp [g2]))
  have r3 := r2.tail e3
  have run3 : ∀ {t}, step s3 = .next t → runTrace 4 s = some (t, s1.events ++ (s2.events ++ (s3.events ++ t.events))) :=
    fun e => runTrace_succ_some e1 (runTrace_succ_some e2 (runTrace_succ_some e3 (runTrace_one e)))
  by_cases hp : s.eng.pcnt = 1
  · obtain ⟨s4, e4, g4, p4, v4, -⟩ := busy_step r3.head (by simp [g3])
      (sequencer_gLoHold_last _ _ (by simp [g3]) (by simp [g3, g2, g1, hp]))
    exact ⟨s4, by rw [run3 e4, v1, v2, v3, v4]; rfl, by simp [p4, p3, p2, p1], by simp [g4, g3, g2, g1, hp]⟩
  · obtain ⟨s4, e4, g4, p4, v4, -⟩ := busy_step r3.head (by simp [g3])
      (sequencer_gLoHold_more _ _ (by simp [g3]) (by simpa [g3, g2, g1] using hp))
    exact ⟨s4, by rw [run3 e4, v1, v2, v3, v4]; rfl, by simp [p4, p3, p2, p1], by
      rw [if_neg hp]; simp [g4, g3, g2, g1]⟩

/-! All data pulses and all gain pulses of a frame. -/

/-- The sample goes into bit 23 - IDX and no other (R64). -/
theorem orSample_getLsbD (acc : Raw) (idx : BitVec 5) (b : Bool) (hi : idx.toNat ≤ 23) (j : Nat) :
    (orSample acc idx b).getLsbD j = (acc.getLsbD j || (b && decide (j = 23 - idx.toNat))) := by
  unfold orSample
  simp only [BitVec.getLsbD_or, BitVec.getLsbD_shiftLeft, BitVec.getLsbD_setWidth, BitVec.getLsbD_ofBool]
  congr 1
  rcases Nat.lt_trichotomy j (23 - idx.toNat) with h | h | h
  · simp [h]; intro _; omega
  · subst h; simp; cases b <;> simp; omega
  · have : ¬ j < 23 - idx.toNat := by omega
    have h2 : ¬ (j - (23 - idx.toNat) = 0) := by omega
    have h3 : ¬ j = 23 - idx.toNat := by omega
    simp [this, h2, h3]

/-- The data pulses from IDX on, as one run: the samples taken, and ACC bit by bit. -/
theorem dataPulses_run (n : Nat) : ∀ {s : State}, s.eng.seq = .sHi → s.eng.idx.toNat + n = 23 →
    Along NoReset (5 * (n + 1)) s →
    ∃ (t : State) (bits : List Bool), bits.length = n + 1 ∧
      runTrace (5 * (n + 1)) s = some (t, bits.flatMap dataPulse) ∧ t.pins = { s.pins with sck := false } ∧
      ∃ acc, t.eng = { s.eng with acc := acc, idx := 23, pcnt := pcntOf s.eng.sg, seq := .gHi } ∧
        ∀ j, acc.getLsbD j = (s.eng.acc.getLsbD j || ((decide (j ≤ n)) && bits.getD (n - j) false)) := by
  induction n with
  | zero =>
    intro s h hi hr
    obtain ⟨t, b, rt, hp, he⟩ := dataPulse_run h hr
    have hidx : s.eng.idx = 23 := BitVec.eq_of_toNat_eq (by simpa using hi)
    rw [if_pos hidx] at he
    refine ⟨t, [b], rfl, by simpa using rt, hp, orSample s.eng.acc s.eng.idx b, by rw [he, ← hidx], ?_⟩
    intro j
    rw [orSample_getLsbD _ _ _ (by omega), hidx]
    cases j <;> simp
  | succ n ih =>
    intro s h hi hr
    have e : 5 * (n+1+1) = 5 + 5*(n+1) := by omega
    rw [e] at hr ⊢
    obtain ⟨t, b, rt, hp, he⟩ := dataPulse_run h (hr.take (by omega))
    have hne : s.eng.idx ≠ 23 := by intro hx; rw [hx] at hi; simp at hi
    have hadd : (s.eng.idx + 1).toNat = s.eng.idx.toNat + 1 := by rw [BitVec.toNat_add]; simp; omega
    rw [if_neg hne] at he
    obtain ⟨t', bits, hl, rt', hp', acc, he', hacc⟩ := ih (s := t) (by simp [he]) (by simp only [he]; omega) (hr.after rt)
    refine ⟨t', b :: bits, by simp [hl], by rw [runTrace_add rt rt']; simp, by rw [hp', hp], acc, by rw [he', he], ?_⟩
    intro j
    rw [hacc, he]
    dsimp only
    rw [orSample_getLsbD _ _ _ (by omega)]
    have : 23 - s.eng.idx.toNat = n + 1 := by omega
    rw [this, Bool.or_assoc]
    congr 1
    rcases Nat.lt_trichotomy j (n+1) with h | h | h
    · have h1 : j ≤ n := by omega
      have h2 : n + 1 - j = (n - j) + 1 := by omega
      have h3 : j ≤ n + 1 := by omega
      simp [h1, h2, h3]; omega
    · subst h; simp
    · have h1 : ¬ j ≤ n := by omega
      have h2 : ¬ j ≤ n + 1 := by omega
      have h3 : ¬ j = n + 1 := by omega
      simp [h1, h2, h3]

theorem pcntOf_toNat (g : Selection) : (pcntOf g).toNat = (codeOf g).toNat + 1 := by cases g <;> decide

/-- The gain pulses from PCNT on, as one run. -/
theorem gainPulses_run (n : Nat) : ∀ {s : State}, s.eng.seq = .gHi → s.eng.pcnt.toNat = n + 1 →
    Along NoReset (4 * (n + 1)) s →
    ∃ t, runTrace (4 * (n + 1)) s = some (t, (List.replicate (n + 1) gainPulse).flatten) ∧
      t.pins = { s.pins with sck := false } ∧ t.eng = { s.eng with pcnt := 1, seq := .sExit } := by
  induction n with
  | zero =>
    intro s h hi hr
    obtain ⟨t, rt, hp, he⟩ := gainPulse_run h hr
    have hidx : s.eng.pcnt = 1 := BitVec.eq_of_toNat_eq (by simpa using hi)
    rw [if_pos hidx] at he
    exact ⟨t, by simpa using rt, hp, by rw [he, ← hidx]⟩
  | succ n ih =>
    intro s h hi hr
    have e : 4 * (n+1+1) = 4 + 4*(n+1) := by omega
    rw [e] at hr ⊢
    obtain ⟨t, rt, hp, he⟩ := gainPulse_run h (hr.take (by omega))
    have hne : s.eng.pcnt ≠ 1 := by intro hx; rw [hx] at hi; simp at hi
    have hsub : (s.eng.pcnt - 1).toNat = s.eng.pcnt.toNat - 1 := by rw [BitVec.toNat_sub]; simp; have := s.eng.pcnt.isLt; omega
    rw [if_neg hne] at he
    obtain ⟨t', rt', hp', he'⟩ := ih (s := t) (by simp [he]) (by simp only [he]; omega) (hr.after rt)
    exact ⟨t', by rw [runTrace_add rt rt']; simp [List.replicate_succ], by rw [hp', hp], by rw [he', he]⟩

end Sys2Proof.Machine
end

