-- ==== Sys2Proof/Laws/Device.lean ====
section
/-! SUPPORT. What the device's operations keep, and a frame seen from a device that counts it, step by step. -/

namespace Sys2Proof.Machine

open Sys2Proof

/-! Each operation, field by field. -/

@[simp] theorem Device.observe_clk (n : Nat) (l : Bool) (ns : Nat) (d : Device) : (d.observe n l ns).clk = l := by
  unfold Device.observe Device.powerDown
  dsimp only
  split <;> rfl

@[simp] theorem Device.move_clk (n : Nat) (m : DeviceMove) (d : Device) : (d.move n m).clk = d.clk := by
  unfold Device.move Device.complete Device.withdraw Device.ownReset Device.disturb Device.unknown
  (repeat' split) <;> rfl

@[simp] theorem Device.move_pwr (n : Nat) (m : DeviceMove) (d : Device) : (d.move n m).pwr = d.pwr := by
  unfold Device.move Device.complete Device.withdraw Device.ownReset Device.disturb Device.unknown
  (repeat' split) <;> rfl

/-- With no conversion partly shifted out an undisturbed device keeps its selection when it makes a move other than a
reset, and stays undisturbed. -/
theorem Device.move_sel {d : Device} (hd : d.disturbed = false) (hm : d.partShifted = false) (n : Nat)
    {m : DeviceMove} (hr : m ≠ .reset) :
    (d.move n m).sel = d.sel ∧ (d.move n m).disturbed = false ∧ (d.move n m).partShifted = false := by
  unfold Device.move Device.complete Device.withdraw
  cases m <;> (repeat' split) <;> simp_all [Device.partShifted]

/-- A conversion finished then is the one given, made under the selection in force. -/
theorem Device.move_complete {d : Device} (hp : d.pwr = .on) (hd : d.disturbed = false) (hm : d.partShifted = false)
    (n : Nat) (raw : Raw) : (d.move n (.complete raw)).result = raw ∧ (d.move n (.complete raw)).resultSel = d.sel := by
  simp [Device.move, Device.complete, hp, hd, hm]

/-- Without an edge only the time the level lasts changes, or the device enters power-down. -/
theorem Device.observe_same (n ns : Nat) (d : Device) : d.observe n d.clk ns =
    if d.pwr = .on ∧ d.clk = true ∧ 1000 * Config.tPdMinUs ≤ d.levelNs + ns then
      { d with levelNs := d.levelNs + ns }.powerDown
    else { d with levelNs := d.levelNs + ns } := by
  have e : d.edge n d.clk = d := by cases h : d.clk <;> simp [Device.edge, h]
  unfold Device.observe
  rw [e]
  simp [Device.levelTime]

@[simp] theorem Device.stray_clk (n : Nat) (d : Device) : (d.stray n).clk = d.clk := by
  unfold Device.stray Device.uncounted; (repeat' split) <;> rfl

@[simp] theorem Device.stray_pwr (n : Nat) (d : Device) : (d.stray n).pwr = d.pwr := by
  unfold Device.stray Device.uncounted; (repeat' split) <;> rfl

@[simp] theorem Device.stray_disturbed (n : Nat) (d : Device) : (d.stray n).disturbed = d.disturbed := by
  unfold Device.stray Device.uncounted; (repeat' split) <;> rfl

@[simp] theorem Device.stray_pulses (n : Nat) (d : Device) : (d.stray n).pulses = none := by
  unfold Device.stray Device.uncounted; (repeat' split) <;> first | assumption | rfl

/-! A device in power-down sees its clock high and has no pending conversion (R213, R214): every operation keeps it. -/

/-- The last field of the invariant, as a property of the device. -/
abbrev Device.LowPowerOk (d : Device) : Prop := d.pwr = .down → d.clk = true ∧ d.pending = false

/-- An edge: what becomes of the power state. -/
theorem Device.edge_pwr (n : Nat) (l : Bool) (d : Device) :
    (d.edge n l).pwr = if d.clk = true ∧ l = false then .on else d.pwr := by
  unfold Device.edge Device.risingEdge Device.fallingEdge Device.pulse Device.uncounted Device.powerUp Device.unknown
  cases hc : d.clk <;> cases l <;> cases hp : d.pwr <;> simp <;> ((repeat' split) <;> simp_all)

/-- In power-down a rising edge, or none, leaves nothing pending. -/
theorem Device.edge_pending_down {n : Nat} {l : Bool} {d : Device} (h : (d.edge n l).pwr = .down)
    (hp : d.pending = false) : (d.edge n l).pending = false := by
  rw [Device.edge_pwr] at h
  unfold Device.edge Device.risingEdge Device.stray Device.uncounted Device.unknown
  cases hc : d.clk <;> cases l <;> simp_all
  (repeat' split) <;> simp_all

theorem Device.observe_lowPowerOk (n : Nat) (l : Bool) (ns : Nat) (d : Device) (h : d.LowPowerOk) :
    (d.observe n l ns).LowPowerOk := by
  intro hd
  have hp := Device.edge_pwr n l d
  have key : (d.edge n l).pwr = .down → l = true ∧ (d.edge n l).pending = false := by
    intro he
    have hdn : d.pwr = .down := by
      rw [hp] at he; split at he
      · cases he
      · exact he
    refine ⟨?_, Device.edge_pending_down he (h hdn).2⟩
    have := (h hdn).1
    cases l with
    | true => rfl
    | false => rw [hp] at he; simp [this] at he
  unfold Device.observe at hd ⊢
  dsimp only at hd ⊢
  split at hd
  · rename_i hc
    rw [if_pos hc]
    exact ⟨hc.2.1, rfl⟩
  · rename_i hc
    rw [if_neg hc]
    exact key hd

theorem Device.move_lowPowerOk (n : Nat) (m : DeviceMove) (d : Device) (h : d.LowPowerOk) : (d.move n m).LowPowerOk := by
  unfold Device.LowPowerOk at *
  unfold Device.move Device.complete Device.withdraw Device.ownReset Device.disturb Device.unknown
  cases m <;> (repeat' split) <;> simp_all

theorem Device.disturb_lowPowerOk (n : Nat) (d : Device) (h : d.LowPowerOk) : (d.disturb n).LowPowerOk := by
  intro hd
  exact ⟨(h hd).1, by show (d.pwr == .on && _) = false; rw [show d.pwr = .down from hd]; rfl⟩

theorem Device.stray_lowPowerOk (n : Nat) (d : Device) (h : d.LowPowerOk) : (d.stray n).LowPowerOk := by
  unfold Device.LowPowerOk at *
  unfold Device.stray Device.uncounted Device.unknown
  (repeat' split) <;> simp_all

theorem Device.engineReset_lowPowerOk (n : Nat) (q : Phase) (d : Device) (h : d.LowPowerOk) :
    (d.engineReset n q).LowPowerOk := by
  unfold Device.engineReset
  split
  · exact Device.disturb_lowPowerOk n d h
  · exact h

/-! The device's count (R66): every operation keeps what the invariant says of it. -/

/-- The two fields of the invariant on the device's count, as a property of the device. -/
structure Device.CountOk (d : Device) : Prop where
  counts : ∀ c, d.pulses = some c → c ≤ 27 ∧ (d.pending = true ↔ c < 25) ∧ d.pwr = .on ∧
    d.disturbed = false ∧ d.strayed = false
  unready : d.pulses = none → d.disturbed = false → d.strayed = false → d.pending = false

theorem Device.disturb_countOk (n : Nat) (d : Device) : (d.disturb n).CountOk :=
  ⟨fun _ h => (nomatch h), fun _ h => (nomatch h)⟩

theorem Device.uncounted_countOk (n : Nat) (d : Device) (h : d.CountOk) (hp : d.pulses = none) :
    (d.uncounted n).CountOk := by
  unfold Device.uncounted
  split
  · rename_i hs
    exact ⟨fun c hc => absurd (hp.symm.trans hc) (by simp), fun _ _ h' => absurd (hs.symm.trans h') (by simp)⟩
  · exact ⟨fun c hc => absurd (hp.symm.trans hc) (by simp), fun _ a b => h.unready hp a b⟩

theorem Device.stray_countOk (n : Nat) (d : Device) (h : d.CountOk) : (d.stray n).CountOk := by
  unfold Device.stray
  split
  · exact Device.uncounted_countOk n d h ‹_›
  · exact ⟨fun _ h => (nomatch h), fun _ _ h => (nomatch h)⟩

theorem Device.edge_countOk (n : Nat) (l : Bool) (d : Device) (h : d.CountOk) (hl : d.LowPowerOk) :
    (d.edge n l).CountOk := by
  have h1 := h.counts
  have h2 := h.unready
  unfold Device.edge
  split
  · unfold Device.risingEdge
    split
    · exact h
    · rename_i c hc
      split
      · exact h
      · split
        · exact Device.stray_countOk n d h
        · refine ⟨fun _ h => (nomatch h), fun _ _ _ => ?_⟩
          have := (h1 c hc).2.1
          show d.pending = false
          cases hp : d.pending
          · rfl
          · have := this.1 hp; omega
  · unfold Device.fallingEdge
    split
    · rename_i hp
      exact ⟨fun _ h => (nomatch h), fun _ _ _ => (hl hp).2⟩
    · rename_i hp
      split
      · rename_i hd
        refine ⟨fun c hc => ?_, fun _ h _ => ?_⟩
        · have := (h1 c hc).2.2.2; simp_all
        · have : d.disturbed = false := h; simp_all
      · split
        · unfold Device.pulse
          split
          · rename_i hc
            exact Device.uncounted_countOk n d h hc
          · rename_i c hc
            obtain ⟨a1, a2, a3, a4⟩ := h1 c hc
            split
            · refine ⟨fun c' hc' => ?_, fun h => (nomatch h)⟩
              obtain rfl : c + 1 = c' := Option.some.inj hc'
              refine ⟨by omega, ⟨fun _ => by omega, fun _ => a2.2 (by omega)⟩, a3, a4⟩
            · split
              · rename_i g hg
                refine ⟨fun c' hc' => ?_, fun h => (nomatch h)⟩
                obtain rfl : c + 1 = c' := Option.some.inj hc'
                have : c + 1 ≤ 27 := by
                  unfold selectionOfPulses at hg
                  split at hg; · omega
                  split at hg; · omega
                  split at hg; · omega
                  cases hg
                exact ⟨this, ⟨fun h => (nomatch h), fun _ => by omega⟩, a3, a4⟩
              · rename_i hg
                refine ⟨fun _ h => (nomatch h), fun _ _ _ => ?_⟩
                show d.pending = false
                cases hp : d.pending
                · rfl
                · have := a2.1 hp
                  have : c = 24 := by omega
                  subst this
                  simp [selectionOfPulses] at hg
        · exact Device.stray_countOk n d h
  · exact h

theorem Device.observe_countOk (n : Nat) (l : Bool) (ns : Nat) (d : Device) (h : d.CountOk) (hl : d.LowPowerOk) :
    (d.observe n l ns).CountOk := by
  obtain ⟨h1, h2⟩ := Device.edge_countOk n l d h hl
  unfold Device.observe
  dsimp only
  split
  · exact ⟨fun _ h => (nomatch h), fun _ _ _ => rfl⟩
  · exact ⟨h1, h2⟩

theorem Device.move_countOk (n : Nat) (m : DeviceMove) (d : Device) (h : d.CountOk) : (d.move n m).CountOk := by
  obtain ⟨h1, h2⟩ := h
  unfold Device.move
  split
  · exact ⟨h1, h2⟩
  · split
    · rename_i hp
      unfold Device.complete
      split
      · exact ⟨fun _ h => (nomatch h), fun _ h => (nomatch h)⟩
      · rename_i hd
        refine ⟨fun c hc => ?_, fun h => (nomatch h)⟩
        obtain rfl : 0 = c := Option.some.inj hc
        exact ⟨by omega, ⟨fun _ => by omega, fun _ => rfl⟩, hp, by simp_all, rfl⟩
    · exact ⟨h1, h2⟩
  · split
    · unfold Device.withdraw
      split
      · exact ⟨fun _ h => (nomatch h), fun _ h => (nomatch h)⟩
      · exact ⟨fun _ h => (nomatch h), fun _ _ _ => rfl⟩
    · exact ⟨h1, h2⟩
  · unfold Device.ownReset
    split
    · exact Device.disturb_countOk n d
    · rename_i hd
      cases hp : (d.unknown n).pending
      · exact ⟨fun _ h => (nomatch h), fun _ _ _ => hp⟩
      · have hon : d.pwr = .on := by
          cases hw : d.pwr
          · rfl
          · simp [Device.unknown, hw] at hp
        refine ⟨fun c hc => ?_, fun h => (nomatch h)⟩
        obtain rfl : 0 = c := Option.some.inj hc
        exact ⟨by omega, ⟨fun _ => by omega, fun _ => hp⟩, hon, by simp_all [Device.unknown], rfl⟩

theorem Device.engineReset_countOk (n : Nat) (q : Phase) (d : Device) (h : d.CountOk) : (d.engineReset n q).CountOk := by
  unfold Device.engineReset
  split
  · exact Device.disturb_countOk n d
  · exact h

/-! A disturbed device stays so while it is on (U4). -/

/-- Disturbed, and in no count. -/
abbrev Device.Lost (d : Device) : Prop := d.disturbed = true ∧ d.pulses = none

theorem Device.disturb_lost (n : Nat) (d : Device) : (d.disturb n).Lost := ⟨rfl, rfl⟩

theorem Device.stray_lost {n : Nat} {d : Device} (h : d.Lost) : (d.stray n).Lost := ⟨by simp [h.1], by simp⟩

theorem Device.observe_lost {n : Nat} {l : Bool} {ns : Nat} {d : Device} (h : d.Lost) (hp : d.pwr = .on) :
    (d.observe n l ns).Lost := by
  obtain ⟨h1, h2⟩ := h
  have : (d.edge n l).Lost := by
    unfold Device.edge Device.risingEdge Device.fallingEdge Device.unknown
    (repeat' split) <;> first | exact ⟨h1, h2⟩ | simp_all
  unfold Device.observe
  dsimp only
  split
  · exact ⟨this.1, rfl⟩
  · exact this

theorem Device.move_lost {n : Nat} {m : DeviceMove} {d : Device} (h : d.Lost) : (d.move n m).Lost := by
  obtain ⟨h1, h2⟩ := h
  unfold Device.move Device.complete Device.withdraw Device.ownReset Device.disturb
  (repeat' split) <;> first | exact ⟨h1, h2⟩ | exact ⟨rfl, rfl⟩ | exact ⟨h1, rfl⟩ | simp_all

theorem Device.engineReset_lost {n : Nat} {q : Phase} {d : Device} (h : d.Lost) : (d.engineReset n q).Lost := by
  unfold Device.engineReset
  split
  · exact Device.disturb_lost n d
  · exact h

/-! While a count runs the device keeps the conversion it holds. -/

/-- A device in a count holds the conversion `r` and is undisturbed. -/
abbrev Device.Holds (r : Raw) (d : Device) : Prop := d.pulses ≠ none → d.result = r ∧ d.disturbed = false

theorem Device.observe_holds {r : Raw} {n : Nat} {l : Bool} {ns : Nat} {d : Device} (h : d.Holds r) :
    (d.observe n l ns).Holds r := by
  have : (d.edge n l).Holds r := by
    unfold Device.edge Device.risingEdge Device.fallingEdge Device.pulse Device.uncounted Device.unknown Device.powerUp
    (repeat' split) <;> first | exact h | exact fun hn => absurd rfl hn | exact fun hn => absurd (Device.stray_pulses _ _) hn | simp_all [Device.Holds]
  unfold Device.observe
  dsimp only
  split
  · exact fun hn => absurd rfl hn
  · exact this

theorem Device.engineReset_holds {r : Raw} {n : Nat} {q : Phase} {d : Device} (h : d.Holds r) :
    (d.engineReset n q).Holds r := by
  unfold Device.engineReset
  split
  · exact fun hn => absurd rfl hn
  · exact h

/-! The device after a step. -/

@[simp] theorem State.deviceAfter_clk (s : State) (m : EnvMove) : (s.deviceAfter m).clk = s.clkWire := by
  unfold State.deviceAfter
  dsimp only
  (repeat' split) <;> simp [Device.disturb, Device.unknown]

/-- What seeing the wire, losing the count, being disturbed and the device's own move all keep, a step keeps. -/
theorem State.deviceAfter_of {P : Device → Prop} (s : State) (m : EnvMove)
    (ho : P (s.dev.observe s.draws s.clkWire (s.stepNs + m.gapNs))) (hs : ∀ d, P d → P (d.stray s.draws))
    (hd : ∀ d, P d → P (d.disturb s.draws)) (hm : ∀ d, P d → P (d.move s.draws m.device)) : P (s.deviceAfter m) := by
  unfold State.deviceAfter
  dsimp only
  apply hm
  split
  · split
    · exact hs _ ho
    · exact ho
  · exact hd _ ho

theorem State.deviceAfter_lowPowerOk (s : State) (m : EnvMove) (h : s.dev.LowPowerOk) :
    (s.deviceAfter m).LowPowerOk :=
  State.deviceAfter_of s m (Device.observe_lowPowerOk _ _ _ _ h) (Device.stray_lowPowerOk _)
    (Device.disturb_lowPowerOk _) (Device.move_lowPowerOk _ _)

theorem State.deviceAfter_countOk (s : State) (m : EnvMove) (h : s.dev.CountOk) (hl : s.dev.LowPowerOk) :
    (s.deviceAfter m).CountOk :=
  State.deviceAfter_of s m (Device.observe_countOk _ _ _ _ h hl) (Device.stray_countOk _)
    (fun d _ => Device.disturb_countOk _ d) (Device.move_countOk _ _)

theorem State.deviceAfter_lost (s : State) (m : EnvMove) (h : s.dev.Lost) (hp : s.dev.pwr = .on) :
    (s.deviceAfter m).Lost :=
  State.deviceAfter_of s m (Device.observe_lost h hp) (fun _ => Device.stray_lost)
    (fun d _ => Device.disturb_lost _ d) (fun _ => Device.move_lost)

/-- While the document gives its state, and without an edge outside a SHIFT, the device has seen the wire and made its
move, and no more. -/
theorem State.deviceAfter_kept {s : State} {m : EnvMove} (h : s.keepsFrame m = true) (hs : s.strayEdge = false) :
    s.deviceAfter m = (s.dev.observe s.draws s.clkWire (s.stepNs + m.gapNs)).move s.draws m.device := by
  unfold State.deviceAfter
  dsimp only
  rw [if_pos h, hs]
  rfl

/-- With a bound broken, or ready in the middle of a frame, the device is disturbed, whatever it has seen and whatever
its move. -/
theorem State.deviceAfter_broken {s : State} {m : EnvMove} (h : s.keepsFrame m = false) : (s.deviceAfter m).Lost := by
  unfold State.deviceAfter
  dsimp only
  rw [if_neg (by simp [h])]
  exact Device.move_lost (Device.disturb_lost _ _)

/-- An edge disturbs no device: it may lose its count. -/
theorem Device.observe_undisturbed {n : Nat} {l : Bool} {ns : Nat} {d : Device} (h : d.disturbed = false) :
    (d.observe n l ns).disturbed = false := by
  have : (d.edge n l).disturbed = false := by
    unfold Device.edge Device.risingEdge Device.fallingEdge Device.powerUp Device.pulse Device.uncounted Device.unknown
    (repeat' split) <;> simp_all
  unfold Device.observe Device.powerDown
  dsimp only
  split <;> exact this

/-- A step after which no frame is under way keeps it, with MODE NORMAL and no hold in the step. -/
theorem State.keepsFrame_normal {s : State} {m : EnvMove} (h : s.eng.mode = .normal) (he : ∀ n, .us n ∉ s.events)
    (hf : s.midFrame = false) : s.keepsFrame m = true := by
  unfold State.keepsFrame State.keepsBounds
  rw [h, hf, Bool.and_eq_true, Bool.and_eq_true, List.all_eq_true]
  refine ⟨⟨fun e hm => ?_, rfl⟩, rfl⟩
  cases e <;> first | rfl | exact absurd hm (he _)

/-- So does a step whose holds are within their bounds, with no delay after it and a quiet device. -/
theorem State.keepsFrame_hold {s : State} {m : EnvMove} (hg : m.gapNs = 0) (hd : m.device = .quiet)
    (he : ∀ n, .us n ∈ s.events → Config.keepsHold n (1000 * n + s.inputs.overrunNs) = true) :
    s.keepsFrame m = true := by
  unfold State.keepsFrame State.keepsBounds
  rw [hg, hd, Bool.and_eq_true, Bool.and_eq_true, List.all_eq_true]
  refine ⟨⟨fun e hm => ?_, by simp⟩, by simp [DeviceMove.signalsReady]⟩
  cases e <;> first | rfl | exact he _ hm

/-! A frame that the device counts. -/

/-- The device is on and undisturbed, has counted `p` pulses of a frame since it signalled ready, has seen its clock at
`lvl` for `ns`, and holds the result `r`; from the 25th pulse on it has the selection of the count. -/
structure Device.Counting (r : Raw) (p : Nat) (lvl : Bool) (ns : Nat) (d : Device) : Prop where
  pulses : d.pulses = some p
  on : d.pwr = .on
  undisturbed : d.disturbed = false
  result : d.result = r
  clk : d.clk = lvl
  level : d.levelNs = ns
  sel : 25 ≤ p → selectionOfPulses p = some d.sel

/-- The wire keeps its level, if high for less than the power-down time in all. -/
theorem Device.Counting.hold {r : Raw} {p ns : Nat} {lvl : Bool} {d : Device} (h : d.Counting r p lvl ns) (n us : Nat)
    (hh : lvl = true → ns + us < 60000) : (d.observe n lvl us).Counting r p lvl (ns + us) := by
  obtain ⟨h1, h2, h3, h4, h5, h6, h7⟩ := h
  have e := Device.observe_same n us d
  rw [h5, h6, if_neg (by simp [Config.tPdMinUs]; intro _ hl; exact hh hl)] at e
  rw [e]
  exact ⟨h1, h2, h3, h4, rfl, rfl, h7⟩

/-- A rising edge, the first of a frame or one after a low hold that kept its bounds. -/
theorem Device.Counting.rise {r : Raw} {p ns : Nat} {d : Device} (h : d.Counting r p false ns) (n us : Nat)
    (hh : us < 60000) (hk : p = 0 ∨ Config.keepsHold 1 ns = true) : (d.observe n true us).Counting r p true us := by
  obtain ⟨h1, h2, h3, h4, h5, h6, h7⟩ := h
  have e : d.edge n true = d := by
    simp only [Device.edge, h5, Device.risingEdge, Config.tLowUs, h6, h1]
    rcases hk with rfl | hk
    · simp
    · simp [hk]
  have e2 : d.observe n true us = { d with clk := true, levelNs := us } := by
    unfold Device.observe
    rw [e]
    simp only [Device.levelTime, h5, Bool.false_eq_true, if_false]
    rw [if_neg (by simp [Config.tPdMinUs]; intro _; omega)]
  rw [e2]
  exact ⟨h1, h2, h3, h4, rfl, rfl, h7⟩

/-- A falling edge after a high hold that kept its bounds: one pulse more. -/
theorem Device.Counting.fall {r : Raw} {p ns : Nat} {d : Device} (h : d.Counting r p true ns) (n us : Nat)
    (hk : Config.keepsHold 1 ns = true) (hp : p < 27) : (d.observe n false us).Counting r (p + 1) false us := by
  obtain ⟨h1, h2, h3, h4, h5, h6, h7⟩ := h
  have e : d.edge n false = d.pulse n := by
    simp [Device.edge, h5, Device.fallingEdge, h2, h3, Config.tHighUs, h6, hk]
  have e2 : d.observe n false us = { d.pulse n with clk := false, levelNs := us } := by
    unfold Device.observe
    rw [e]
    simp [Device.levelTime, h5]
  rw [e2]
  by_cases h24 : p < 24
  · have e3 : d.pulse n = { d with pulses := some (p + 1) } := by simp [Device.pulse, h1, h24]
    rw [e3]
    exact ⟨rfl, h2, h3, h4, rfl, rfl, fun h => by omega⟩
  · obtain ⟨g, hg⟩ : ∃ g, selectionOfPulses (p + 1) = some g := by
      obtain rfl | rfl | rfl : p = 24 ∨ p = 25 ∨ p = 26 := by omega
      · exact ⟨.a128, rfl⟩
      · exact ⟨.b32, rfl⟩
      · exact ⟨.a64, rfl⟩
    have e3 : d.pulse n = { d with pulses := some (p + 1), sel := g, pending := false } := by
      simp [Device.pulse, h1, h24, hg]
    rw [e3]
    exact ⟨rfl, h2, h3, h4, rfl, rfl, fun _ => hg⟩

/-- A step in a busy phase, with the device after the environment's move. -/
theorem busy_step_device {s u : State} (hr : s.inputs.rst = false) (hs : s.eng.seq ≠ .idle)
    (hu : sequencer s.eng.op s.eng.arg s = u) (hsc : u.script = s.script) (hdr : u.draws = s.draws) :
    ∃ t, step s = .next t ∧ t.eng = u.eng ∧ t.pins = u.pins ∧ t.events = u.events ∧ t.dev = u.deviceAfter s.nextMove :=
  ⟨u.advance, by rw [step_busy hr hs, hu], rfl, rfl, rfl, by
    have : u.nextMove = s.nextMove := by unfold State.nextMove; rw [hsc, hdr]
    rw [← this]; rfl⟩

/-- The premises under which a frame is counted; with `c`, the data line carries the result's bits too. -/
abbrev SoundPremise (c : Prop) (u : State) : Prop :=
  NoReset u ∧ PlatformKeepsBounds u ∧ DeviceKeepsItsConversion u ∧ (c → DataOutput u)

/-- A hold of the frame keeps its bounds. -/
theorem keepsHold_of_bounds {s : State} (h : PlatformKeepsBounds s) (hq : frameInProgress s.eng.seq = true) :
    Config.keepsHold 1 (1000 + s.inputs.overrunNs) = true ∧ s.inputs.overrunNs < 1000 := by
  obtain ⟨h1, h2, -⟩ := h hq
  simp only [Config.tHighUs] at h2
  simp only [Config.keepsHold, Bool.and_eq_true, decide_eq_true_eq]
  simp only [Config.holdLimitNs] at h2 ⊢
  omega

/-- One step inside a frame: the device has seen the wire for exactly the step's time, and has not moved. -/
theorem sound_step {c : Prop} {s u : State} (hp : SoundPremise c s) (hq : frameInProgress s.eng.seq = true)
    (hu : sequencer s.eng.op s.eng.arg s = u) (hsc : u.script = s.script)
    (hdr : u.draws = s.draws) (hdv : u.dev = s.dev) (hpc : u.pins.dirClk = .output)
    (hmode : u.eng.mode = .critical ∨ s.dev.clk = false) (hin : u.inputs = s.inputs) (hev : ∀ n, .us n ∈ u.events → n = 1) :
    ∃ t, step s = .next t ∧ t.eng = u.eng ∧ t.pins = u.pins ∧ t.events = u.events ∧
      t.dev = s.dev.observe u.draws u.pins.sck u.stepNs := by
  obtain ⟨h1, h2, h3, -⟩ := hp
  obtain ⟨-, -, hg⟩ := h2 hq
  have hb : u.keepsFrame s.nextMove = true := State.keepsFrame_hold hg (h3.2 hq) fun n hn => by
    rw [hev n hn, hin]
    exact (keepsHold_of_bounds h2 hq).1
  obtain ⟨t, e, g, pp, ev, dv⟩ := busy_step_device (u := u) h1
    (by intro h; rw [h] at hq; simp [frameInProgress, cutsFrame, inCriticalPhase] at hq) hu hsc hdr
  refine ⟨t, e, g, pp, ev, ?_⟩
  have hst : u.strayEdge = false := by
    unfold State.strayEdge; rw [hdv]; rcases hmode with h | h <;> simp [h]
  rw [dv, State.deviceAfter_kept hb hst, h3.2 hq, hdv, hg, Nat.add_zero, State.clkWire, if_pos hpc]
  rfl

/-- A data pulse of a frame: the device counts it, and the sample is the result's bit if the line carries it. The wire
may have gone high in the very step before. -/
theorem dataPulse_sound {c : Prop} {s : State} {r : Raw} {p n0 : Nat} {lvl : Bool} (h : s.eng.seq = .sHi)
    (hmode : s.eng.mode = .critical)
    (hr : Along (SoundPremise c) 5 s) (hd : s.dev.Counting r p lvl n0)
    (hn : (lvl = true ∧ n0 = 0) ∨ (lvl = false ∧ (p = 0 ∨ Config.keepsHold 1 n0 = true)))
    (hdir : s.pins.dirClk = .output) (hin : c → s.pins.dirData = .input) (hp24 : p < 24) :
    ∃ t b n1, runTrace 5 s = some (t, dataPulse b) ∧ t.pins = { s.pins with sck := false } ∧
      t.eng = (if s.eng.idx = 23 then
          { s.eng with acc := orSample s.eng.acc s.eng.idx b, pcnt := pcntOf s.eng.sg, seq := .gHi }
        else
          { s.eng with acc := orSample s.eng.acc s.eng.idx b, idx := s.eng.idx + 1, seq := .sHi }) ∧
      t.dev.Counting r (p + 1) false n1 ∧ Config.keepsHold 1 n1 = true ∧ (c → b = r.getLsbD (23 - p)) := by
  obtain ⟨s1, e1, g1, p1, v1, d1⟩ := sound_step hr.head (by rw [h]; rfl) (sequencer_sHi _ _ h) rfl rfl rfl hdir
      (.inl (by simp [hmode])) rfl (by simp)
  have r1 := hr.tail e1
  have q1 : s1.eng.seq = .sHiHold := by rw [g1]
  have di1 : s1.pins.dirClk = .output := by rw [p1]; exact hdir
  have D1 : s1.dev.Counting r p true 0 := by
    rw [d1]
    rcases hn with ⟨rfl, rfl⟩ | ⟨rfl, hn⟩
    · exact hd.hold _ 0 (by decide)
    · exact hd.rise _ _ (by decide) hn
  obtain ⟨k1, l1⟩ := keepsHold_of_bounds r1.head.2.1 (by rw [q1]; rfl)
  obtain ⟨s2, e2, g2, p2, v2, d2⟩ := sound_step r1.head (by rw [q1]; rfl) (sequencer_sHiHold _ _ q1) rfl rfl rfl di1
      (.inl (by simp [g1, hmode])) rfl (by simp)
  have r2 := r1.tail e2
  have q2 : s2.eng.seq = .sSample := by rw [g2]
  have di2 : s2.pins.dirClk = .output := by rw [p2]; exact di1
  have D2 : s2.dev.Counting r p true (1000 + s1.inputs.overrunNs) := by
    have := D1.hold s1.draws (1000 + s1.inputs.overrunNs) (by omega)
    rw [Nat.zero_add] at this
    rw [d2]
    simpa [State.stepNs, eventNs, p1] using this
  obtain ⟨s3, e3, g3, p3, v3, d3⟩ := sound_step r2.head (by rw [q2]; rfl) (sequencer_sSample _ _ q2) rfl rfl rfl di2
      (.inl (by simp [g2, g1, hmode])) rfl (by simp)
  have r3 := r2.tail e3
  have q3 : s3.eng.seq = .sLo := by rw [g3]
  have di3 : s3.pins.dirClk = .output := by rw [p3]; exact di2
  have D3 : s3.dev.Counting r p true (1000 + s1.inputs.overrunNs) := by
    have := D2.hold s2.draws 0 (by omega)
    rw [d3]
    simpa [State.stepNs, eventNs, p2, p1] using this
  obtain ⟨s4, e4, g4, p4, v4, d4⟩ := sound_step r3.head (by rw [q3]; rfl) (sequencer_sLo _ _ q3) rfl rfl rfl di3
      (.inl (by simp [g3, g2, g1, hmode])) rfl (by simp)
  have r4 := r3.tail e4
  have q4 : s4.eng.seq = .sLoHold := by rw [g4]
  have di4 : s4.pins.dirClk = .output := by rw [p4]; exact di3
  have D4 : s4.dev.Counting r (p + 1) false 0 := by
    rw [d4]; exact D3.fall _ _ k1 (by omega)
  obtain ⟨k4, -⟩ := keepsHold_of_bounds r4.head.2.1 (by rw [q4]; rfl)
  have D5 := D4.hold s4.draws (1000 + s4.inputs.overrunNs) (by simp)
  rw [Nat.zero_add] at D5
  have run4 : ∀ {t}, step s4 = .next t → runTrace 5 s = some (t, s1.events ++ (s2.events ++ (s3.events ++ (s4.events ++
      t.events)))) := fun e =>
    runTrace_succ_some e1 (runTrace_succ_some e2 (runTrace_succ_some e3 (runTrace_succ_some e4 (runTrace_one e))))
  have hbit : c → s2.dataLevel = r.getLsbD (23 - p) := by
    intro hc
    have hdd : s2.pins.dirData = .input := by rw [p2, p1]; exact hin hc
    rw [dataLevel_input s2 hdd, r2.head.2.2.2 hc p D2.pulses hp24 D2.clk
      (by rw [D2.level]; simp [Config.tHighUs]), D2.result]
  by_cases hi : s.eng.idx = 23
  · obtain ⟨s5, e5, g5, p5, v5, d5⟩ := sound_step r4.head (by rw [q4]; rfl)
      (sequencer_sLoHold_last _ _ q4 (by simp [g4, g3, g2, g1, hi])) rfl rfl rfl di4
      (.inl (by simp [g4, g3, g2, g1, hmode])) rfl (by simp)
    exact ⟨s5, s2.dataLevel, _, by rw [run4 e5, v1, v2, v3, v4, v5]; rfl, by simp [p5, p4, p3, p2, p1],
      by simp [g5, g4, g3, g2, g1, hi], by rw [d5]; simpa [State.stepNs, eventNs, p4] using D5, k4, hbit⟩
  · obtain ⟨s5, e5, g5, p5, v5, d5⟩ := sound_step r4.head (by rw [q4]; rfl)
      (sequencer_sLoHold_more _ _ q4 (by simpa [g4, g3, g2, g1] using hi)) rfl rfl rfl di4
      (.inl (by simp [g4, g3, g2, g1, hmode])) rfl (by simp)
    exact ⟨s5, s2.dataLevel, _, by rw [run4 e5, v1, v2, v3, v4, v5]; rfl, by simp [p5, p4, p3, p2, p1], by
      rw [if_neg hi]; simp [g5, g4, g3, g2, g1], by rw [d5]; simpa [State.stepNs, eventNs, p4] using D5, k4, hbit⟩

/-- A gain pulse of a frame. -/
theorem gainPulse_sound {c : Prop} {s : State} {r : Raw} {p n0 : Nat} (h : s.eng.seq = .gHi)
    (hmode : s.eng.mode = .critical)
    (hr : Along (SoundPremise c) 4 s) (hd : s.dev.Counting r p false n0) (hn : Config.keepsHold 1 n0 = true)
    (hdir : s.pins.dirClk = .output) (hp27 : p < 27) :
    ∃ t n1, runTrace 4 s = some (t, gainPulse) ∧ t.pins = { s.pins with sck := false } ∧
      t.eng = (if s.eng.pcnt = 1 then { s.eng with seq := .sExit }
        else { s.eng with pcnt := s.eng.pcnt - 1, seq := .gHi }) ∧
      t.dev.Counting r (p + 1) false n1 ∧ Config.keepsHold 1 n1 = true := by
  obtain ⟨s1, e1, g1, p1, v1, d1⟩ := sound_step hr.head (by rw [h]; rfl) (sequencer_gHi _ _ h) rfl rfl rfl hdir
      (.inl (by simp [hmode])) rfl (by simp)
  have r1 := hr.tail e1
  have q1 : s1.eng.seq = .gHiHold := by rw [g1]
  have di1 : s1.pins.dirClk = .output := by rw [p1]; exact hdir
  have D1 : s1.dev.Counting r p true 0 := by rw [d1]; exact hd.rise _ _ (by decide) (.inr hn)
  obtain ⟨k1, l1⟩ := keepsHold_of_bounds r1.head.2.1 (by rw [q1]; rfl)
  obtain ⟨s2, e2, g2, p2, v2, d2⟩ := sound_step r1.head (by rw [q1]; rfl) (sequencer_gHiHold _ _ q1) rfl rfl rfl di1
      (.inl (by simp [g1, hmode])) rfl (by simp)
  have r2 := r1.tail e2
  have q2 : s2.eng.seq = .gLo := by rw [g2]
  have di2 : s2.pins.dirClk = .output := by rw [p2]; exact di1
  have D2 : s2.dev.Counting r p true (1000 + s1.inputs.overrunNs) := by
    have := D1.hold s1.draws (1000 + s1.inputs.overrunNs) (by omega)
    rw [Nat.zero_add] at this
    rw [d2]
    simpa [State.stepNs, eventNs, p1] using this
  obtain ⟨s3, e3, g3, p3, v3, d3⟩ := sound_step r2.head (by rw [q2]; rfl) (sequencer_gLo _ _ q2) rfl rfl rfl di2
      (.inl (by simp [g2, g1, hmode])) rfl (by simp)
  have r3 := r2.tail e3
  have q3 : s3.eng.seq = .gLoHold := by rw [g3]
  have di3 : s3.pins.dirClk = .output := by rw [p3]; exact di2
  have D3 : s3.dev.Counting r (p + 1) false 0 := by rw [d3]; exact D2.fall _ _ k1 hp27
  obtain ⟨k3, -⟩ := keepsHold_of_bounds r3.head.2.1 (by rw [q3]; rfl)
  have D4 := D3.hold s3.draws (1000 + s3.inputs.overrunNs) (by simp)
  rw [Nat.zero_add] at D4
  have run3 : ∀ {t}, step s3 = .next t → runTrace 4 s = some (t, s1.events ++ (s2.events ++ (s3.events ++ t.events))) :=
    fun e => runTrace_succ_some e1 (runTrace_succ_some e2 (runTrace_succ_some e3 (runTrace_one e)))
  by_cases hp : s.eng.pcnt = 1
  · obtain ⟨s4, e4, g4, p4, v4, d4⟩ := sound_step r3.head (by rw [q3]; rfl)
      (sequencer_gLoHold_last _ _ q3 (by simp [g3, g2, g1, hp])) rfl rfl rfl di3
      (.inl (by simp [g3, g2, g1, hmode])) rfl (by simp)
    exact ⟨s4, _, by rw [run3 e4, v1, v2, v3, v4]; rfl, by simp [p4, p3, p2, p1], by simp [g4, g3, g2, g1, hp],
      by rw [d4]; simpa [State.stepNs, eventNs, p3] using D4, k3⟩
  · obtain ⟨s4, e4, g4, p4, v4, d4⟩ := sound_step r3.head (by rw [q3]; rfl)
      (sequencer_gLoHold_more _ _ q3 (by simpa [g3, g2, g1] using hp)) rfl rfl rfl di3
      (.inl (by simp [g3, g2, g1, hmode])) rfl (by simp)
    exact ⟨s4, _, by rw [run3 e4, v1, v2, v3, v4]; rfl, by simp [p4, p3, p2, p1], by
      rw [if_neg hp]; simp [g4, g3, g2, g1], by rw [d4]; simpa [State.stepNs, eventNs, p3] using D4, k3⟩

end Sys2Proof.Machine
end

