-- ==== Sys2Proof/Laws/Invariant.lean ====
section
/-! SUPPORT. What one engine move keeps: fields of the sequencer's invariant, each from the field itself. -/

namespace Sys2Proof.Machine

open Sys2Proof

variable {s u : State}

theorem EngineMove.mode_critical_iff (m : EngineMove s u) (h : s.eng.mode = .critical ↔ inCriticalPhase s.eng.seq = true) :
    u.eng.mode = .critical ↔ inCriticalPhase u.eng.seq = true := by
  cases m with
  | table _ _ m => cases m <;> first | exact h | simp_all [inCriticalPhase]
  | accept _ _ _ _ _ m => cases m <;> simp_all [inCriticalPhase]
  | reserved => simp_all [inCriticalPhase]

theorem EngineMove.sck_high (m : EngineMove s u) (h : clockHighPhase s.eng.seq = true → s.pins.sck = true) :
    clockHighPhase u.eng.seq = true → u.pins.sck = true := by
  cases m with
  | table _ _ m => cases m <;> first | exact h | simp_all [clockHighPhase]
  | accept _ _ _ _ _ m => cases m <;> simp [clockHighPhase]
  | reserved => simp [clockHighPhase]

theorem EngineMove.sck_low (m : EngineMove s u) (h : clockLowPhase s.eng.seq = true → s.pins.sck = false) :
    clockLowPhase u.eng.seq = true → u.pins.sck = false := by
  cases m with
  | table _ _ m => cases m <;> first | exact h | simp_all [clockLowPhase]
  | accept _ _ _ _ _ m => cases m <;> simp [clockLowPhase]
  | reserved => simp [clockLowPhase]

theorem EngineMove.error_datum (m : EngineMove s u)
    (h : s.eng.seq = .resp →
      (s.eng.rspStatus = .invalidArgument ∨ s.eng.rspStatus = .timeout → s.eng.rspData = 0) ∧
      (s.eng.rspStatus = .pinFailure → s.eng.rspData ≠ 0)) :
    u.eng.seq = .resp →
      (u.eng.rspStatus = .invalidArgument ∨ u.eng.rspStatus = .timeout → u.eng.rspData = 0) ∧
      (u.eng.rspStatus = .pinFailure → u.eng.rspData ≠ 0) := by
  cases m with
  | table _ _ m =>
    cases m with
    | cfgDataFail _ e => simpa using e.2
    | cfgClkFail _ e => simpa using e.2
    | idle hq => exact h
    | respWaits hq => exact h
    | _ => simp
  | accept _ _ _ _ _ m => cases m <;> simp
  | reserved => simp

theorem EngineMove.idx_le (m : EngineMove s u) (h : s.eng.idx.toNat ≤ 23) : u.eng.idx.toNat ≤ 23 := by
  cases m with
  | table _ _ m =>
    cases m with
    | sLoHoldMore _ hi =>
      have hne : s.eng.idx.toNat ≠ 23 := fun hc => hi (BitVec.eq_of_toNat_eq (by simpa using hc))
      have hadd : (s.eng.idx + 1).toNat = s.eng.idx.toNat + 1 := by rw [BitVec.toNat_add]; simp; omega
      simp only [hadd]
      omega
    | sEnter => simp
    | _ => exact h
  | accept _ _ _ _ _ m => cases m <;> exact h
  | reserved => exact h

/-- The phase that follows in the table is IDLE, RESP or another phase of the same command. -/
theorem TableMove.phase_of {i : Instr} {op : BitVec 8} {arg : Word} (m : TableMove op arg s u) (ho : op = i.opcode)
    (hs : s.eng.seq ∈ phasesOf i) : u.eng.seq = .idle ∨ u.eng.seq = .resp ∨ u.eng.seq ∈ phasesOf i := by
  subst ho
  cases m with
  | idle hq => exact .inl hq
  | respWaits hq => exact .inr (.inl hq)
  | pHoldInit hq ho => cases i <;> simp_all [phasesOf, Instr.opcode, Opcode.setPower, Opcode.init]
  | wCheckShift hq hb ho => cases i <;> simp_all [phasesOf, Instr.opcode]
  | sExitGain hq ho => cases i <;> simp_all [phasesOf, Instr.opcode]
  | sExitRead hq ho => cases i <;> simp_all [phasesOf, Instr.opcode, Opcode.read, Opcode.init, Opcode.setGain]
  | _ => cases i <;> simp_all [phasesOf]

theorem TableMove.command (m : TableMove s.eng.op s.eng.arg s u) : u.eng.op = s.eng.op ∧ u.eng.arg = s.eng.arg := by
  cases m <;> exact ⟨rfl, rfl⟩

theorem validGain_of_gainOperand {arg : Word} {g : Selection} (h : gainOperand arg = some g) : validGain arg = true := by
  rw [validGain_iff]
  by_contra hc
  rw [gainOperand_eq_none.2 hc] at h
  cases h

/-- An accepted command is in progress, or was answered InvalidArgument. -/
theorem AcceptMove.in_operation {i : Instr} (m : AcceptMove s i u) : u.eng.seq = .resp ∨ InOperation i u := by
  cases m with
  | initInvalid => exact .inl rfl
  | setGainInvalid => exact .inl rfl
  | init arg g hg => exact .inr ⟨rfl, rfl, validGain_of_gainOperand hg, by simp [phasesOf]⟩
  | setGain arg g hg => exact .inr ⟨rfl, rfl, validGain_of_gainOperand hg, by simp [phasesOf]⟩
  | _ => exact .inr ⟨rfl, rfl, rfl, by simp [phasesOf]⟩

theorem EngineMove.in_operation (m : EngineMove s u)
    (h : s.eng.seq ≠ .idle → s.eng.seq ≠ .resp → ∃ i, InOperation i s) :
    u.eng.seq ≠ .idle → u.eng.seq ≠ .resp → ∃ i, InOperation i u := by
  intro hi hr
  cases m with
  | table _ _ m =>
    have hne : s.eng.seq ≠ .idle ∧ s.eng.seq ≠ .resp := by
      constructor <;> intro hq <;> cases m <;> simp_all
    obtain ⟨i, ho, ha, hw, hs⟩ := h hne.1 hne.2
    obtain ⟨hco, hca⟩ := m.command
    rcases m.phase_of ho hs with hx | hx | hx
    · exact absurd hx hi
    · exact absurd hx hr
    · exact ⟨i, hco.trans ho, hca.trans ha, hw, hx⟩
  | accept i _ _ _ _ m => exact ⟨i, m.in_operation.resolve_left hr⟩
  | reserved => exact absurd rfl hr

theorem EngineMove.data_configured (m : EngineMove s u) (h : s.eng.seq = .iCfgClk → s.pins.dirData = .input) :
    u.eng.seq = .iCfgClk → u.pins.dirData = .input := by
  cases m with
  | table _ _ m => cases m <;> first | exact h | simp_all
  | accept _ _ _ _ _ m => cases m <;> simp
  | reserved => simp

theorem EngineMove.pcnt_range (m : EngineMove s u)
    (h : gainPhase s.eng.seq = true → 1 ≤ s.eng.pcnt.toNat ∧ s.eng.pcnt.toNat ≤ pulsesOf s.eng.sg) :
    gainPhase u.eng.seq = true → 1 ≤ u.eng.pcnt.toNat ∧ u.eng.pcnt.toNat ≤ pulsesOf u.eng.sg := by
  cases m with
  | table _ _ m =>
    cases m with
    | sLoHoldLast => intro _; dsimp only; cases s.eng.sg <;> decide
    | gLoHoldMore hq hp =>
      have hne : s.eng.pcnt.toNat ≠ 1 := fun hc => hp (BitVec.eq_of_toNat_eq (by simpa using hc))
      have hr := h (by simp [hq, gainPhase])
      have hlt := s.eng.pcnt.isLt
      have hsub : (s.eng.pcnt - 1).toNat = s.eng.pcnt.toNat - 1 := by rw [BitVec.toNat_sub]; simp; omega
      intro _
      simp only [hsub]
      omega
    | idle => exact h
    | respWaits => exact h
    | _ => simp_all [gainPhase]
  | accept _ _ _ _ _ m => cases m <;> simp [gainPhase]
  | reserved => simp [gainPhase]

theorem EngineMove.configured (m : EngineMove s u) (hd : s.eng.seq = .iCfgClk → s.pins.dirData = .input)
    (h : s.eng.op = Opcode.init → configuredPhase s.eng.seq = true → s.pins.dirData = .input ∧ s.pins.dirClk = .output) :
    u.eng.op = Opcode.init → configuredPhase u.eng.seq = true → u.pins.dirData = .input ∧ u.pins.dirClk = .output := by
  cases m with
  | table _ _ m => cases m <;> first | exact h | simp_all [configuredPhase]
  | accept _ _ _ _ _ m =>
    cases m <;> simp [configuredPhase, Opcode.init, Opcode.setPower, Opcode.setGain, Opcode.isReady, Opcode.waitReady,
      Opcode.read]
  | reserved => simp [configuredPhase]

end Sys2Proof.Machine
end

