-- ==== Sys2Proof/Laws/PerInstr.lean ====
section
/-! SUPPORT. Statements made once for each command: its word selects its own row of the opcode table and no other (R91). -/

namespace Sys2Proof.Laws.OwnRow

open Sys2Proof

/-- The word of a command, whatever its operand, selects exactly the row of its mnemonic (R91, R103, R106). -/
def Statement (i : Instr) : Prop :=
  ∀ r ∈ opcodeTable, r.selects (encode i) = true ↔ r.mnemonic = i.mnemonic

/-- The rows, by the two fields of the word. -/
theorem statement_of_fields {i : Instr} {op : BitVec 8} {arg : Word} (ho : i.opcode = op) (ha : i.operand = arg)
    (h : ∀ r ∈ opcodeTable, (r.mnemonic = i.mnemonic ↔
      (r.mnemonic = "INIT" ∧ op = 1) ∨ (r.mnemonic = "SET_POWER" ∧ op = 2 ∧ (arg = 0 ∨ arg = 1)) ∨
      (r.mnemonic = "SET_GAIN" ∧ op = 3) ∨ (r.mnemonic = "IS_READY" ∧ op = 4 ∧ arg = 0) ∨
      (r.mnemonic = "WAIT_READY" ∧ op = 5) ∨ (r.mnemonic = "READ" ∧ op = 6 ∧ arg = 0))) : Statement i := by
  obtain ⟨h1, h2, h3, h4, h5, h6⟩ := table_selects (encode i)
  have fo : opField (encode i) = op := by rw [encode, ho, ha, opField_append]
  have fa : argField (encode i) = arg := by rw [encode, ho, ha, argField_append]
  rw [fo] at h1 h2 h3 h4 h5 h6
  rw [fa] at h2 h4 h6
  intro r hr
  rw [h r hr]
  simp only [opcodeTable, List.mem_cons, List.not_mem_nil, or_false] at hr
  rcases hr with rfl | rfl | rfl | rfl | rfl | rfl <;> simp only [OpcodeRow.selects, decide_eq_true_eq] <;>
    first
      | rw [h1]; simp
      | rw [h2]; simp
      | rw [h3]; simp
      | rw [h4]; simp
      | rw [h5]; simp
      | rw [h6]; simp

theorem init (gain : Word) : Statement (.init gain) :=
  statement_of_fields (op := 1) (arg := gain) rfl rfl (by simp [opcodeTable, Instr.mnemonic])

theorem setPower (down : Bool) : Statement (.setPower down) :=
  statement_of_fields (op := 2) (arg := downArg down) rfl rfl (by cases down <;> decide)

theorem setGain (gain : Word) : Statement (.setGain gain) :=
  statement_of_fields (op := 3) (arg := gain) rfl rfl (by simp [opcodeTable, Instr.mnemonic])

theorem isReady : Statement (.isReady) :=
  statement_of_fields (op := 4) (arg := 0) rfl rfl (by simp [opcodeTable, Instr.mnemonic])

theorem waitReady (timeoutMs : Word) : Statement (.waitReady timeoutMs) :=
  statement_of_fields (op := 5) (arg := timeoutMs) rfl rfl (by simp [opcodeTable, Instr.mnemonic])

theorem read : Statement (.read) :=
  statement_of_fields (op := 6) (arg := 0) rfl rfl (by simp [opcodeTable, Instr.mnemonic])

end Sys2Proof.Laws.OwnRow
end

