-- ==== Sys2Proof/Laws/Response.lean ====
section
/-! SUPPORT. Runs up to the first response: taking them apart step by step, and a whole wait as one run. -/

namespace Sys2Proof.Machine

open Sys2Proof

/-- A run of `k` steps without reset from `s` to its first state in RESP. -/
structure UntilResponse (k : Nat) (s t : State) (tr : List Event) : Prop where
  busy : Along (fun u => NoReset u ∧ u.eng.seq ≠ .resp) k s
  run : runTrace k s = some (t, tr)
  responds : t.eng.seq = .resp

theorem FirstResponse.until {i : Instr} {s t : State} {k : Nat} {tr : List Event} (h : FirstResponse i s k t tr) :
    UntilResponse k s t tr := ⟨h.busy, h.run, h.responds⟩

section

variable {k : Nat} {s t : State} {tr : List Event}

theorem UntilResponse.zero (h : UntilResponse k s t tr) (hs : s.eng.seq = .resp) : k = 0 ∧ t = s ∧ tr = [] := by
  cases k with
  | succ k => exact absurd hs h.busy.1.2
  | zero => have := h.run; simp [runTrace] at this; exact ⟨rfl, this.1.symm, this.2⟩

/-- Outside RESP the run has a step more. -/
theorem UntilResponse.inv (h : UntilResponse k s t tr) (hs : s.eng.seq ≠ .resp) :
    NoReset s ∧ ∃ k', k = k' + 1 ∧
      ∀ s1, step s = .next s1 → ∃ tr', tr = s1.events ++ tr' ∧ UntilResponse k' s1 t tr' := by
  cases k with
  | zero => have := h.run; simp [runTrace] at this; exact absurd (this.1 ▸ h.responds) hs
  | succ k =>
    refine ⟨h.busy.1.1, k, rfl, ?_⟩
    intro s1 h1
    have := h.run
    rw [runTrace_succ h1, Option.map_eq_some_iff] at this
    obtain ⟨⟨w, tw⟩, hw, he⟩ := this
    simp only [Prod.mk.injEq] at he
    obtain ⟨rfl, rfl⟩ := he
    exact ⟨tw, rfl, h.busy.2 s1 h1, hw, h.responds⟩

/-- The first step of such a run, in a busy phase, given what the table does there. -/
theorem UntilResponse.next (h : UntilResponse k s t tr) (hs : s.eng.seq ≠ .resp) (hi : s.eng.seq ≠ .idle) {u : State}
    (hu : sequencer s.eng.op s.eng.arg s = u) :
    ∃ k' s1 tr', k = k' + 1 ∧ s1.eng = u.eng ∧ s1.pins = u.pins ∧ tr = u.events ++ tr' ∧ UntilResponse k' s1 t tr' := by
  obtain ⟨hr, k', rfl, h2⟩ := h.inv hs
  obtain ⟨s1, e1, g1, p1, v1, -⟩ := busy_step hr hi hu
  obtain ⟨tr', ht, hb⟩ := h2 s1 e1
  exact ⟨k', s1, tr', rfl, g1, p1, by rw [← v1]; exact ht, hb⟩

/-- A step that responds is the run's last. -/
theorem UntilResponse.respond (h : UntilResponse k s t tr) (hs : s.eng.seq ≠ .resp) (hi : s.eng.seq ≠ .idle) {u : State}
    (hu : sequencer s.eng.op s.eng.arg s = u) (hq : u.eng.seq = .resp) :
    k = 1 ∧ t.eng = u.eng ∧ t.pins = u.pins ∧ tr = u.events := by
  obtain ⟨k', s1, tr', rfl, g1, p1, rfl, hb⟩ := h.next hs hi hu
  obtain ⟨rfl, rfl, rfl⟩ := hb.zero (by rw [g1, hq])
  simp [g1, p1]

/-- One step more in front. -/
theorem UntilResponse.cons {s1 : State} (hr : NoReset s) (hs : s.eng.seq ≠ .resp) (e : step s = .next s1)
    (h : UntilResponse k s1 t tr) : UntilResponse (k + 1) s t (s1.events ++ tr) := by
  refine ⟨⟨⟨hr, hs⟩, fun u hu => ?_⟩, runTrace_succ_some e h.run, h.responds⟩
  rw [e] at hu
  obtain rfl := Host.Outcome.next.inj hu
  exact h.busy

theorem UntilResponse.nil (h : s.eng.seq = .resp) : UntilResponse 0 s s [] := ⟨trivial, rfl, h⟩

/-- The rest of such a run after its first `j` steps. -/
theorem UntilResponse.after {j : Nat} {s' : State} {tr1 : List Event} (h : UntilResponse (k + j) s t tr)
    (hr : runTrace j s = some (s', tr1)) : ∃ tr2, tr = tr1 ++ tr2 ∧ UntilResponse k s' t tr2 := by
  have e : k + j = j + k := by omega
  obtain ⟨a, b, c⟩ := h
  rw [e] at a b
  obtain ⟨x, t1, t2, h1, h2, rfl⟩ := runTrace_split b
  rw [hr] at h1
  simp at h1
  obtain ⟨rfl, rfl⟩ := h1
  exact ⟨t2, rfl, a.after hr, h2, c⟩

theorem UntilResponse.noReset (h : UntilResponse k s t tr) : Along NoReset k s := h.busy.mono (fun _ h => h.1)

/-- A run that stands before a data pulse has the pulse's five steps. -/
theorem UntilResponse.dataPulse (h : UntilResponse k s t tr) (hq : s.eng.seq = .sHi) : ∃ k', k = k' + 5 := by
  obtain ⟨k1, s1, tr1, rfl, g1, p1, rfl, hh1⟩ := h.next (by simp [hq]) (by simp [hq]) (sequencer_sHi _ _ hq)
  obtain ⟨k2, s2, tr2, rfl, g2, p1, rfl, hh2⟩ := hh1.next (by simp [g1]) (by simp [g1]) (sequencer_sHiHold _ _ (by simp [g1]))
  obtain ⟨k3, s3, tr3, rfl, g3, p1, rfl, hh3⟩ := hh2.next (by simp [g2]) (by simp [g2]) (sequencer_sSample _ _ (by simp [g2]))
  obtain ⟨k4, s4, tr4, rfl, g4, p1, rfl, hh4⟩ := hh3.next (by simp [g3]) (by simp [g3]) (sequencer_sLo _ _ (by simp [g3]))
  obtain ⟨-, k', rfl, -⟩ := hh4.inv (by simp [g4])
  exact ⟨k', rfl⟩

/-- A run that stands before a gain pulse has the pulse's four steps. -/
theorem UntilResponse.gainPulse (h : UntilResponse k s t tr) (hq : s.eng.seq = .gHi) : ∃ k', k = k' + 4 := by
  obtain ⟨k1, s1, tr1, rfl, g1, p1, rfl, hh1⟩ := h.next (by simp [hq]) (by simp [hq]) (sequencer_gHi _ _ hq)
  obtain ⟨k2, s2, tr2, rfl, g2, p1, rfl, hh2⟩ := hh1.next (by simp [g1]) (by simp [g1]) (sequencer_gHiHold _ _ (by simp [g1]))
  obtain ⟨k3, s3, tr3, rfl, g3, p1, rfl, hh3⟩ := hh2.next (by simp [g2]) (by simp [g2]) (sequencer_gLo _ _ (by simp [g2]))
  obtain ⟨-, k', rfl, -⟩ := hh3.inv (by simp [g3])
  exact ⟨k', rfl⟩

end

/-- The acceptance of a command as a step of a run. -/
theorem accept_run {i : Instr} {s : State} (hr : s.inputs.rst = false) (hs : s.eng.seq = .idle)
    (hv : s.inputs.cmdValid = true) (hd : decode s.inputs.cmdWord = .ok i) (hg : i = .read → s.eng.gain ≠ none) :
    ∃ u t, AcceptMove s i u ∧ step s = .next t ∧ t.eng = u.eng ∧ t.pins = u.pins ∧ t.events = u.events ∧
      t.dev = u.deviceAfter u.nextMove := by
  rcases exec_idle i hs with ⟨hi, hn, -⟩ | ⟨u, hx, m⟩
  · exact absurd hn (hg hi)
  · exact ⟨u, u.advance, m, by rw [step_accept hr hs hv hd, hx]; rfl, rfl, rfl, rfl, rfl⟩

/-- A wait from W_CHECK on (R143, R150): its own part `wt` of the trace is the one WAIT's procedure gives for the
answers in it, and holds reads of the line, yields and clock reads only; it ends in Timeout, or ready. -/
theorem wait_run : ∀ (k : Nat) (s t : State) (tr : List Event), s.eng.seq = .wCheck → UntilResponse k s t tr →
    ∃ (wt : List Event) (m : Nat), wt.count .tick = m ∧
      (∀ e ∈ wt, e = .r true ∨ e = .r false ∨ e = .tick ∨ ∃ n, e = .now n) ∧
      ((1 ≤ m ∧ tr = wt ++ [.rsp .timeout 0] ∧ k = 3 * m ∧ t.pins = s.pins ∧
          t.eng = { s.eng with rspStatus := .timeout, rspData := 0, seq := .resp } ∧
          (∃ n rest, wt = rest ++ [.now n] ∧ s.eng.tmo.toNat ≤ (n - s.eng.t0).toNat) ∧
          waitLoop s.eng.tmo s.eng.t0 (answersOf wt).douts (answersOf wt).nows = some (wt, false, [])) ∨
       ((∃ rest, wt = rest ++ [.r false]) ∧
         (∀ bs, waitLoop s.eng.tmo s.eng.t0 ((answersOf wt).douts ++ bs) (answersOf wt).nows = some (wt, true, bs)) ∧
         ((s.eng.op = Opcode.waitReady ∧ tr = wt ++ [.rsp .ok 0] ∧ k = 3 * m + 1 ∧ t.pins = s.pins ∧
            t.eng = { s.eng with rspStatus := .ok, rspData := 0, seq := .resp }) ∨
          (s.eng.op ≠ Opcode.waitReady ∧ ∃ s' k' tr', tr = wt ++ tr' ∧ k = k' + 3 * m + 1 ∧ s'.pins = s.pins ∧
            s'.eng = { s.eng with seq := .sEnter } ∧ UntilResponse k' s' t tr')))) := by
  intro k
  induction k using Nat.strongRecOn with
  | ind k ih =>
  intro s t tr hq hb
  cases hl : s.dataLevel with
  | false =>
    refine ⟨[.r false], 0, by simp, by simp, .inr ⟨⟨[], rfl⟩, by simp [answersOf, waitLoop], ?_⟩⟩
    by_cases ho : s.eng.op = Opcode.waitReady
    · left
      have e := sequencer_wCheck_ready s.eng.arg hq hl
      rw [← ho] at e
      have := hb.respond (by simp [hq]) (by simp [hq]) e rfl
      obtain ⟨rfl, g, p, rfl⟩ := this
      exact ⟨ho, rfl, rfl, p, g⟩
    · right
      obtain ⟨k', s1, tr', rfl, g1, p1, rfl, hb'⟩ := hb.next (by simp [hq]) (by simp [hq]) (sequencer_wCheck_shift _ _ hq hl ho)
      exact ⟨ho, s1, k', tr', rfl, by omega, p1, g1, hb'⟩
  | true =>
    obtain ⟨k1, s1, tr1, rfl, g1, p1, rfl, hb1⟩ := hb.next (by simp [hq]) (by simp [hq]) (sequencer_wCheck_high _ _ hq hl)
    obtain ⟨k2, s2, tr2, rfl, g2, p2, rfl, hb2⟩ := hb1.next (by simp [g1]) (by simp [g1]) (sequencer_wYield _ _ (by simp [g1]))
    have q2 : s2.eng.seq = .wTime := by rw [g2]
    cases he : expired s2.nowMs s2.eng.t0 s2.eng.tmo with
    | true =>
      obtain ⟨rfl, g, p, rfl⟩ := hb2.respond (by simp [q2]) (by simp [q2]) (sequencer_wTime_expired _ _ q2 he) rfl
      have hex := (expired_iff).1 he
      rw [g2, g1] at hex
      refine ⟨[.r true, .tick, .now s2.nowMs], 1, by simp, by simp, .inl ⟨le_refl _, by simp, rfl, by rw [p, p2, p1], by rw [g, g2, g1], ⟨_, [.r true, .tick], rfl, hex⟩, ?_⟩⟩
      simp [answersOf, waitLoop, BitVec.le_def] 
      simpa using hex
    | false =>
      obtain ⟨k3, s3, tr3, rfl, g3, p3, rfl, hb3⟩ := hb2.next (by simp [q2]) (by simp [q2]) (sequencer_wTime_again _ _ q2 he)
      have hex : ¬ (s.eng.tmo ≤ s2.nowMs - s.eng.t0) := by
        have hn : ¬ expired s2.nowMs s2.eng.t0 s2.eng.tmo = true := by simp [he]
        rw [expired_iff, g2, g1] at hn
        rw [BitVec.le_def]; exact hn
      have E : s3.eng = s.eng := by
        rw [g3, g2, g1, ← hq]
      have P : s3.pins = s.pins := by rw [p3, p2, p1]
      obtain ⟨wt, m, hm, hev, h⟩ := ih k3 (by omega) s3 t tr3 (by rw [E, hq]) hb3
      rw [E, P] at h
      have hd : ∀ bs, waitLoop s.eng.tmo s.eng.t0 ((answersOf (.r true :: .tick :: .now s2.nowMs :: wt)).douts ++ bs) (answersOf (.r true :: .tick :: .now s2.nowMs :: wt)).nows = (waitLoop s.eng.tmo s.eng.t0 ((answersOf wt).douts ++ bs) (answersOf wt).nows).map fun p => ([.r true, .tick, .now s2.nowMs] ++ p.1, p.2) := by
        intro bs
        simp [answersOf, waitLoop, hex]
      refine ⟨.r true :: .tick :: .now s2.nowMs :: wt, m + 1, by simp [hm], ?_, ?_⟩
      · intro e he
        simp only [List.mem_cons] at he
        rcases he with h | h | h | h
        · exact .inl h
        · exact .inr (.inr (.inl h))
        · exact .inr (.inr (.inr ⟨_, h⟩))
        · exact hev e h
      · rcases h with ⟨h1, rfl, rfl, h4, h5, ⟨n, rest, rfl, hnr⟩, h7⟩ | ⟨⟨rest, rfl⟩, h2, h3⟩
        · left
          refine ⟨by omega, by simp, by omega, h4, h5, ⟨n, .r true :: .tick :: .now s2.nowMs :: rest, by simp, hnr⟩, ?_⟩
          have := hd []
          rw [List.append_nil, List.append_nil, h7] at this
          rw [this]; rfl
        · right
          refine ⟨⟨.r true :: .tick :: .now s2.nowMs :: rest, by simp⟩, ?_, ?_⟩
          · intro bs; rw [hd, h2]; rfl
          · rcases h3 with ⟨h3, rfl, rfl, h5, h6⟩ | ⟨h3, s', k', tr', rfl, rfl, h5, h6, h7⟩
            · exact .inl ⟨h3, by simp, by omega, h5, h6⟩
            · exact .inr ⟨h3, s', k', tr', by simp, by omega, h5, h6, h7⟩

end Sys2Proof.Machine
end

