-- ==== Sys2Proof/Tests/Slice0.lean ====
section
/-! SUPPORT. Tests from the spec's words and vectors (95_test_vectors.md), and a witness for the hypotheses of each statement. -/

open Sys2Proof Sys2Proof.Machine

namespace Sys2Proof.Tests

/-! ## WellFormed: ill-formed operands are refused (R92, S2, V6) -/

theorem test_illFormed_init_3 : (Instr.init 3).wellFormed = false := by decide
theorem test_illFormed_setGain_3 : (Instr.setGain 3).wellFormed = false := by decide
theorem test_illFormed_setGain_0x100 : (Instr.setGain 0x100).wellFormed = false := by decide
theorem test_illFormed_init_top_bit : (Instr.init 0x80000000).wellFormed = false := by decide
theorem test_wellFormed : [Instr.init 0, .init 2, .setGain 1, .setPower true, .isReady, .waitReady 0xFFFFFFFF,
    .read].all Instr.wellFormed = true := by decide

/-! ## Decoding: words from the fields of R90, R91 and the table of V9 -/

theorem test_decode_init : decode 0b0000000100000000000000000000000000000010#40 = .ok (.init 2) := by decide
theorem test_decode_init_invalid : decode 0x01FFFFFFFF = .ok (.init 0xFFFFFFFF) := by decide
theorem test_decode_setPower : decode 0b0000001000000000000000000000000000000001#40 = .ok (.setPower true) ∧
    decode 0b0000001000000000000000000000000000000000#40 = .ok (.setPower false) := by decide
theorem test_decode_setGain : decode 0b0000001100000000000000000000000000000001#40 = .ok (.setGain 1) ∧
    decode 0x0300000003 = .ok (.setGain 3) := by decide
theorem test_decode_isReady : decode 0b0000010000000000000000000000000000000000#40 = .ok .isReady := by decide
theorem test_decode_waitReady : decode 0b0000010100000000000000000000000011001000#40 = .ok (.waitReady 200) ∧
    decode 0x05FFFFFFFF = .ok (.waitReady 0xFFFFFFFF) := by decide
theorem test_decode_read : decode 0b0000011000000000000000000000000000000000#40 = .ok .read := by decide

theorem test_decode_reserved : ([0x0000000000, 0x0200000002, 0x0280000000, 0x0400000100, 0x0600000001, 0x0700000000,
    0x8000000000, 0xFF00000000, 0xFFFFFFFFFF] : List CommandWord).all
      (fun w => match decode w with | .error _ => true | .ok _ => false) = true := by decide

/-- R103: `SET_GAIN 3` assembles to 0x0300000003; R104. -/
theorem test_encode : encode (.setGain 3) = 0x0300000003 ∧ encode (.waitReady 100) = 0x0500000064 ∧
    encode Instr.powerDown = 0x0200000001 ∧ encode Instr.powerUp = 0x0200000000 := by decide

theorem test_decodeTableWord : decodeTableWord 40 0x0100000000 = some (.init 0) ∧
    decodeTableWord 40 0x0600000001 = none ∧ decodeTableWord 48 0x010600000000 = none := by decide

/-! ## Helpers -/

/-- A machine past INIT: GAIN written, pins configured. -/
def ready : State :=
  { State.reset with
    eng := { Engine.reset with gain := some .a64 }
    pins := { sck := false, dirData := .input, dirClk := .output } }

/-- The same machine in phase `p`. -/
def inPhase (p : Phase) : State := { ready with eng := { ready.eng with seq := p } }

/-- In phase `p` of command `i`, with its word latched. -/
def during (i : Instr) (p : Phase) : State :=
  { ready with eng := { ready.eng with seq := p, op := i.opcode, arg := i.operand } }

/-- A field of the state a command's step leads to. -/
def after {α : Type} (i : Instr) (s : State) (f : State → α) : Option α :=
  match exec i s with
  | .next t => some (f t)
  | _ => none

/-- An environment that only lets a line level and a clock advance through. -/
def still (dout : Bool) (ms : Nat) : EnvMove where
  inputs := { inputsAtReset with dout := dout }
  msPassed := ms
  gapNs := 0
  device := .quiet

/-- A machine past INIT to which command `i` is presented, with `n` equal moves to come. -/
def presented (i : Instr) (m : EnvMove) (n : Nat) : State :=
  { ready with
    inputs := { m.inputs with cmdValid := true, cmdWord := encode i }
    script := List.replicate n m }

/-! ## One step of each command (S1, S7, V2, V3, V5 to V8) -/

theorem test_init_accepted : after (.init 2) State.reset (fun t => (t.eng.gain, t.eng.sg, t.eng.seq)) =
    some (some .a64, .a64, .iCfgData) := by decide
theorem test_init_pin_failure : after (.init 1)
    { inPhase .iCfgData with inputs := { inputsAtReset with cfg := .fail ⟨7, by decide⟩ } }
    (fun t => (t.eng.rspStatus, t.eng.rspData, t.events)) =
    some (.pinFailure, 7, [.cfg .data .input (.fail ⟨7, by decide⟩), .rsp .pinFailure 7]) := by decide

theorem test_setPower_accepted : after (.setPower true) ready (fun t => (t.eng.op, t.eng.arg, t.eng.seq)) =
    some (0x02, 1, .pSet) := by decide
theorem test_setPower_drives : after (.setPower true) (during (.setPower true) .pSet) (fun t => (t.pins.sck, t.events)) =
    some (true, [.w true]) := by decide

theorem test_setGain_accepted : after (.setGain 1) ready (fun t => (t.eng.gain, t.eng.sg, t.eng.tmo, t.eng.seq)) =
    some (some .a64, .b32, 200, .wStart) := by decide
theorem test_setGain_rejected : after (.setGain 0x100) ready (fun t => (t.eng.rspStatus, t.eng.rspData, t.eng.sg)) =
    some (.invalidArgument, 0, .a128) := by decide

theorem test_isReady_low : after .isReady { inPhase .rCheck with inputs := { inputsAtReset with dout := false } }
    (fun t => (t.eng.rspStatus, t.eng.rspData)) = some (.ok, 1) := by decide
theorem test_isReady_high : after .isReady { inPhase .rCheck with inputs := { inputsAtReset with dout := true } }
    (fun t => (t.eng.rspStatus, t.eng.rspData)) = some (.ok, 0) := by decide

/-- S7: T0 = 0xFFFFFFF0, T = 48, the clock at 0x10 and then at 0x20. -/
def atTimeCheck (ms : Nat) : State :=
  { during (.waitReady 0x30) .wTime with
    eng := { (during (.waitReady 0x30) .wTime).eng with t0 := 0xFFFFFFF0, tmo := 0x30 }
    clockMs := 2 ^ 32 + ms }

theorem test_waitReady_goes_on : after (.waitReady 0x30) (atTimeCheck 0x10) (fun t => t.eng.seq) = some .wCheck := by
  decide
theorem test_waitReady_expires : after (.waitReady 0x30) (atTimeCheck 0x20)
    (fun t => (t.eng.rspStatus, t.eng.seq)) = some (.timeout, .resp) := by decide

/-- V2: the only 1 is b_8, so ACC = 0x008000. -/
theorem test_read_samples : after .read
    { during .read .sSample with eng := { (during .read .sSample).eng with idx := 8 } } (fun t => t.eng.acc) =
    some 0x008000 := by decide
theorem test_read_decodes : after .read
    { during .read .xDecode with eng := { (during .read .xDecode).eng with acc := 0x800001 } }
    (fun t => (t.eng.rspStatus, t.eng.rspData)) = some (.ok, 0xFF800001) := by decide

/-- S1, V1. -/
theorem test_decodeSample : decodeSample 0x7FFFFF = 0x007FFFFF ∧ decodeSample 0x800000 = 0xFF800000 ∧
    decodeSample 0xFFFFFF = 0xFFFFFFFF ∧ decodeSample 0xABCDEF = 0xFFABCDEF := by decide

/-- R122: the samples 1, 0 (22 times), 1. -/
theorem test_assembleSamples : assembleSamples ([true] ++ List.replicate 22 false ++ [true]) = 0x800001 := by decide

/-- From reset, a presented word runs as the first command; READ is the model fault of U8. -/
theorem test_first_step : (match step (State.reset.withFetchWord 40 0x0400000000) with
    | .next t => t.eng.seq
    | _ => .idle) = .rCheck := by decide
theorem test_first_step_read : (match step (State.reset.withFetchWord 40 0x0600000000) with
    | .fault r => some r
    | _ => none) = some .readBeforeGain := by decide

/-! ## The device (R212, R213, R66) -/

/-- A ready device after `c` pulses. -/
def counted (c : Nat) : Device := { Device.atReset with pending := decide (c < 25), pulses := some c, sel := .a64 }

/-- R212: 25, 26, 27 pulses select A128, B32, A64; the 24th changes nothing of the selection. -/
theorem test_device_latch : ((counted 24).pulse 0).sel = .a128 ∧ ((counted 25).pulse 0).sel = .b32 ∧
    ((counted 26).pulse 0).sel = .a64 ∧ ((counted 23).pulse 0).sel = .a64 ∧ ((counted 23).pulse 0).pending = true := by
  decide

/-- R66, R212: the count begins when the device signals ready, whatever was counted before. -/
theorem test_device_ready : ((counted 25).move 0 (.complete 5)).pulses = some 0 ∧
    ((counted 25).move 0 (.complete 5)).pending = true ∧ ((counted 25).move 0 (.complete 5)).resultSel = .a64 := by decide

/-- N11: a conversion withdrawn while it is shifted out disturbs the frame; before that it does not. R66: a ready device
counts the first pulse however short its clock was low. -/
theorem test_device_inside_a_frame :
    (({ counted 0 with levelNs := 1000 } : Device).observe 0 true 0).pulses = some 0 ∧
    ((counted 3).move 0 .withdraw).disturbed = true ∧ ((counted 0).move 0 .withdraw).disturbed = false := by decide

/-- R66: a stray high of 5 us, or of 1 us after which the clock rests, disturbs no device; one that is not ready, and one
that has lost its count, count from the moment they signal ready. -/
theorem test_device_stray :
    let high : Device := { Device.atReset with clk := true, levelNs := 5000 }
    let ready : Device := { counted 0 with clk := true, levelNs := 5000 }
    let pulsed : Device := { counted 1 with levelNs := 5000 }
    (high.observe 0 false 0).disturbed = false ∧ (high.observe 0 false 0).pending = false ∧
    ((high.observe 0 false 0).move 0 (.complete 5)).pulses = some 0 ∧
    (ready.observe 0 false 0).disturbed = false ∧ (ready.observe 0 false 0).pulses = none ∧
    ((ready.observe 0 false 0).move 0 (.complete 5)).pulses = some 0 ∧
    (pulsed.observe 0 true 0).disturbed = false ∧ (pulsed.observe 0 true 0).pulses = none := by decide

/-- R213, R214: 60 us of high clock power the device down, less does not. -/
theorem test_device_power_down : ((counted 0).observe 0 true 60000).pwr = .down ∧
    ((counted 0).observe 0 true 60000).pending = false ∧ ((counted 0).observe 0 true 59999).pwr = .on := by decide

/-! ## Witnesses: how to meet the premises about runs -/

/-- The premise `p` holds in the first `k` states, checked by running. -/
def alongB (p : State → Bool) : Nat → State → Bool
  | 0, _ => true
  | k + 1, s => p s && match step s with | .next t => alongB p k t | _ => true

theorem along_of_alongB {P : State → Prop} {p : State → Bool} (hp : ∀ s, p s = true → P s) {k : Nat} {s : State}
    (h : alongB p k s = true) : Along P k s := by
  induction k generalizing s with
  | zero => trivial
  | succ k ih =>
    rw [alongB, Bool.and_eq_true] at h
    refine ⟨hp s h.1, fun t ht => ih ?_⟩
    have := h.2
    rw [ht] at this
    exact this

/-- After `k` steps, none of them in RESP or with rst, the machine is in RESP, and `p` holds of the state and trace. -/
def reaches (p : State → List Event → Bool) : Nat → State → List Event → Bool
  | 0, s, tr => decide (s.eng.seq = .resp) && p s tr
  | k + 1, s, tr => !s.inputs.rst && decide (s.eng.seq ≠ .resp) &&
      match step s with | .next t => reaches p k t (tr ++ t.events) | _ => false

theorem run_of_reaches {p : State → List Event → Bool} {k : Nat} {s : State} {tr₀ : List Event}
    (h : reaches p k s tr₀ = true) : ∃ t tr, Along (fun u => NoReset u ∧ u.eng.seq ≠ .resp) k s ∧
      runTrace k s = some (t, tr) ∧ t.eng.seq = .resp ∧ p t (tr₀ ++ tr) = true := by
  induction k generalizing s tr₀ with
  | zero =>
    simp only [reaches, Bool.and_eq_true, decide_eq_true_eq] at h
    exact ⟨s, [], trivial, rfl, h.1, by simpa using h.2⟩
  | succ k ih =>
    simp only [reaches, Bool.and_eq_true, Bool.not_eq_true', decide_eq_true_eq] at h
    obtain ⟨⟨hr, hs⟩, hk⟩ := h
    cases hst : step s with
    | fault f => rw [hst] at hk; cases hk
    | refused f => rw [hst] at hk; cases hk
    | next u =>
      rw [hst] at hk
      obtain ⟨t, tr, hal, hrun, hresp, hp⟩ := ih hk
      refine ⟨t, u.events ++ tr, ⟨⟨hr, hs⟩, fun v hv => ?_⟩, runTrace_succ_some hst hrun, hresp, by simpa using hp⟩
      rw [hst] at hv
      obtain rfl := Host.Outcome.next.inj hv
      exact hal

theorem firstResponse_of_reaches {p : State → List Event → Bool} {i : Instr} {k : Nat} {s : State} (ha : Accepts i s)
    (h : reaches p k s [] = true) : ∃ t tr, FirstResponse i s k t tr ∧ p t tr = true := by
  obtain ⟨t, tr, hal, hrun, hresp, hp⟩ := run_of_reaches h
  exact ⟨t, tr, ⟨ha, hal, hrun, hresp⟩, by simpa using hp⟩

/-- Equal moves keep the inputs and the move and, with a quiet device, the conversion of a running count. -/
theorem along_still {m : EnvMove} (hm : m.device = .quiet) {k n : Nat} {s : State} {r : Raw} (hk : k ≤ n)
    (hi : s.inputs = m.inputs) (hs : s.script = List.replicate n m) (hr : s.dev.Holds r) :
    Along (fun u => u.inputs = m.inputs ∧ u.nextMove = m ∧ u.dev.Holds r) k s := by
  induction k generalizing s n with
  | zero => trivial
  | succ k ih =>
    obtain ⟨n, rfl⟩ : ∃ j, n = j + 1 := ⟨n - 1, by omega⟩
    have hnm : s.nextMove = m := by rw [State.nextMove, hs]; rfl
    refine ⟨⟨hi, hnm, hr⟩, fun t ht => ?_⟩
    obtain ⟨ti, tsc, -, -⟩ := step_script ht
    refine ih (n := n) (by omega) (ti.trans (by rw [hnm])) (by rw [tsc, hs]; rfl) ?_
    have key : ∀ u : State, u.script = s.script → u.draws = s.draws → u.dev.Holds r → u.advance.dev.Holds r := by
      intro u h1 h2 hu
      have nm : u.nextMove = m := by rw [← hnm, State.nextMove, State.nextMove, h1, h2]
      rw [advance_dev, nm]
      exact State.deviceAfter_of (P := Device.Holds r) u m (Device.observe_holds hu)
        (fun d _ hn => absurd (Device.stray_pulses _ d) hn) (fun _ _ hn => absurd rfl hn) (fun d hd => by rw [hm]; exact hd)
    rcases step_inv ht with ⟨-, rfl⟩ | ⟨-, u, mv, rfl⟩
    · exact key _ rfl rfl (Device.engineReset_holds hr)
    · obtain ⟨-, -, hd, h1, h2⟩ := mv.environment
      exact key u h1 h2 (by rw [hd]; exact hr)

/-! ## Witnesses: encodings, steps, acceptance, phases -/

theorem witness_DecodeFollowsTheOpcodeTable : decode 0x0200000001 = .ok (.setPower true) := by decide

theorem witness_ReservedWordsAreAnswered :
    (State.reset.withFetchWord 40 0x0700000000).inputs.rst = false ∧
    (State.reset.withFetchWord 40 0x0700000000).eng.seq = .idle ∧
    (State.reset.withFetchWord 40 0x0700000000).inputs.cmdValid = true ∧
    ∃ e, decode (State.reset.withFetchWord 40 0x0700000000).inputs.cmdWord = .error e :=
  ⟨rfl, rfl, rfl, .opcode 0x07, by decide⟩

theorem witness_StepRunsTheDecodedCommand :
    (ready.withFetchWord 40 0x0600000000).inputs.rst = false ∧ (ready.withFetchWord 40 0x0600000000).eng.seq = .idle ∧
    (ready.withFetchWord 40 0x0600000000).inputs.cmdValid = true ∧
    decode (ready.withFetchWord 40 0x0600000000).inputs.cmdWord = .ok .read := by decide

/-- Every command has a phase in progress. -/
theorem witness_StepContinuesTheLatchedCommand :
    (∀ i ∈ [Instr.init 2, .setGain 0, .waitReady 5],
      (during i .wCheck).inputs.rst = false ∧ InOperation i (during i .wCheck)) ∧
    InOperation (.setPower true) (during (.setPower true) .pHold) ∧ InOperation .isReady (during .isReady .rCheck) ∧
    InOperation .read (during .read .sSample) := by
  unfold InOperation
  decide

theorem witness_EngineWaitsForTheHost : State.reset.inputs.rst = false ∧
    (State.reset.eng.seq = .idle ∧ State.reset.inputs.cmdValid = false) ∧
    ((inPhase .resp).eng.seq = .resp ∧ (inPhase .resp).inputs.rspReady = false) := by decide

/-- A response to a reserved word, about to be taken. -/
theorem witness_ResponseIsPresentedAndTaken :
    let s : State := { acceptReserved 0x0700000000 ready with inputs := { inputsAtReset with rspReady := true } }
    s.eng.seq = .resp ∧ s.inputs.rspReady = true ∧ s.inputs.rst = false := by decide

theorem witness_ResetInputResetsTheEngineOnly :
    ({ inPhase .sHi with inputs := { inputsAtReset with rst := true } } : State).inputs.rst = true ∧
    cutsFrame ({ inPhase .rCheck with inputs := { inputsAtReset with rst := true } } : State).eng.seq = false := by decide

/-- Both sides of the validity bound (R92). -/
theorem witness_GainCommandsAreValidatedFirst : State.reset.eng.seq = .idle ∧ gainOperand 2 = some .a64 ∧
    ¬ (3 : Word).toNat < 3 := by decide

theorem witness_PlainCommandsAreAccepted : State.reset.eng.seq = .idle := by decide

theorem witness_ReadIsAcceptedOnceGainIsWritten : ready.eng.seq = .idle ∧ ready.eng.gain = some .a64 ∧
    State.reset.eng.seq = .idle ∧ State.reset.eng.gain = none := by decide

/-- Each phase is the phase of some state, and the two configuration results are possible in it. -/
theorem witness_ConfigurationPhases : ∀ p ∈ [Phase.iCfgData, .iCfgClk], (inPhase p).eng.seq = p ∧
    (inPhase p).inputs.cfg = .ok ∧
    ({ inPhase p with inputs := { inputsAtReset with cfg := .fail ⟨0x102, by decide⟩ } } : State).inputs.cfg =
      .fail ⟨0x102, by decide⟩ := by decide

theorem witness_PowerPhases : (inPhase .pSet).eng.seq = .pSet ∧ (inPhase .pHold).eng.seq = .pHold := by decide

/-- The three outcomes of the looks at the line and at the clock, at the bound and just below it. -/
theorem witness_WaitPhases : (inPhase .wStart).eng.seq = .wStart ∧ (inPhase .wYield).eng.seq = .wYield ∧
    ((inPhase .wCheck).eng.seq = .wCheck ∧ (inPhase .wCheck).dataLevel = true) ∧
    ({ inPhase .wCheck with inputs := { inputsAtReset with dout := false } } : State).dataLevel = false ∧
    ((atTimeCheck 0x20).eng.seq = .wTime ∧
      (atTimeCheck 0x20).eng.tmo.toNat ≤ ((atTimeCheck 0x20).nowMs - (atTimeCheck 0x20).eng.t0).toNat) ∧
    ((atTimeCheck 0x1F).eng.seq = .wTime ∧
      ((atTimeCheck 0x1F).nowMs - (atTimeCheck 0x1F).eng.t0).toNat < (atTimeCheck 0x1F).eng.tmo.toNat) := by decide

/-- The last data pulse and the one before it. -/
theorem witness_DataPulsePhases : (∀ p ∈ [Phase.sEnter, .sHi, .sHiHold, .sSample, .sLo, .sLoHold],
      (inPhase p).eng.seq = p) ∧
    (∀ i ∈ [(22 : BitVec 5), 23],
      ({ inPhase .sLoHold with eng := { (inPhase .sLoHold).eng with idx := i } } : State).eng.idx = i) := by decide

/-- The last gain pulse and the one before it. -/
theorem witness_GainPulsePhases : (∀ p ∈ [Phase.gHi, .gHiHold, .gLo, .gLoHold], (inPhase p).eng.seq = p) ∧
    (∀ n ∈ [(1 : BitVec 2), 2],
      ({ inPhase .gLoHold with eng := { (inPhase .gLoHold).eng with pcnt := n } } : State).eng.pcnt = n) := by decide

theorem witness_CompletionPhases : ∀ p ∈ [Phase.sExit, .xDecode, .xCommit], (inPhase p).eng.seq = p := by decide

theorem witness_IsReadyPhase : (inPhase .rCheck).eng.seq = .rCheck := by decide

theorem witness_EveryCommandStepsInEveryPhase :
    ¬ (Instr.read = .read ∧ ready.eng.seq = .idle ∧ ready.eng.gain = none) ∧
    (∃ t, exec .read ready = .next t) ∧ exec .read State.reset = .fault .readBeforeGain :=
  ⟨by decide, ⟨_, rfl⟩, rfl⟩

/-! ## Witnesses: frames and the whole machine -/

/-- Every command takes a step in every phase, so the frames speak of all of them. -/
theorem witness_frames (p : Phase) : (∃ t, exec (.init 2) (inPhase p) = .next t) ∧
    (∃ t, exec (.setPower true) (inPhase p) = .next t) ∧ (∃ t, exec (.setGain 1) (inPhase p) = .next t) ∧
    (∃ t, exec .isReady (inPhase p) = .next t) ∧ (∃ t, exec (.waitReady 5) (inPhase p) = .next t) ∧
    (∃ t, exec .read (inPhase p) = .next t) := by
  cases p <;> exact ⟨⟨_, rfl⟩, ⟨_, rfl⟩, ⟨_, rfl⟩, ⟨_, rfl⟩, ⟨_, rfl⟩, ⟨_, rfl⟩⟩

theorem witness_ReadinessCommandsFrame : (inPhase .wTime).eng.seq ∈ phasesOf (.waitReady 5) ∧
    (inPhase .rCheck).eng.seq ∈ phasesOf .isReady ∧ ready.eng.seq = .idle := by decide
theorem witness_SetPowerFrame : (inPhase .pHold).eng.seq ∈ phasesOf (.setPower true) ∧ ready.eng.seq = .idle := by decide
theorem witness_ReadFrame : (inPhase .xDecode).eng.seq ∈ phasesOf .read ∧ ready.eng.seq = .idle := by decide
theorem witness_GainCommandsFrame : (inPhase .xCommit).eng.seq ∈ phasesOf (.init 2) ∧
    (inPhase .xCommit).eng.seq ∈ phasesOf (.setGain 2) ∧ ready.eng.seq = .idle := by decide

/-- A machine in the middle of READ's sixth data pulse, at its sample. -/
def sampling : State :=
  { during .read .sSample with
    eng := { (during .read .sSample).eng with mode := .critical, idx := 5, sg := .a64, acc := 0xA80000 }
    pins := { sck := true, dirData := .input, dirClk := .output }
    dev := { Device.atReset with pending := true, clk := true, levelNs := 1000, pulses := some 5 } }

theorem sampling_inv : SequencerInv sampling where
  mode_critical_iff := by decide
  idx_le := by decide
  pcnt_range := by decide
  in_operation := fun _ _ => ⟨.read, by unfold InOperation; decide⟩
  sg_is_gain := by decide
  sg_is_operand := by decide
  tmo_is_bound := by decide
  sck_high := by decide
  sck_low := by decide
  acc_unsampled := by
    intro _ _ _ j hj
    have h : j < 18 := hj
    interval_cases j <;> decide
  acc_current := by decide
  data_configured := by decide
  configured := by decide
  error_datum := by decide
  device_counts := by
    intro c h
    obtain rfl : 5 = c := Option.some.inj h
    decide
  device_unready := by intro h; cases h
  device_sees_sck := by decide
  power_down_is_high := by decide

theorem witness_EveryStepKeepsTheInvariant : SequencerInv sampling ∧ ∃ t, step sampling = .next t :=
  ⟨sampling_inv, _, rfl⟩

/-- The steps that do change GAIN, SCK, MODE and the directions. -/
theorem witness_OnlyTheNamedPhasesWrite :
    (∃ t, step (State.reset.withFetchWord 40 0x0100000002) = .next t ∧ t.eng.gain ≠ none) ∧
    (∃ t, step (during (.setGain 0) .xCommit) = .next t ∧ t.eng.gain ≠ (during (.setGain 0) .xCommit).eng.gain) ∧
    (∃ t, step (during (.setPower true) .pSet) = .next t ∧ t.pins.sck ≠ false) ∧
    (∃ t, step (during .read .sEnter) = .next t ∧ t.eng.mode ≠ .normal) ∧
    (∃ t, step { during (.init 0) .iCfgData with pins := Pins.reset } = .next t ∧ t.pins.dirData ≠ .unconfigured) ∧
    (∃ t, step { during (.init 0) .iCfgClk with pins := Pins.reset } = .next t ∧ t.pins.dirClk ≠ .unconfigured) :=
  ⟨⟨_, rfl, by decide⟩, ⟨_, rfl, by decide⟩, ⟨_, rfl, by decide⟩, ⟨_, rfl, by decide⟩, ⟨_, rfl, by decide⟩,
    ⟨_, rfl, by decide⟩⟩

/-- A CRITICAL state that meets the invariant takes a step; a step with a DelayUs and one with a CoarseDelay exist. -/
theorem witness_CriticalSectionAdmitsOnlyShiftEvents : (SequencerInv sampling ∧ sampling.inputs.rst = false ∧
      sampling.eng.mode = .critical ∧ ∃ t, step sampling = .next t ∧ .r true ∈ t.events) ∧
    (∃ t, step (during .read .sHiHold) = .next t ∧ .us 1 ∈ t.events) ∧
    (∃ t, step (during (.waitReady 5) .wYield) = .next t ∧ .tick ∈ t.events) :=
  ⟨⟨sampling_inv, rfl, rfl, _, rfl, by decide⟩, ⟨_, rfl, by decide⟩, ⟨_, rfl, by decide⟩⟩

/-- A step into RESP with each status, and a step that stays out of it. -/
theorem witness_ErrorsAriseOnlyInTheirPhases :
    (∃ t, step (ready.withFetchWord 40 0x0300000003) = .next t ∧ t.eng.seq = .resp ∧
      t.eng.rspStatus = .invalidArgument) ∧
    (∃ t, step (atTimeCheck 0x20) = .next t ∧ t.eng.seq = .resp ∧ t.eng.rspStatus = .timeout) ∧
    (∃ t, step { during (.init 0) .iCfgClk with inputs := { inputsAtReset with cfg := .fail ⟨0x102, by decide⟩ } } =
      .next t ∧ t.eng.seq = .resp ∧ t.eng.rspStatus = .pinFailure) ∧
    (∃ t, step (during .read .xDecode) = .next t ∧ t.eng.seq = .resp ∧ t.eng.rspStatus = .ok) ∧
    (∃ t, step (inPhase .resp) = .next t ∧ t.eng.seq = .resp) :=
  ⟨⟨_, rfl, by decide⟩, ⟨_, rfl, by decide⟩, ⟨_, rfl, by decide⟩, ⟨_, rfl, by decide⟩, ⟨_, rfl, by decide⟩⟩

theorem witness_BusyEngineIgnoresTheHost : sampling.eng.seq ≠ .idle ∧ sampling.eng.seq ≠ .resp := by decide

/-! ## Witnesses: arithmetic -/

theorem witness_DecodeSignExtends : decodeSample 0xFFFFFF = decodeSample 0xFFFFFF := rfl

theorem witness_SamplesAreAssembledMsbFirst : (List.replicate 24 true).length = 24 ∧
    23 < (List.replicate 24 true).length := by decide

/-- A wait across the counter's wrap (S7), and the longest one allowed. -/
theorem witness_ElapsedTimeIsWraparoundSafe :
    (2 ^ 32 - 16 ≤ 2 ^ 32 + 16 ∧ 2 ^ 32 + 16 - (2 ^ 32 - 16) < 2 ^ 32) ∧
    (0 ≤ 2 ^ 32 - 1 ∧ 2 ^ 32 - 1 - 0 < 2 ^ 32) := by decide

/-! ## Witnesses: whole operations -/

theorem witness_ShiftEmitsItsFrame : ∃ s : State, s.eng.seq = .sEnter ∧
    Along NoReset (126 + 4 * (codeOf s.eng.sg).toNat) s :=
  ⟨{ during .read .sEnter with script := List.replicate 126 (still false 0) }, rfl,
    Along.of_script (Q := fun i => i.rst = false) rfl
      (fun m hm => by rw [List.eq_of_mem_replicate hm]; rfl) (by simp [during, ready, Engine.reset, codeOf])⟩

theorem witness_ReadAnswersTheDecodedSample : ∃ s : State, Accepts .read s ∧ s.eng.gain = some .a64 ∧
    Along NoReset (128 + 4 * (codeOf .a64).toNat) s :=
  ⟨presented .read (still true 0) 136, by decide, rfl,
    Along.of_script (Q := fun i => i.rst = false) rfl
      (fun m hm => by rw [List.eq_of_mem_replicate hm]; rfl) (by simp [presented, codeOf])⟩

theorem witness_IsReadyAnswersTheLine : ∃ s : State, Accepts .isReady s ∧ s.pins.dirData = .input ∧
    Along NoReset 2 s :=
  ⟨presented .isReady (still false 0) 2, by decide, rfl,
    Along.of_script (Q := fun i => i.rst = false) rfl
      (fun m hm => by rw [List.eq_of_mem_replicate hm]; rfl) (by simp [presented])⟩

theorem witness_SetPowerDrivesTheClock : ∃ s : State, Accepts (.setPower true) s ∧ Along NoReset 3 s :=
  ⟨presented (.setPower true) (still false 0) 3, by decide,
    Along.of_script (Q := fun i => i.rst = false) rfl
      (fun m hm => by rw [List.eq_of_mem_replicate hm]; rfl) (by simp [presented])⟩

theorem witness_GainCommandsCommitOnAReadyLine : gainOperand 2 = some .a64 ∧
    (∃ s : State, Accepts (.setGain 2) s ∧ s.pins.dirData = .input ∧
      Along (fun u => NoReset u ∧ (u.eng.seq = .wCheck → u.inputs.dout = false)) (130 + 4 * (codeOf .a64).toNat) s) ∧
    (∃ s : State, Accepts (.init 2) s ∧
      Along (fun u => NoReset u ∧ (u.eng.seq = .iCfgData ∨ u.eng.seq = .iCfgClk → u.inputs.cfg = .ok) ∧
        (u.eng.seq = .wCheck → u.inputs.dout = false)) (134 + 4 * (codeOf .a64).toNat) s) := by
  have al : ∀ (i : Instr) (k : Nat), k ≤ 142 →
      Along (fun u => u.inputs.rst = false ∧ u.inputs.cfg = .ok ∧ u.inputs.dout = false) k
        (presented i (still false 0) 142) := fun i k hk =>
    Along.of_script (Q := fun i => i.rst = false ∧ i.cfg = .ok ∧ i.dout = false) ⟨rfl, rfl, rfl⟩
      (fun m hm => by rw [List.eq_of_mem_replicate hm]; exact ⟨rfl, rfl, rfl⟩) (by simp [presented]; omega)
  refine ⟨by decide, ⟨presented (.setGain 2) (still false 0) 142, by decide, rfl, ?_⟩,
    ⟨presented (.init 2) (still false 0) 142, by decide, ?_⟩⟩
  · exact (al _ _ (by decide)).mono fun u h => ⟨h.1, fun _ => h.2.2⟩
  · exact (al _ _ (by decide)).mono fun u h => ⟨h.1, fun _ => h.2.1, fun _ => h.2.2⟩

/-- A first response of each kind: OK of every command, InvalidArgument, Timeout of all three waits. -/
theorem witness_SequencerRefinesTheProcedures :
    (∃ t tr, FirstResponse .isReady (presented .isReady (still false 0) 2) 2 t tr) ∧
    (∃ t tr, FirstResponse (.setPower true) (presented (.setPower true) (still false 0) 3) 3 t tr) ∧
    (∃ t tr, FirstResponse .read (presented .read (still true 0) 136) 136 t tr) ∧
    (∃ t tr, FirstResponse (.setGain 3) (presented (.setGain 3) (still false 0) 1) 1 t tr ∧
      t.eng.rspStatus = .invalidArgument) := by
  have run : ∀ (i : Instr) (m : EnvMove) (k : Nat) (q : State → Bool), Accepts i (presented i m k) →
      reaches (fun t _ => q t) k (presented i m k) [] = true →
      ∃ t tr, FirstResponse i (presented i m k) k t tr ∧ q t = true := fun i m k q ha h => firstResponse_of_reaches ha h
  refine ⟨?_, ?_, ?_, ?_⟩
  · obtain ⟨t, tr, h, -⟩ := run .isReady (still false 0) 2 (fun _ => true) (by decide) (by decide); exact ⟨t, tr, h⟩
  · obtain ⟨t, tr, h, -⟩ := run (.setPower true) (still false 0) 3 (fun _ => true) (by decide) (by decide)
    exact ⟨t, tr, h⟩
  · obtain ⟨t, tr, h, -⟩ := run .read (still true 0) 136 (fun _ => true) (by decide) (by decide); exact ⟨t, tr, h⟩
  · obtain ⟨t, tr, h, hq⟩ := run (.setGain 3) (still false 0) 1 (fun t => t.eng.rspStatus = .invalidArgument) (by decide)
      (by decide)
    exact ⟨t, tr, h, by simpa using hq⟩

/-- The waits and INIT: each ends OK and in Timeout. -/
theorem witness_OperationsTakeTheStatedSteps :
    (∃ t tr, FirstResponse (.waitReady 5) (presented (.waitReady 5) (still false 0) 3) 3 t tr ∧
      t.eng.rspStatus = .ok) ∧
    (∃ t tr, FirstResponse (.waitReady 0) (presented (.waitReady 0) (still true 0) 5) 5 t tr ∧
      t.eng.rspStatus = .timeout) ∧
    (∃ t tr, FirstResponse (.setGain 2) (presented (.setGain 2) (still false 0) 138) 138 t tr ∧
      t.eng.rspStatus = .ok) ∧
    (∃ t tr, FirstResponse (.init 2) (presented (.init 2) (still false 0) 142) 142 t tr ∧ t.eng.rspStatus = .ok) := by
  have run : ∀ (i : Instr) (m : EnvMove) (k : Nat) (st : Status), Accepts i (presented i m k) →
      reaches (fun t _ => decide (t.eng.rspStatus = st)) k (presented i m k) [] = true →
      ∃ t tr, FirstResponse i (presented i m k) k t tr ∧ t.eng.rspStatus = st := by
    intro i m k st ha h
    obtain ⟨t, tr, hf, hq⟩ := firstResponse_of_reaches ha h
    exact ⟨t, tr, hf, by simpa using hq⟩
  exact ⟨run _ _ _ _ (by decide) (by decide), run _ _ _ _ (by decide) (by decide),
    run _ _ _ _ (by decide) (by decide), run _ _ _ _ (by decide) (by decide)⟩

theorem witness_TimedOutSetGainKeepsGainAndPins :
    ∃ t tr, FirstResponse (.setGain 1) (presented (.setGain 1) (still true 200) 5) 5 t tr ∧
      t.eng.rspStatus = .timeout := by
  obtain ⟨t, tr, hf, hq⟩ := firstResponse_of_reaches (p := fun t _ => decide (t.eng.rspStatus = .timeout))
    (i := .setGain 1) (k := 5) (s := presented (.setGain 1) (still true 200) 5) (by decide) (by decide)
  exact ⟨t, tr, hf, by simpa using hq⟩

/-- An INIT that fails at the first configuration, at the second, and by Timeout. -/
theorem witness_FailedInitKeepsWhatWasDone : gainOperand 1 = some .b32 ∧
    (∃ s k t tr, FirstResponse (.init 1) s k t tr ∧ k = 2 ∧ t.eng.rspStatus = .pinFailure) ∧
    (∃ s k t tr, FirstResponse (.init 1) s k t tr ∧ k = 3 ∧ t.eng.rspStatus = .pinFailure) ∧
    (∃ s k t tr, FirstResponse (.init 1) s k t tr ∧ t.eng.rspStatus = .timeout) := by
  have run : ∀ (s : State) (k : Nat) (st : Status), Accepts (.init 1) s →
      reaches (fun t _ => decide (t.eng.rspStatus = st)) k s [] = true →
      ∃ t tr, FirstResponse (.init 1) s k t tr ∧ t.eng.rspStatus = st := by
    intro s k st ha h
    obtain ⟨t, tr, hf, hq⟩ := firstResponse_of_reaches ha h
    exact ⟨t, tr, hf, by simpa using hq⟩
  let bad : EnvMove := { still true 0 with inputs := { inputsAtReset with cfg := .fail ⟨7, by decide⟩ } }
  obtain ⟨t1, tr1, h1, q1⟩ := run (presented (.init 1) bad 2) 2 .pinFailure (by decide) (by decide)
  obtain ⟨t2, tr2, h2, q2⟩ := run
    { presented (.init 1) (still true 0) 0 with script := [still true 0, bad, bad] } 3 .pinFailure (by decide) (by decide)
  obtain ⟨t3, tr3, h3, q3⟩ := run (presented (.init 1) (still true 200) 9) 9 .timeout (by decide) (by decide)
  exact ⟨by decide, ⟨_, _, t1, tr1, h1, rfl, q1⟩, ⟨_, _, t2, tr2, h2, rfl, q2⟩, ⟨_, _, t3, tr3, h3, q3⟩⟩

theorem witness_NeverReadyIsAnsweredTimeout :
    ∃ t tr, FirstResponse (.waitReady 0) (presented (.waitReady 0) (still true 0) 5) 5 t tr ∧
      ∀ b, .r b ∈ tr → b = true := by
  obtain ⟨t, tr, hf, hq⟩ := firstResponse_of_reaches (p := fun _ tr => !tr.contains (.r false))
    (i := .waitReady 0) (k := 5) (s := presented (.waitReady 0) (still true 0) 5) (by decide) (by decide)
  refine ⟨t, tr, hf, fun b hb => ?_⟩
  cases b with
  | true => rfl
  | false =>
    rw [Bool.not_eq_true', List.contains_eq_mem, decide_eq_false_iff_not] at hq
    exact absurd hb hq

theorem witness_WaitReadyEndsWhenTheClockAdvances : ∃ s : State, Accepts (.waitReady 2) s ∧
    (2 : Word).toNat + 3 * 1 < 2 ^ 32 ∧
    Along (fun u => NoReset u ∧ (u.eng.seq = .wYield → 1 ≤ u.nextMove.msPassed) ∧ u.nextMove.msPassed ≤ 1)
      (3 * (2 : Word).toNat + 5) s :=
  ⟨presented (.waitReady 2) (still true 1) 11, by decide, by decide,
    along_of_alongB (p := fun u => !u.inputs.rst && decide (u.nextMove.msPassed = 1))
      (fun u h => by
        simp only [Bool.and_eq_true, Bool.not_eq_true', decide_eq_true_eq] at h
        exact ⟨h.1, fun _ => by omega, by omega⟩) (by decide)⟩

/-- The states of a run, one after the other. -/
def course (s : State) : Nat → State
  | 0 => s
  | n + 1 => match step (course s n) with | .next t => t | _ => course s n

/-- A wait with bound 0 on a high line: one round, then Timeout. The sequence stays at the response. -/
theorem witness_EveryWaitEndsUnderProgress : ∃ r : Nat → State, WaitRun r ∧ Progress r := by
  let s : State := { during (.waitReady 0) .wStart with script := List.replicate 4 (still true 1) }
  have h4 : (course s 4).eng.seq = .resp := by decide
  have hr : ∀ j, j < 4 → (course s j).inputs.rst = false := by decide
  have hw : ∀ j, 4 ≤ j → waitPhase (course s (min j 4)).eng.seq = false := by
    intro j h; rw [Nat.min_eq_right h, h4]; rfl
  refine ⟨fun j => course s (min j 4), ⟨rfl, fun j hj => ?_⟩, fun h => ?_⟩
  · have hlt : j < 4 := by
      by_contra hc
      have := hw j (by omega)
      simp_all
    show NoReset (course s (min j 4)) ∧ step (course s (min j 4)) = .next (course s (min (j + 1) 4))
    change waitPhase (course s (min j 4)).eng.seq = true at hj
    rw [Nat.min_eq_left (by omega)] at hj ⊢
    rw [Nat.min_eq_left (by omega)]
    have hb : step (course s j) = .next _ := step_busy (hr j hlt) (by intro h; rw [h] at hj; cases hj)
    refine ⟨hr j hlt, ?_⟩
    rw [course, hb]
  · have : waitPhase (course s 4).eng.seq = true := h 4
    rw [h4] at this
    cases this

/-! ## Witnesses: the device and the platform -/

/-- A machine about to shift, with a ready device that holds the result 0. -/
def aboutToShift (n : Nat) : State :=
  { during .read .sEnter with
    inputs := (still false 0).inputs
    dev := { Device.atReset with pending := true, pulses := some 0 }
    script := List.replicate n (still false 0) }

theorem aboutToShift_along (n k : Nat) (hk : k ≤ n) :
    Along (fun u => NoReset u ∧ PlatformKeepsBounds u ∧ DeviceKeepsItsConversion u ∧ DataOutput u) k (aboutToShift n) :=
  (along_still (m := still false 0) (r := 0) rfl hk rfl rfl (fun _ => ⟨rfl, rfl⟩)).mono fun u h => by
    obtain ⟨hi, hm, hr⟩ := h
    refine ⟨by rw [NoReset, hi]; rfl, fun _ => ⟨?_, ?_, by rw [hm]; rfl⟩, ⟨by rw [hm]; simp [still], fun _ => by rw [hm]; rfl⟩, fun i hp _ _ _ => ?_⟩
    · rw [hi]; exact Nat.zero_le _
    · rw [hi]; decide
    · rw [hi, (hr (by rw [hp]; simp)).1]; simp [still]

theorem witness_SoundFrameLatchesTheSelection : ∃ s : State, s.eng.seq = .sEnter ∧ s.pins.dirClk = .output ∧
    s.dev.pending = true ∧ s.dev.pulses = some 0 ∧ s.dev.pwr = .on ∧ s.dev.clk = false ∧ s.dev.disturbed = false ∧
    Along (fun u => NoReset u ∧ PlatformKeepsBounds u ∧ DeviceKeepsItsConversion u)
      (126 + 4 * (codeOf s.eng.sg).toNat) s :=
  ⟨aboutToShift 126, rfl, rfl, rfl, rfl, rfl, rfl, rfl,
    (aboutToShift_along 126 126 (le_refl _)).mono fun _ h => ⟨h.1, h.2.1, h.2.2.1⟩⟩

theorem witness_ReadAnswersTheDeviceConversion : ∃ s : State, InOperation .read s ∧ s.eng.seq = .sEnter ∧
    s.eng.sg = .a128 ∧ s.pins.dirData = .input ∧ s.pins.dirClk = .output ∧ s.dev.pending = true ∧
    s.dev.pulses = some 0 ∧ s.dev.pwr = .on ∧ s.dev.clk = false ∧ s.dev.disturbed = false ∧
    Along (fun u => NoReset u ∧ PlatformKeepsBounds u ∧ DeviceKeepsItsConversion u ∧ DataOutput u)
      (127 + 4 * (codeOf .a128).toNat) s :=
  ⟨aboutToShift 127, by unfold InOperation; decide, rfl, rfl, rfl, rfl, rfl, rfl, rfl, rfl, rfl,
    aboutToShift_along 127 127 (le_refl _)⟩

/-- The machine of `presented`, in IDLE, meets the invariant. -/
theorem presented_inv (i : Instr) (m : EnvMove) (n : Nat) : SequencerInv (presented i m n) where
  mode_critical_iff := by simp [presented, ready, Engine.reset, inCriticalPhase]
  idx_le := by simp [presented, ready, Engine.reset]
  pcnt_range := by intro h; cases h
  in_operation := fun h => absurd rfl h
  sg_is_gain := fun h => absurd rfl h
  sg_is_operand := fun h => absurd rfl h
  tmo_is_bound := by intro h; cases h
  sck_high := by intro h; cases h
  sck_low := by intro h; cases h
  acc_unsampled := by intro h; cases h
  acc_current := by rintro (h | h | h) <;> cases h
  data_configured := by intro h; cases h
  configured := by intro _ h; cases h
  error_datum := by intro h; cases h
  device_counts := by intro c h; cases h
  device_unready := fun _ _ _ => rfl
  device_sees_sck := fun _ => rfl
  power_down_is_high := by intro h; cases h

/-- For each of the two clauses. -/
theorem witness_PowerFollowsTheClockLevel (down : Bool) : ∃ s : State, SequencerInv s ∧ Accepts (.setPower down) s ∧
    s.pins.dirClk = .output ∧ Along (fun u => NoReset u ∧ CoarseDelayReachesPowerDown u) 3 s := by
  let slow : EnvMove := { still false 1 with inputs := { inputsAtReset with overrunNs := 60000 } }
  refine ⟨presented (.setPower down) slow 3, presented_inv _ _ _, by cases down <;> decide, rfl, ?_⟩
  exact (Along.of_script (Q := fun i => i.rst = false ∧ 60000 ≤ i.overrunNs) ⟨rfl, le_refl _⟩
    (fun m hm => by rw [List.eq_of_mem_replicate hm]; exact ⟨rfl, le_refl _⟩) (by simp [presented])).mono
    fun u h => ⟨h.1, fun _ => le_trans h.2 (Nat.le_add_left _ _)⟩

theorem witness_IsReadyTellsWhetherAConversionIsAvailable : ∃ s : State, s.eng.seq = .rCheck ∧ s.eng.mode = .normal ∧
    s.pins.dirData = .input ∧ s.dev.pwr = .on ∧ s.dev.midShift = false ∧ ReadyConvention s :=
  ⟨inPhase .rCheck, rfl, rfl, rfl, rfl, rfl, fun _ _ _ => rfl⟩

/-- A reset in the middle of a frame, and a step of a device disturbed before. -/
theorem witness_CutFrameDisturbsTheDevice : (∃ s : State, s.inputs.rst = true ∧ cutsFrame s.eng.seq = true ∧
      s.dev.pwr = .on) ∧
    ∃ s t : State, step s = .next t ∧ s.dev.disturbed = true ∧ s.dev.pulses = none ∧ s.dev.pwr = .on :=
  ⟨⟨{ sampling with inputs := { inputsAtReset with rst := true } }, rfl, rfl, rfl⟩,
    { sampling with dev := { sampling.dev with disturbed := true, pulses := none } }, _, rfl, rfl, rfl, rfl⟩

/-- The last hold of a frame, and a delay inside one. -/
theorem witness_BrokenBoundDisturbsTheDevice :
    (∃ s u : State, s.inputs.rst = false ∧ engineStep s = .next u ∧
      ∃ n, .us n ∈ u.events ∧ 2000 ≤ 1000 * n + s.inputs.overrunNs) ∧
    ∃ s u : State, s.inputs.rst = false ∧ engineStep s = .next u ∧ u.eng.mode = .critical ∧ s.nextMove.gapNs ≠ 0 :=
  ⟨⟨{ inPhase .gLoHold with inputs := { inputsAtReset with overrunNs := 1000 } }, _, rfl, rfl, 1, by decide, by decide⟩,
    { sampling with script := [{ still false 1 with gapNs := 1 }] }, _, rfl, rfl, rfl, by decide⟩

/-- In the middle of a frame; and between two frames, right after the last hold of the first. -/
theorem witness_ReadyBeginsTheCountOutsideAFrame :
    (∃ s u : State, s.inputs.rst = false ∧ engineStep s = .next u ∧ s.nextMove.device = .complete 5 ∧
      u.midFrame = true) ∧
    ∃ s u : State, s.inputs.rst = false ∧ engineStep s = .next u ∧ s.nextMove.device = .complete 5 ∧
      u.midFrame = false ∧ u.keepsBounds s.nextMove = true ∧
      let d := s.dev.observe u.draws u.clkWire (u.stepNs + s.nextMove.gapNs)
      d.levelNs = 1000 ∧ d.pwr = .on ∧ d.disturbed = false ∧ d.partShifted = false :=
  ⟨⟨{ sampling with script := [{ still false 1 with device := .complete 5 }] }, _, rfl, rfl, rfl, rfl⟩,
    { during .read .sExit with
      dev := { counted 25 with levelNs := 1000 }
      script := [{ still false 1 with device := .complete 5 }] }, _, rfl, rfl, rfl, rfl, rfl, rfl, rfl, rfl, rfl⟩

/-- A step that disturbs an undisturbed device: a conversion finished in the middle of a frame. -/
theorem witness_EdgesAloneDisturbNoDevice : ∃ s t : State, s.inputs.rst = false ∧ step s = .next t ∧
    s.dev.disturbed = false ∧ t.dev.disturbed = true :=
  ⟨{ sampling with script := [{ still false 1 with device := .complete 5 }] }, _, rfl, rfl, rfl, rfl⟩

/-- A conversion withdrawn in the middle of a frame, one finished there; and a look at the line and a look at
the clock, two different steps without a delay, on one device. -/
theorem witness_DeviceActsOnTheWireOnly :
    (∃ s u : State, s.inputs.rst = false ∧ engineStep s = .next u ∧ u.midFrame = true ∧
      u.keepsFrame u.nextMove = true ∧ u.strayEdge = false ∧ u.nextMove.device = .withdraw) ∧
    (∃ s u : State, s.inputs.rst = false ∧ engineStep s = .next u ∧ u.midFrame = true ∧
      u.nextMove.device = .complete 5 ∧ u.advance.dev.pwr = .on) ∧
    ∃ s s' u u' : State, s.inputs.rst = false ∧ s'.inputs.rst = false ∧
      engineStep s = .next u ∧ engineStep s' = .next u' ∧ u.keepsFrame u.nextMove = true ∧
      u'.keepsFrame u'.nextMove = true ∧ u.strayEdge = false ∧ u'.strayEdge = false ∧ s'.dev = s.dev ∧ u'.clkWire = u.clkWire ∧ u'.draws = u.draws ∧
      u'.stepNs + u'.nextMove.gapNs = u.stepNs + u.nextMove.gapNs ∧ u'.nextMove.device = u.nextMove.device :=
  ⟨⟨{ sampling with script := [{ still false 1 with device := .withdraw }] }, _, rfl, rfl, rfl, rfl, rfl, rfl⟩,
    ⟨{ sampling with script := [{ still false 1 with device := .complete 5 }] }, _, rfl, rfl, rfl, rfl, rfl⟩,
    inPhase .rCheck, during (.waitReady 5) .wStart, _, _, rfl, rfl, rfl, rfl, rfl, rfl, rfl, rfl, rfl, rfl, rfl, rfl, rfl⟩

end Sys2Proof.Tests
end

/-! PROOFS. The statements on the engine's registers: the invariant of the sequencer (O27, O28), the frames of the
commands (O23 to O26), who writes what in the whole machine (O29), and the reset values (O11). -/

namespace Sys2Proof.Machine

open Sys2Proof

/-! ## The registers of the invariant, through one engine move -/

section

variable {s u : State}

/-- A table row that stays in or enters a working phase begins in one. -/
theorem TableMove.busy_before {op : BitVec 8} {arg : Word} (m : TableMove op arg s u) (hi : u.eng.seq ≠ .idle)
    (hr : u.eng.seq ≠ .resp) : s.eng.seq ≠ .idle ∧ s.eng.seq ≠ .resp := by
  cases m with
  | idle h => exact absurd h hi
  | respTaken => exact absurd rfl hi
  | respWaits h => exact absurd h hr
  | _ => simp_all

/-- SG is loaded at acceptance only (R181). -/
theorem TableMove.sg_eq {op : BitVec 8} {arg : Word} (m : TableMove op arg s u) : u.eng.sg = s.eng.sg := by
  cases m <;> rfl

/-- The table writes GAIN on the way into RESP only (R202). -/
theorem TableMove.gain_eq_of_not_resp {op : BitVec 8} {arg : Word} (m : TableMove op arg s u)
    (hr : u.eng.seq ≠ .resp) : u.eng.gain = s.eng.gain := by
  cases m with
  | xCommit => exact absurd rfl hr
  | _ => rfl

/-- READ and INIT load SG with GAIN, and nothing writes either before RESP (R157, R168). -/
theorem EngineMove.sg_is_gain (m : EngineMove s u)
    (h : s.eng.seq ≠ .idle → s.eng.seq ≠ .resp → s.eng.op = Opcode.read ∨ s.eng.op = Opcode.init →
      s.eng.gain = some s.eng.sg) :
    u.eng.seq ≠ .idle → u.eng.seq ≠ .resp → u.eng.op = Opcode.read ∨ u.eng.op = Opcode.init →
      u.eng.gain = some u.eng.sg := by
  intro hi hr ho
  cases m with
  | table _ _ m =>
    obtain ⟨hsi, hsr⟩ := m.busy_before hi hr
    rw [m.gain_eq_of_not_resp hr, m.sg_eq]
    exact h hsi hsr (m.command.1 ▸ ho)
  | accept _ _ _ _ _ m =>
    cases m with
    | init => rfl
    | read g hg => exact hg
    | initInvalid | setGainInvalid => exact absurd rfl hr
    | setPower | setGain | isReady | waitReady =>
      simp [Opcode.init, Opcode.setPower, Opcode.setGain, Opcode.isReady, Opcode.waitReady, Opcode.read] at ho
  | reserved => exact absurd rfl hr

/-- INIT and SET_GAIN load SG with their operand, which stays latched (R157, R163). -/
theorem EngineMove.sg_is_operand (m : EngineMove s u)
    (h : s.eng.seq ≠ .idle → s.eng.seq ≠ .resp → s.eng.op = Opcode.setGain ∨ s.eng.op = Opcode.init →
      gainOperand s.eng.arg = some s.eng.sg) :
    u.eng.seq ≠ .idle → u.eng.seq ≠ .resp → u.eng.op = Opcode.setGain ∨ u.eng.op = Opcode.init →
      gainOperand u.eng.arg = some u.eng.sg := by
  intro hi hr ho
  cases m with
  | table _ _ m =>
    obtain ⟨hsi, hsr⟩ := m.busy_before hi hr
    obtain ⟨hop, harg⟩ := m.command
    rw [harg, m.sg_eq]
    exact h hsi hsr (hop ▸ ho)
  | accept _ _ _ _ _ m =>
    cases m with
    | init _ _ hg | setGain _ _ hg => exact hg
    | initInvalid | setGainInvalid => exact absurd rfl hr
    | setPower | isReady | waitReady | read =>
      simp [Opcode.init, Opcode.setPower, Opcode.setGain, Opcode.isReady, Opcode.waitReady, Opcode.read] at ho
  | reserved => exact absurd rfl hr

/-- A wait begins with its bound in TMO, and no phase of it writes TMO (R25, R181, R185). -/
theorem EngineMove.tmo_is_bound (m : EngineMove s u)
    (h : waitPhase s.eng.seq = true →
      s.eng.tmo = if s.eng.op = Opcode.waitReady then s.eng.arg else Config.tGainWaitMs) :
    waitPhase u.eng.seq = true →
      u.eng.tmo = if u.eng.op = Opcode.waitReady then u.eng.arg else Config.tGainWaitMs := by
  cases m with
  | table _ _ m =>
    cases m with
    | idle | respWaits => exact h
    | pHoldInit _ ho => intro _; simp [ho, Opcode.init, Opcode.waitReady]
    | wStart hq | wCheckHigh hq | wYield hq | wTimeAgain hq => intro _; exact h (by simp [hq, waitPhase])
    | _ => simp [waitPhase]
  | accept _ _ _ _ _ m =>
    cases m with
    | setGain => intro _; rfl
    | waitReady => intro _; rfl
    | _ => simp [waitPhase]
  | reserved => simp [waitPhase]

/-- ACC has zeros below the bit being sampled, and in S_HI to S_SAMPLE at that bit too (R122, R128 (d)): the two
clauses of the invariant on ACC, which keep each other. -/
structure State.AccOk (s : State) : Prop where
  unsampled : inCriticalPhase s.eng.seq = true → gainPhase s.eng.seq = false → s.eng.seq ≠ .sExit →
    ∀ j, j < 23 - s.eng.idx.toNat → s.eng.acc.getLsbD j = false
  current : s.eng.seq = .sHi ∨ s.eng.seq = .sHiHold ∨ s.eng.seq = .sSample →
    s.eng.acc.getLsbD (23 - s.eng.idx.toNat) = false

/-- Outside S_HI to S_LO_HOLD nothing is claimed of ACC. -/
theorem State.AccOk.of_no_data_phase
    (h : inCriticalPhase s.eng.seq = true → gainPhase s.eng.seq = false → s.eng.seq = .sExit)
    (hs : s.eng.seq ∉ [.sHi, .sHiHold, .sSample]) : s.AccOk :=
  ⟨fun hc hg hx => absurd (h hc hg) hx, fun hq => absurd hq (by simpa using hs)⟩

/-- IDX below 23 counts up by one. -/
theorem idx_succ_toNat {i : BitVec 5} (hle : i.toNat ≤ 23) (hne : i ≠ 23) :
    i.toNat < 23 ∧ (i + 1).toNat = i.toNat + 1 := by
  have h23 : i.toNat ≠ 23 := fun hc => hne (BitVec.eq_of_toNat_eq (by simpa using hc))
  exact ⟨by omega, by rw [BitVec.toNat_add]; simp; omega⟩

theorem TableMove.accOk {op : BitVec 8} {arg : Word} (m : TableMove op arg s u) (hidx : s.eng.idx.toNat ≤ 23)
    (h : s.AccOk) : u.AccOk := by
  obtain ⟨hu, hc⟩ := h
  cases m with
  | idle | respWaits => exact ⟨hu, hc⟩
  | sEnter => exact ⟨fun _ _ _ j _ => by simp, fun _ => by simp⟩
  | sHi hq | sHiHold hq =>
    exact ⟨fun _ _ _ => hu (by simp [hq, inCriticalPhase]) (by simp [hq, gainPhase]) (by simp [hq]),
      fun _ => hc (by simp [hq])⟩
  | sLo hq =>
    exact ⟨fun _ _ _ => hu (by simp [hq, inCriticalPhase]) (by simp [hq, gainPhase]) (by simp [hq]), by simp⟩
  | sSample hq =>
    refine ⟨fun _ _ _ j hj => ?_, by simp⟩
    have hj' : j < 23 - s.eng.idx.toNat := hj
    have hold := hu (by simp [hq, inCriticalPhase]) (by simp [hq, gainPhase]) (by simp [hq]) j hj'
    simp [orSample_getLsbD _ _ _ hidx, hold, hj'.ne]
  | sLoHoldMore hq hne =>
    obtain ⟨hlt, hsucc⟩ := idx_succ_toNat hidx hne
    have hold := hu (by simp [hq, inCriticalPhase]) (by simp [hq, gainPhase]) (by simp [hq])
    exact ⟨fun _ _ _ j hj => hold j (by simp only [hsucc] at hj; omega),
      fun _ => hold _ (by simp only [hsucc]; omega)⟩
  | _ => exact .of_no_data_phase (by simp [inCriticalPhase, gainPhase]) (by simp)

theorem AcceptMove.accOk {i : Instr} (m : AcceptMove s i u) : u.AccOk := by
  cases m <;> exact .of_no_data_phase (by simp [inCriticalPhase]) (by simp)

theorem EngineMove.accOk (m : EngineMove s u) (hidx : s.eng.idx.toNat ≤ 23) (h : s.AccOk) : u.AccOk := by
  cases m with
  | table _ _ m => exact m.accOk hidx h
  | accept _ _ _ _ _ m => exact m.accOk
  | reserved => exact .of_no_data_phase (by simp [inCriticalPhase]) (by simp)

end

/-! ## The invariant -/

section

variable {s u : State}

theorem SequencerInv.accOk (h : SequencerInv s) : s.AccOk := ⟨h.acc_unsampled, h.acc_current⟩

theorem SequencerInv.countOk (h : SequencerInv s) : s.dev.CountOk := ⟨h.device_counts, h.device_unready⟩

/-- A driven clock wire shows the device SCK in every step (R35, R72). -/
theorem advance_device_sees_sck (h : u.pins.dirClk = .output) : u.advance.dev.clk = u.pins.sck := by
  rw [advance_dev, State.deviceAfter_clk, clkWire_output u h]

/-- An engine move and the environment's move after it keep the invariant. -/
theorem EngineMove.advance_inv (m : EngineMove s u) (h : SequencerInv s) : SequencerInv u.advance := by
  obtain ⟨-, -, hdev, -, -⟩ := m.environment
  have hacc : u.AccOk := m.accOk h.idx_le h.accOk
  have hlow : u.dev.LowPowerOk := hdev ▸ h.power_down_is_high
  have hcount : u.advance.dev.CountOk := u.deviceAfter_countOk _ (hdev ▸ h.countOk) hlow
  exact
    { mode_critical_iff := m.mode_critical_iff h.mode_critical_iff
      idx_le := m.idx_le h.idx_le
      pcnt_range := m.pcnt_range h.pcnt_range
      in_operation := m.in_operation h.in_operation
      sg_is_gain := m.sg_is_gain h.sg_is_gain
      sg_is_operand := m.sg_is_operand h.sg_is_operand
      tmo_is_bound := m.tmo_is_bound h.tmo_is_bound
      sck_high := m.sck_high h.sck_high
      sck_low := m.sck_low h.sck_low
      acc_unsampled := hacc.unsampled
      acc_current := hacc.current
      data_configured := m.data_configured h.data_configured
      configured := m.configured h.data_configured h.configured
      error_datum := m.error_datum h.error_datum
      device_counts := hcount.counts
      device_unready := hcount.unready
      device_sees_sck := fun hd => advance_device_sees_sck hd
      power_down_is_high := u.deviceAfter_lowPowerOk _ hlow }

/-- Of a state with the reset values in engine and pins (R44, R260), what the invariant says of the sequencer holds,
whatever the device: IDLE is no working phase and no pin is driven. -/
theorem inv_of_reset_registers (he : s.eng = Engine.reset) (hp : s.pins = Pins.reset) (hc : s.dev.CountOk)
    (hl : s.dev.LowPowerOk) : SequencerInv s where
  mode_critical_iff := by simp [he, Engine.reset, inCriticalPhase]
  idx_le := by simp [he, Engine.reset]
  pcnt_range := by simp [he, Engine.reset, gainPhase]
  in_operation := by simp [he, Engine.reset]
  sg_is_gain := by simp [he, Engine.reset]
  sg_is_operand := by simp [he, Engine.reset]
  tmo_is_bound := by simp [he, Engine.reset, waitPhase]
  sck_high := by simp [he, Engine.reset, clockHighPhase]
  sck_low := by simp [hp, Pins.reset]
  acc_unsampled := by simp [he, Engine.reset]
  acc_current := by simp [he, Engine.reset]
  data_configured := by simp [he, Engine.reset]
  configured := by simp [he, Engine.reset, configuredPhase]
  error_datum := by simp [he, Engine.reset]
  device_counts := hc.counts
  device_unready := hc.unready
  device_sees_sck := by simp [hp, Pins.reset]
  power_down_is_high := hl

/-- A step with rst asserted keeps the invariant: the registers are reset, and what the cut and the undriven wire do to
the device keeps its clauses (R260 to R262). -/
theorem applyReset_advance_inv (h : SequencerInv s) : SequencerInv s.applyReset.advance := by
  have hlow : s.applyReset.dev.LowPowerOk := Device.engineReset_lowPowerOk _ _ _ h.power_down_is_high
  have hcount : s.applyReset.dev.CountOk := Device.engineReset_countOk _ _ _ h.countOk
  exact inv_of_reset_registers rfl rfl (State.deviceAfter_countOk _ _ hcount hlow)
    (State.deviceAfter_lowPowerOk _ _ hlow)

theorem Device.atReset_countOk : Device.atReset.CountOk := ⟨by simp [Device.atReset], fun _ _ _ => rfl⟩

theorem Device.atReset_lowPowerOk : Device.atReset.LowPowerOk := by simp [Device.LowPowerOk, Device.atReset]

end

/-- Settles O27: a step is a reset or an engine move, then the environment's move, and each keeps every clause. -/
theorem everyStepKeepsTheInvariant : Obligations.EveryStepKeepsTheInvariant := by
  intro s t h hstep
  rcases step_inv hstep with ⟨-, rfl⟩ | ⟨-, u, m, rfl⟩
  · exact applyReset_advance_inv h
  · exact m.advance_inv h

/-- Settles O28: the reset state has the reset registers, and its device counts nothing and is on. -/
theorem resetMeetsTheInvariant : Obligations.ResetMeetsTheInvariant :=
  inv_of_reset_registers rfl rfl Device.atReset_countOk Device.atReset_lowPowerOk

/-- Settles O11: the registers, the pins and the output ports of the reset state, one by one (R44, R260). -/
theorem resetStateHasTheSpecValues : Obligations.ResetStateHasTheSpecValues := by
  unfold Obligations.ResetStateHasTheSpecValues
  decide

/-! ## Frames (R42): which rows of the table write which register -/

section

variable {s t u : State}

/-- The frame of the transition table, register by register: the phases that write it, and what every row leaves. -/
structure TableFrame (op : BitVec 8) (s u : State) : Prop where
  sck : s.eng.seq ∉ [.pSet, .sHi, .sLo, .gHi, .gLo] → u.pins.sck = s.pins.sck
  dirData : s.eng.seq ∉ [.iCfgData] → u.pins.dirData = s.pins.dirData
  dirClk : s.eng.seq ∉ [.iCfgClk] → u.pins.dirClk = s.pins.dirClk
  mode : s.eng.seq ∉ [.sEnter, .sExit] → u.eng.mode = s.eng.mode
  acc : s.eng.seq ∉ [.sEnter, .sSample] → u.eng.acc = s.eng.acc
  idx : s.eng.seq ∉ [.sEnter, .sLoHold] → u.eng.idx = s.eng.idx
  pcnt : s.eng.seq ∉ [.sLoHold, .gLoHold] → u.eng.pcnt = s.eng.pcnt
  t0 : s.eng.seq ∉ [.wStart] → u.eng.t0 = s.eng.t0
  tmo : s.eng.seq ∉ [.pHold] ∨ op ≠ Opcode.init → u.eng.tmo = s.eng.tmo
  gain : s.eng.seq ∉ [.xCommit] → u.eng.gain = s.eng.gain
  sg : u.eng.sg = s.eng.sg
  command : u.eng.op = s.eng.op ∧ u.eng.arg = s.eng.arg
  response : u.eng.seq ≠ .resp ∨ s.eng.seq = .resp →
    u.eng.rspStatus = s.eng.rspStatus ∧ u.eng.rspData = s.eng.rspData

/-- Row by row and register by register: a row either does not write the register, or stands in one of its phases. -/
theorem TableMove.frame {op : BitVec 8} {arg : Word} (m : TableMove op arg s u) : TableFrame op s u := by
  cases m <;> constructor <;> simp_all

/-- A commit writes SG to GAIN (R202). -/
theorem TableMove.gain_of_xCommit {op : BitVec 8} {arg : Word} (m : TableMove op arg s u) (h : s.eng.seq = .xCommit) :
    u.eng.gain = some s.eng.sg := by
  cases m <;> simp_all

/-- Pins are their level and their two directions. -/
theorem pins_eq {p q : Pins} (hs : p.sck = q.sck) (hd : p.dirData = q.dirData) (hc : p.dirClk = q.dirClk) : p = q := by
  cases p; cases q; simp_all

/-- The inversion of a command's step: its acceptance in IDLE, otherwise a row of the table under its own word. -/
theorem exec_inv {i : Instr} (h : exec i s = .next t) :
    (s.eng.seq = .idle ∧ AcceptMove s i t) ∨ (s.eng.seq ≠ .idle ∧ TableMove i.opcode i.operand s t) := by
  by_cases hq : s.eng.seq = .idle
  · rcases exec_idle i hq with ⟨-, -, hf⟩ | ⟨u, hu, m⟩
    · rw [hf] at h; cases h
    · obtain rfl := Host.Outcome.next.inj (hu.symm.trans h)
      exact .inl ⟨hq, m⟩
  · obtain rfl := Host.Outcome.next.inj ((exec_busy i hq).symm.trans h)
    exact .inr ⟨hq, sequencer_tableMove _ _ s⟩

/-- A phase among `ps` is none of `l`, where the two have no phase in common. -/
theorem phase_not_mem {p : Phase} {l ps : List Phase} (hp : p ∈ ps) (hl : ∀ q ∈ l, q ∉ ps) : p ∉ l :=
  fun hm => hl p hm hp

end

/-- Settles O23: no phase of the two commands is one that writes a pin or a register of the shift. -/
theorem readinessCommandsFrame : Obligations.ReadinessCommandsFrame := by
  intro i s t hi hp h
  rcases exec_inv h with ⟨hq, m⟩ | ⟨hq, m⟩
  · rcases hi with rfl | ⟨ms, rfl⟩ <;> cases m <;> simp [hq]
  · have f := m.frame
    have hs := hp.resolve_left hq
    have hsub : phasesOf i ⊆ [.rCheck, .wStart, .wCheck, .wYield, .wTime, .resp] := by
      rcases hi with rfl | ⟨ms, rfl⟩ <;> simp [phasesOf]
    have hpins : t.pins = s.pins :=
      pins_eq (f.sck (phase_not_mem (hsub hs) (by decide))) (f.dirData (phase_not_mem (hsub hs) (by decide)))
        (f.dirClk (phase_not_mem (hsub hs) (by decide)))
    have htmo : t.eng.tmo = s.eng.tmo := f.tmo (.inl (phase_not_mem (hsub hs) (by decide)))
    exact ⟨hpins, f.mode (phase_not_mem (hsub hs) (by decide)), f.gain (phase_not_mem (hsub hs) (by decide)), f.sg,
      f.acc (phase_not_mem (hsub hs) (by decide)), f.idx (phase_not_mem (hsub hs) (by decide)),
      f.pcnt (phase_not_mem (hsub hs) (by decide)),
      fun hr => ⟨f.t0 (phase_not_mem (hr ▸ hs) (by decide)), htmo⟩,
      fun hw => f.t0 (by simpa using hw), fun _ => ⟨f.command.1, f.command.2, htmo⟩, f.response⟩

/-- Settles O24: of the phases of SET_POWER P_SET alone writes a pin, and P_HOLD writes TMO for INIT only. -/
theorem setPowerFrame : Obligations.SetPowerFrame := by
  intro down s t hp h
  rcases exec_inv h with ⟨hq, m⟩ | ⟨hq, m⟩
  · cases m; simp [hq]
  · have f := m.frame
    have hs : s.eng.seq ∈ [.pSet, .pHold, .resp] := hp.resolve_left hq
    have hsck : s.eng.seq ≠ .pSet → t.pins.sck = s.pins.sck := fun hw =>
      f.sck (phase_not_mem (ps := [.pHold, .resp]) ((List.mem_cons.1 hs).resolve_left hw) (by decide))
    exact ⟨f.dirData (phase_not_mem hs (by decide)), f.dirClk (phase_not_mem hs (by decide)), hsck,
      f.mode (phase_not_mem hs (by decide)), f.gain (phase_not_mem hs (by decide)), f.sg,
      f.acc (phase_not_mem hs (by decide)), f.idx (phase_not_mem hs (by decide)),
      f.pcnt (phase_not_mem hs (by decide)), f.t0 (phase_not_mem hs (by decide)),
      f.tmo (.inr (show Opcode.setPower ≠ Opcode.init by decide)), fun _ => f.command, f.response⟩

/-- Settles O25: READ has no phase that configures a pin, waits or commits, and P_SET is none of its own. -/
theorem readFrame : Obligations.ReadFrame := by
  intro s t hp h
  rcases exec_inv h with ⟨hq, m⟩ | ⟨hq, m⟩
  · cases m; simp [hq]
  · have f := m.frame
    have hs := hp.resolve_left hq
    have hsck : s.eng.seq ∉ [.sHi, .sLo, .gHi, .gLo] → t.pins.sck = s.pins.sck := fun hw =>
      f.sck (List.not_mem_cons_of_ne_of_not_mem (by simpa using phase_not_mem (l := [.pSet]) hs (by decide)) hw)
    exact ⟨f.gain (phase_not_mem hs (by decide)), f.t0 (phase_not_mem hs (by decide)),
      f.tmo (.inl (phase_not_mem hs (by decide))), f.dirData (phase_not_mem hs (by decide)),
      f.dirClk (phase_not_mem hs (by decide)), hsck, f.mode, f.acc, f.idx, f.pcnt,
      fun _ => ⟨f.command.1, f.command.2, f.sg⟩, f.response⟩

/-- Settles O26: in IDLE the two commands write SG, GAIN (INIT only), TMO and the latched word; afterwards each
register is written in the phases of the table's frame, and SET_GAIN has no configuration phase. -/
theorem gainCommandsFrame : Obligations.GainCommandsFrame := by
  rintro i s t ⟨g, hi⟩ hp h
  rcases exec_inv h with ⟨hq, m⟩ | ⟨hq, m⟩
  · rcases hi with rfl | rfl <;> cases m <;> simp [hq]
  · have f := m.frame
    have hs := hp.resolve_left hq
    have hset : ∀ g', i = .setGain g' → t.pins.dirData = s.pins.dirData ∧ t.pins.dirClk = s.pins.dirClk ∧
        (s.eng.seq ≠ .xCommit → t.eng.gain = s.eng.gain) := by
      rintro g' rfl
      exact ⟨f.dirData (phase_not_mem hs (by simp [phasesOf])), f.dirClk (phase_not_mem hs (by simp [phasesOf])),
        fun hx => f.gain (by simpa using hx)⟩
    exact ⟨f.dirData, f.dirClk, f.sck, f.mode, f.acc, f.idx, f.pcnt, f.t0,
      fun hn => f.tmo (.inl (List.not_mem_of_not_mem_cons hn)), fun hn => f.gain (List.not_mem_of_not_mem_cons hn),
      hset, fun _ => ⟨f.command.1, f.command.2, f.sg⟩, f.response⟩

/-! ## Who writes what in the whole machine -/

section

variable {s u : State}

/-- The table configures DATA as an input and CLK as an output, and nothing else (R182, R183). -/
theorem TableMove.cfg_event {op : BitVec 8} {arg : Word} (m : TableMove op arg s u) {p : Pin} {d : PinDir}
    {r : CfgResult} (h : .cfg p d r ∈ u.events) : (p = .data ∧ d = .input) ∨ (p = .clk ∧ d = .output) := by
  cases m <;> simp_all

/-- An acceptance writes no pin and not MODE, and configures nothing (R181). -/
theorem AcceptMove.frame {i : Instr} (m : AcceptMove s i u) :
    u.pins = s.pins ∧ u.eng.mode = s.eng.mode ∧ ∀ p d r, .cfg p d r ∉ u.events := by
  cases m <;> simp

/-- The one acceptance that writes GAIN is INIT's, with its operand (R157). -/
theorem AcceptMove.gain_written {i : Instr} (m : AcceptMove s i u) (h : u.eng.gain ≠ s.eng.gain) :
    ∃ arg sel, i = .init arg ∧ gainOperand arg = some sel ∧ u.eng.gain = some sel := by
  cases m with
  | init arg g hg => exact ⟨arg, g, rfl, hg, rfl⟩
  | _ => exact absurd rfl h

end

/-- Settles O29: a row of the table writes within its frame, an acceptance writes GAIN for INIT only, the answer to a
reserved word writes none of these, and the environment's move touches neither engine nor pins. -/
theorem onlyTheNamedPhasesWrite : Obligations.OnlyTheNamedPhasesWrite := by
  intro s t hrst hstep
  rcases step_inv hstep with ⟨hr, -⟩ | ⟨-, u, m, rfl⟩
  · simp [hrst] at hr
  · simp only [advance_eng, advance_pins, advance_events]
    cases m with
    | table _ _ m =>
      have f := m.frame
      have hgain : u.eng.gain ≠ s.eng.gain → s.eng.seq = .xCommit := fun hne => by
        simpa using not_imp_comm.1 f.gain hne
      exact ⟨fun hne => .inr ⟨hgain hne, m.gain_of_xCommit (hgain hne)⟩, not_imp_comm.1 f.sck,
        fun hne => by simpa using not_imp_comm.1 f.mode hne, fun hne => by simpa using not_imp_comm.1 f.dirData hne,
        fun hne => by simpa using not_imp_comm.1 f.dirClk hne, fun _ _ _ => m.cfg_event⟩
    | accept i _ hq hv hd m =>
      obtain ⟨hpins, hmode, hcfg⟩ := m.frame
      refine ⟨fun hne => .inl ⟨hq, hv, ?_⟩, by simp [hpins], by simp [hmode], by simp [hpins], by simp [hpins],
        fun p d r he => absurd he (hcfg p d r)⟩
      obtain ⟨arg, sel, rfl, hg, hw⟩ := m.gain_written hne
      exact ⟨arg, sel, hd, hg, hw⟩
    | reserved => simp

end Sys2Proof.Machine

/-! PROOFS. The statements on the step and its surroundings: which meaning a step runs (O6, O7), what the engine sees of
the host while busy (O32), the events of the critical section (O30), the samples of a frame as a number (O36), and the
device after a step (O54, O56, O57, O58). -/

namespace Sys2Proof.Machine

open Sys2Proof

/-! ## Which meaning a step runs -/

/-- Settles O6: the row of the step that accepts a decoded word. -/
theorem stepRunsTheDecodedCommand : Obligations.StepRunsTheDecodedCommand :=
  fun _ _ hrst hidle hvalid hdecode => step_accept hrst hidle hvalid hdecode

/-- IDLE is no phase of a command in progress (R32, R42). -/
theorem idle_not_mem_phasesOf (i : Instr) : Phase.idle ∉ phasesOf i := by
  cases i <;> simp [phasesOf]

theorem InOperation.busy {i : Instr} {s : State} (h : InOperation i s) : s.eng.seq ≠ .idle := by
  obtain ⟨-, -, -, hphase⟩ := h
  exact fun hidle => idle_not_mem_phasesOf i (hidle ▸ hphase)

/-- Settles O7: outside IDLE the step and the command's meaning both run the table, and OP and ARG are its word. -/
theorem stepContinuesTheLatchedCommand : Obligations.StepContinuesTheLatchedCommand := by
  intro i s hrst h
  rw [step_busy hrst h.busy, exec_busy i h.busy]
  obtain ⟨hop, harg, -, -⟩ := h
  rw [hop, harg]
  rfl

/-! ## What a busy engine sees of the host -/

/-- Outside IDLE a step reads of the inputs rst, the platform's answers and DOUT, and in RESP rsp_ready (R77, R180). -/
theorem step_inputs_congr {s : State} (hbusy : s.eng.seq ≠ .idle) (i : Inputs) (hrst : i.rst = s.inputs.rst)
    (hcfg : i.cfg = s.inputs.cfg) (hdout : i.dout = s.inputs.dout) (hover : i.overrunNs = s.inputs.overrunNs)
    (hready : s.eng.seq = .resp → i.rspReady = s.inputs.rspReady) : step { s with inputs := i } = step s := by
  cases hr : s.inputs.rst with
  | true =>
    rw [step_reset hr, step_reset (s := { s with inputs := i }) (hrst.trans hr)]
    exact congrArg _ (State.advance_congr s.applyReset i hover)
  | false =>
    obtain ⟨hinputs, -, hdev, -, -⟩ :=
      (EngineMove.table _ (fun h => hbusy h.1) (sequencer_tableMove s.eng.op s.eng.arg s)).environment
    have htable : sequencer s.eng.op s.eng.arg { s with inputs := i } =
        { sequencer s.eng.op s.eng.arg s with inputs := i } :=
      (sequencer_congr s.eng.op s.eng.arg s i s.dev hcfg hdout hready).trans (by rw [← hdev])
    rw [step_busy hr hbusy, step_busy (s := { s with inputs := i }) (hrst.trans hr) hbusy]
    exact congrArg _ ((congrArg State.advance htable).trans
      (State.advance_congr _ i (hover.trans (congrArg Inputs.overrunNs hinputs.symm))))

/-- Settles O32: the command port is none of the inputs a busy step reads, and rsp_ready is one in RESP only. -/
theorem busyEngineIgnoresTheHost : Obligations.BusyEngineIgnoresTheHost := fun _ _ _ _ hbusy =>
  ⟨step_inputs_congr hbusy _ rfl rfl rfl rfl fun _ => rfl,
    fun hresp => step_inputs_congr hbusy _ rfl rfl rfl rfl fun h => absurd h hresp⟩

/-! ## The events of a step -/

section

variable {s u : State}

/-- In the phases of the critical section the table writes CLK, reads DATA, holds for 1 us or leaves the section. -/
theorem TableMove.critical_event {op : BitVec 8} {arg : Word} (m : TableMove op arg s u)
    (hc : inCriticalPhase s.eng.seq = true) {e : Event} (he : e ∈ u.events) :
    (∃ v, e = .w v) ∨ (∃ b, e = .r b) ∨ e = .us 1 ∨ (e = .critExit ∧ s.eng.seq = .sExit) := by
  cases m <;> simp_all [inCriticalPhase]

/-- The table's microsecond delays are the holds of 1 us of the shift (R192, R195, R197, R199). -/
theorem TableMove.us_event {op : BitVec 8} {arg : Word} (m : TableMove op arg s u) {n : Nat}
    (he : .us n ∈ u.events) : inCriticalPhase s.eng.seq = true ∧ n = 1 := by
  cases m <;> simp_all [inCriticalPhase]

/-- The table suspends in the two phases of a coarse delay (R185, R188). -/
theorem TableMove.tick_event {op : BitVec 8} {arg : Word} (m : TableMove op arg s u) (he : .tick ∈ u.events) :
    s.eng.seq = .pHold ∨ s.eng.seq = .wYield := by
  cases m <;> simp_all

/-- An acceptance performs no primitive: it emits a response or nothing (R181). -/
theorem AcceptMove.event {i : Instr} (m : AcceptMove s i u) {e : Event} (he : e ∈ u.events) :
    e = .rsp .invalidArgument 0 := by
  cases m <;> simp_all

/-- A step with an event that is no response is a row of the table. -/
theorem EngineMove.table_of_event (m : EngineMove s u) {e : Event} (he : e ∈ u.events)
    (hne : e ≠ .rsp .invalidArgument 0) : TableMove s.eng.op s.eng.arg s u := by
  cases m with
  | table _ _ m => exact m
  | accept _ _ _ _ _ m => exact absurd (m.event he) hne
  | reserved => exact absurd (List.mem_singleton.1 he) hne

/-- In IDLE, where alone a word is accepted, no frame is under way, so a critical step is a row of the table. -/
theorem EngineMove.table_of_critical (m : EngineMove s u) (hc : inCriticalPhase s.eng.seq = true) :
    TableMove s.eng.op s.eng.arg s u := by
  cases m with
  | table _ _ m => exact m
  | accept _ _ hidle => simp [hidle, inCriticalPhase] at hc
  | reserved hidle => simp [hidle, inCriticalPhase] at hc

end

/-- Settles O30: by the invariant MODE is CRITICAL exactly in the shift's phases, and the delays and the events of those
phases are rows of the table. -/
theorem criticalSectionAdmitsOnlyShiftEvents : Obligations.CriticalSectionAdmitsOnlyShiftEvents := by
  intro s t hinv hrst hstep
  rcases step_inv hstep with ⟨hr, -⟩ | ⟨-, u, m, rfl⟩
  · simp [hrst] at hr
  · rw [advance_events]
    refine ⟨fun hmode e he => ?_, fun n he => ?_, fun he => ?_⟩
    · have hc := hinv.mode_critical_iff.1 hmode
      exact (m.table_of_critical hc).critical_event hc he
    · obtain ⟨hc, hn⟩ := (m.table_of_event he (by simp)).us_event he
      exact ⟨hinv.mode_critical_iff.2 hc, hn⟩
    · exact (m.table_of_event he (by simp)).tick_event he

/-! ## The samples of a frame as a number -/

/-- The number of the samples b_k, b_(k+1), …: the sum of b_i * 2^(23 - i) (R64). -/
def sampleSum (k : Nat) (bits : List Bool) : Nat :=
  ((bits.zipIdx k).map fun p => if p.1 then 2 ^ (23 - p.2) else 0).sum

theorem assembleSamples_eq (bits : List Bool) : assembleSamples bits = BitVec.ofNat 24 (sampleSum 0 bits) := rfl

theorem sampleSum_cons (k : Nat) (b : Bool) (bits : List Bool) :
    sampleSum k (b :: bits) = (if b then 2 ^ (23 - k) else 0) + sampleSum (k + 1) bits := by
  simp [sampleSum, List.zipIdx_cons]

/-- The samples from k on fill the bits below 24 - k. -/
theorem sampleSum_lt (bits : List Bool) : ∀ k, k + bits.length ≤ 24 → sampleSum k bits < 2 ^ (24 - k) := by
  induction bits with
  | nil => intro k _; simp [sampleSum]
  | cons b bits ih =>
    intro k hk
    rw [List.length_cons] at hk
    have hrest := ih (k + 1) (by omega)
    have hpow : 2 ^ (24 - k) = 2 ^ (23 - k) + 2 ^ (23 - k) := by
      rw [show 24 - k = 23 - k + 1 by omega, Nat.pow_succ, Nat.mul_two]
    rw [show 24 - (k + 1) = 23 - k by omega] at hrest
    rw [sampleSum_cons]
    split <;> omega

/-- Sample i from k on is bit 23 - k - i. -/
theorem testBit_sampleSum (bits : List Bool) : ∀ k i (h : i < bits.length), k + bits.length ≤ 24 →
    (sampleSum k bits).testBit (23 - (k + i)) = bits[i] := by
  induction bits with
  | nil => intro k i h; simp at h
  | cons b bits ih =>
    intro k i h hk
    rw [List.length_cons] at h hk
    have hrest : sampleSum (k + 1) bits < 2 ^ (23 - k) := by
      rw [show 23 - k = 24 - (k + 1) by omega]; exact sampleSum_lt bits (k + 1) (by omega)
    rw [sampleSum_cons]
    cases i with
    | zero =>
      have hlow : (sampleSum (k + 1) bits).testBit (23 - k) = false := Nat.testBit_lt_two_pow hrest
      cases b <;> simp [Nat.testBit_two_pow_add_eq, hlow]
    | succ i =>
      have hbit := ih (k + 1) i (by omega) (by omega)
      rw [show k + 1 + i = k + (i + 1) by omega] at hbit
      cases b with
      | false => simpa using hbit
      | true => simpa [Nat.testBit_two_pow_add_gt (show 23 - (k + (i + 1)) < 23 - k by omega)] using hbit

/-- Settles O36: the raw value is the samples' number, and its bit 23 - i is sample i. -/
theorem samplesAreAssembledMsbFirst : Obligations.SamplesAreAssembledMsbFirst := by
  intro bits hlen i h
  rw [assembleSamples_eq, BitVec.getLsbD_ofNat, decide_eq_true (by omega : 23 - i < 24), Bool.true_and]
  simpa using testBit_sampleSum bits 0 i h (by omega)

/-! ## The device after a step -/

section

variable {s t u : State}

/-- A step without reset is the engine's step and then the environment's move (R219). -/
theorem step_eq_advance (hrst : s.inputs.rst = false) (h : engineStep s = .next u) : step s = .next u.advance := by
  simp [step, hrst, h, advanceOutcome]

theorem exists_engineStep (hrst : s.inputs.rst = false) (h : step s = .next t) :
    ∃ u, engineStep s = .next u ∧ t = u.advance := by
  cases he : engineStep s with
  | next u => exact ⟨u, rfl, Host.Outcome.next.inj (h.symm.trans (step_eq_advance hrst he))⟩
  | fault f => simp [step, hrst, he, advanceOutcome] at h
  | refused f => simp [step, hrst, he, advanceOutcome] at h

/-- The engine's step leaves the device and the environment's coming move as they were (R218). -/
theorem engineStep_dev_nextMove (h : engineStep s = .next u) : u.dev = s.dev ∧ u.nextMove = s.nextMove := by
  obtain ⟨-, -, hdev, hscript, hdraws⟩ := (engineStep_inv h).environment
  exact ⟨hdev, by rw [State.nextMove, State.nextMove, hscript, hdraws]⟩

/-- A count that is lost has no conversion partly shifted out. -/
@[simp] theorem Device.stray_partShifted (n : Nat) (d : Device) : (d.stray n).partShifted = false := by
  simp [Device.partShifted]

/-- While the document gives the device's state, the move is made by a device that has seen the wire and at most lost
its count, to an edge outside a SHIFT (R66, R76). -/
theorem State.deviceAfter_keepsFrame {m : EnvMove} {d : Device} (h : s.keepsFrame m = true)
    (hd : s.dev.observe s.draws s.clkWire (s.stepNs + m.gapNs) = d) :
    ∃ e : Device, s.deviceAfter m = e.move s.draws m.device ∧ e.pwr = d.pwr ∧ e.disturbed = d.disturbed ∧
      (e.partShifted = true → d.partShifted = true) ∧ (s.strayEdge = false → e = d) := by
  subst hd
  simp only [State.deviceAfter, if_pos h]
  cases hs : s.strayEdge with
  | false => exact ⟨_, rfl, rfl, rfl, id, fun _ => rfl⟩
  | true => exact ⟨_, rfl, by simp, by simp, by simp, by simp⟩

/-- Whatever the device has seen in a step, the environment's move comes last (R219). -/
theorem State.exists_deviceAfter_eq_move (s : State) (m : EnvMove) :
    ∃ d : Device, s.deviceAfter m = d.move s.draws m.device := ⟨_, rfl⟩

theorem State.keepsFrame_of_midFrame {m : EnvMove} (hf : s.midFrame = true) (hm : m.device.signalsReady = true) :
    s.keepsFrame m = false := by
  simp [State.keepsFrame, hf, hm]

theorem State.keepsFrame_of_not_midFrame {m : EnvMove} (hf : s.midFrame = false) (hb : s.keepsBounds m = true) :
    s.keepsFrame m = true := by
  simp [State.keepsFrame, hf, hb]

end

/-! What one move of the device does. -/

/-- A conversion finished on a device that is on is pending with its result, whatever else becomes of the device. -/
theorem Device.move_complete_pending {d : Device} (n : Nat) (raw : Raw) (hon : d.pwr = .on) :
    (d.move n (.complete raw)).pending = true ∧ (d.move n (.complete raw)).result = raw := by
  simp only [Device.move, if_pos hon, Device.complete]
  split <;> exact ⟨rfl, rfl⟩

/-- A conversion finished on a device that is on, undisturbed and in the middle of none begins a count (R66, R210). -/
theorem Device.move_complete_counts {d : Device} (n : Nat) (raw : Raw) (hon : d.pwr = .on)
    (hd : d.disturbed = false) (hp : d.partShifted = false) :
    d.move n (.complete raw) =
      { d with pending := true, result := raw, resultSel := d.sel, pulses := some 0, strayed := false } := by
  simp [Device.move, Device.complete, hon, hd, hp]

theorem Device.move_withdraw_pending (n : Nat) (d : Device) : (d.move n .withdraw).pending = false := by
  simp only [Device.move, Device.withdraw]
  split
  · split <;> rfl
  · exact Bool.eq_false_iff.2 ‹_›

/-- An undisturbed device is disturbed by a move of its own in the middle of shifting a conversion out only. -/
theorem Device.move_disturbs {d : Device} {n : Nat} {m : DeviceMove} (hd : d.disturbed = false)
    (h : (d.move n m).disturbed = true) : m ≠ .quiet ∧ d.partShifted = true := by
  cases hp : d.partShifted with
  | true =>
    refine ⟨?_, rfl⟩
    rintro rfl
    simp [Device.move, hd] at h
  | false =>
    cases m with
    | quiet | complete | withdraw =>
      exact absurd ((Device.move_sel hd hp n (by simp)).2.1.symm.trans h) (by simp)
    | reset => simp [Device.move, Device.ownReset, Device.unknown, hd, hp] at h

/-- Settles O54: the cut disturbs a device that is on, and neither reset nor engine move nor environment ends that while
it is on. -/
theorem cutFrameDisturbsTheDevice : Obligations.CutFrameDisturbsTheDevice := by
  refine ⟨fun s hrst hcut hon => ⟨_, step_reset hrst, ?_⟩, fun s t hstep hd hp hon => ?_⟩
  · have hdev : s.applyReset.dev = s.dev.disturb s.draws := by simp [Device.engineReset, hcut]
    exact State.deviceAfter_lost _ _ (hdev ▸ Device.disturb_lost _ _) (by rw [hdev]; exact hon)
  · rcases step_inv hstep with ⟨-, rfl⟩ | ⟨-, u, m, rfl⟩
    · have hon' : s.applyReset.dev.pwr = .on := by
        rw [applyReset_dev, Device.engineReset]
        split <;> exact hon
      exact State.deviceAfter_lost _ _ (Device.engineReset_lost ⟨hd, hp⟩) hon'
    · obtain ⟨-, -, hdev, -, -⟩ := m.environment
      exact State.deviceAfter_lost _ _ (hdev ▸ ⟨hd, hp⟩) (hdev ▸ hon)

/-- Settles O57: seeing the wire and losing the count disturb no device, so the device's own move did, and a count that
was lost leaves no conversion partly shifted out. -/
theorem edgesAloneDisturbNoDevice : Obligations.EdgesAloneDisturbNoDevice := by
  intro s t hrst hstep hbefore hafter
  obtain ⟨u, hu, rfl⟩ := exists_engineStep hrst hstep
  obtain ⟨hdev, hmove⟩ := engineStep_dev_nextMove hu
  refine ⟨u, hu, ?_⟩
  rw [← hmove, ← hdev]
  rw [← hdev] at hbefore
  cases hk : u.keepsFrame u.nextMove with
  | false => exact .inl rfl
  | true =>
    obtain ⟨e, he, -, hdist, hpart, -⟩ := State.deviceAfter_keepsFrame hk rfl
    rw [advance_dev, he] at hafter
    obtain ⟨hquiet, hshift⟩ := Device.move_disturbs (hdist.trans (Device.observe_undisturbed hbefore)) hafter
    exact .inr ⟨hquiet, hpart hshift⟩

/-- Settles O56: ready in the middle of a frame breaks it; otherwise the device has seen the wire, perhaps lost its
count, and begins one with its move. -/
theorem readyBeginsTheCountOutsideAFrame : Obligations.ReadyBeginsTheCountOutsideAFrame := by
  intro s u raw hrst hu hcomplete
  obtain ⟨hdev, hmove⟩ := engineStep_dev_nextMove hu
  rw [← hmove] at hcomplete ⊢
  rw [← hdev]
  refine ⟨u.advance, step_eq_advance hrst hu, fun hf => ?_, fun hf hb => ?_⟩
  · exact State.deviceAfter_broken (State.keepsFrame_of_midFrame hf (by simp [hcomplete, DeviceMove.signalsReady]))
  · intro d hon hd hp
    obtain ⟨e, he, hpwr, hdist, hpart, hstray⟩ :=
      State.deviceAfter_keepsFrame (State.keepsFrame_of_not_midFrame hf hb) (d := d) rfl
    have hundist : e.disturbed = false := hdist.trans hd
    have hnone : e.partShifted = false := by
      rw [Bool.eq_false_iff]
      exact fun h => absurd (hp.symm.trans (hpart h)) (by decide)
    rw [advance_dev, he, hcomplete, Device.move_complete_counts _ raw (hpwr.trans hon) hundist hnone]
    exact ⟨rfl, hundist, rfl, rfl, rfl, rfl, fun hs => by rw [← hstray hs]⟩

/-- Settles O58: while the frame is kept the device after a step is a function of the wire, the time, the move and the
draws, and the effect of its own move stands at the end of every step. -/
theorem deviceActsOnTheWireOnly : Obligations.DeviceActsOnTheWireOnly := by
  refine ⟨fun s u hrst hu => ?_, ?_⟩
  · obtain ⟨hdev, -⟩ := engineStep_dev_nextMove hu
    obtain ⟨d, hd⟩ := State.exists_deviceAfter_eq_move u u.nextMove
    refine ⟨u.advance, step_eq_advance hrst hu, fun hk hs => ?_, fun raw hm hon => ?_, fun hm => ?_⟩
    · rw [advance_dev, State.deviceAfter_kept hk hs, hdev]
    · rw [advance_dev, hd, hm] at hon ⊢
      exact Device.move_complete_pending _ _ (by simpa using hon)
    · rw [advance_dev, hd, hm]
      exact Device.move_withdraw_pending _ _
  · intro s s' u u' hrst hrst' hu hu' hk hk' hs hs' hdev hwire hdraws htime hmove
    refine ⟨_, _, step_eq_advance hrst hu, step_eq_advance hrst' hu', ?_⟩
    obtain ⟨hd, -⟩ := engineStep_dev_nextMove hu
    obtain ⟨hd', -⟩ := engineStep_dev_nextMove hu'
    rw [advance_dev, advance_dev, State.deviceAfter_kept hk hs, State.deviceAfter_kept hk' hs', hd, hd', hdev, hwire,
      hdraws, htime, hmove]

end Sys2Proof.Machine

/-! PROOFS. The statements on the command word: decoder and encoder are inverse (O1), the decoder follows the opcode
table (O2), the words the spec writes out (O4), the gain operand (O5), and the reserved words (O3). -/

namespace Sys2Proof

/-! ## Decoder and encoder -/

section

variable {w : CommandWord}

/-- The decoder reads back the word assembled for a command (R91, R103, R106). -/
theorem decode_encode (i : Instr) : decode (encode i) = .ok i := by
  rw [decode_eq, opField_encode, argField_encode]
  cases i with
  | setPower down => cases down <;> rfl
  | _ => rfl

/-- A decoded word has the fields of its command: each branch of the decoder that answers a command has tested or
taken over both (R90, R91, R93). -/
theorem encode_eq_of_decode {i : Instr} (h : decode w = .ok i) : encode i = w := by
  rw [decode_eq] at h
  rw [eq_encode_iff]
  split_ifs at h with hop hop ha ha hop hop ha hop hop ha <;> cases h
  · exact ⟨hop, rfl⟩
  · exact ⟨hop, ha⟩
  · exact ⟨hop, ha⟩
  · exact ⟨hop, rfl⟩
  · exact ⟨hop, ha⟩
  · exact ⟨hop, rfl⟩
  · exact ⟨hop, ha⟩

theorem decode_eq_ok_iff {i : Instr} : decode w = .ok i ↔ encode i = w :=
  ⟨encode_eq_of_decode, fun h => h ▸ decode_encode i⟩

/-- A word is rejected exactly when it is no command's word (R94). -/
theorem decode_rejects_iff : (∃ e, decode w = .error e) ↔ ¬ ∃ i, encode i = w := by
  simp only [← decode_eq_ok_iff]
  cases decode w <;> simp

/-- The words that are some command's, by their fields (R91, R93). -/
theorem exists_encode_iff : (∃ i, encode i = w) ↔
    opField w = 1 ∨ (opField w = 2 ∧ (argField w = 0 ∨ argField w = 1)) ∨ opField w = 3 ∨
    (opField w = 4 ∧ argField w = 0) ∨ opField w = 5 ∨ (opField w = 6 ∧ argField w = 0) := by
  simp only [eq_encode_iff]
  constructor
  · rintro ⟨i, hop, harg⟩
    rw [hop, harg]
    cases i with
    | setPower down => cases down <;> decide
    | _ => simp [Instr.opcode, Instr.operand, Opcode.init, Opcode.setGain, Opcode.isReady,
        Opcode.waitReady, Opcode.read]
  · rintro (h | ⟨h, ha | ha⟩ | h | ⟨h, ha⟩ | h | ⟨h, ha⟩)
    · exact ⟨.init (argField w), h, rfl⟩
    · exact ⟨.setPower false, h, ha⟩
    · exact ⟨.setPower true, h, ha⟩
    · exact ⟨.setGain (argField w), h, rfl⟩
    · exact ⟨.isReady, h, ha⟩
    · exact ⟨.waitReady (argField w), h, rfl⟩
    · exact ⟨.read, h, ha⟩

/-! ## The opcode table -/

/-- A command's word selects the row of its own mnemonic only (R91). -/
theorem selects_encode_iff (i : Instr) :
    ∀ r ∈ opcodeTable, r.selects (encode i) = true ↔ r.mnemonic = i.mnemonic := by
  simp only [opcodeTable, OpcodeRow.selects, List.forall_mem_cons, decide_eq_true_eq, table_selects, opField_encode,
    argField_encode]
  cases i with
  | setPower down => cases down <;> decide
  | _ => simp [Instr.opcode, Instr.operand, Instr.mnemonic, Opcode.init, Opcode.setGain, Opcode.isReady,
      Opcode.waitReady, Opcode.read]

/-- The words some row selects are the words of the commands (R91, R94). -/
theorem exists_selects_iff : (∃ r ∈ opcodeTable, r.selects w = true) ↔ ∃ i, encode i = w := by
  simp only [exists_encode_iff, opcodeTable, OpcodeRow.selects, List.exists_mem_cons_iff, List.not_mem_nil, false_and,
    exists_false, or_false, decide_eq_true_eq, table_selects]

end

/-! ## The obligations on decoder and table -/

/-- Settles O1: a word decodes to the command it is assembled from, and to no other. -/
theorem decodeAndEncodeAreInverse : Obligations.DecodeAndEncodeAreInverse := fun _ _ => decode_eq_ok_iff

/-- Settles O4: the decoder's answers on the eight fixed words. -/
theorem wordsOfTheSpecDecode : Obligations.WordsOfTheSpecDecode := by
  unfold Obligations.WordsOfTheSpecDecode
  decide

/-- Settles O2: a decoded word is its command's own, and a rejected one is no command's, so no row selects it. -/
theorem decodeFollowsTheOpcodeTable : Obligations.DecodeFollowsTheOpcodeTable := by
  intro w
  constructor
  · intro i hdecode
    rw [← decode_eq_ok_iff.1 hdecode]
    exact selects_encode_iff i
  · rw [decode_rejects_iff, ← exists_selects_iff]
    simp

end Sys2Proof

namespace Sys2Proof.Machine

open Sys2Proof

/-! ## Reserved words -/

/-- The op codes that have no row in the table are 0 and those from 7 on (R94). -/
theorem reserved_opcode_iff {op : BitVec 8} :
    op = 0 ∨ 7 ≤ op ↔ ¬ (op = 1 ∨ op = 2 ∨ op = 3 ∨ op = 4 ∨ op = 5 ∨ op = 6) := by
  bv_omega

/-- The four classes of reserved words (R94) are the words of no command, one op code at a time: SET_POWER's row
restricts arg, IS_READY's and READ's ask for 0, and the others take every arg or have no row. -/
theorem decode_rejects_iff_classes (w : CommandWord) : (∃ e, decode w = .error e) ↔
    opField w = 0 ∨ 7 ≤ opField w ∨ (opField w = 2 ∧ (argField w).extractLsb' 1 31 ≠ 0) ∨
    ((opField w = 4 ∨ opField w = 6) ∧ argField w ≠ 0) := by
  rw [decode_rejects_iff, exists_encode_iff, ne_eq, upper_bits_zero_iff, ← or_assoc (a := opField w = 0),
    reserved_opcode_iff]
  by_cases hpower : opField w = 2
  · simp [hpower]
  · by_cases hplain : opField w = 4 ∨ opField w = 6
    · rcases hplain with h | h <;> simp [h]
    · obtain ⟨h4, h6⟩ := not_or.1 hplain
      simp only [hpower, h4, h6, false_and, false_or, or_false]

/-- Settles O3: the classes of R94, and the reserved row of the step with the acceptance written out. -/
theorem reservedWordsAreAnswered : Obligations.ReservedWordsAreAnswered := by
  refine ⟨decode_rejects_iff_classes, fun s hrst hidle hvalid ⟨e, herror⟩ => ?_⟩
  rw [step_reserved hrst hidle hvalid herror, acceptReserved_eq]

/-! ## The gain operand -/

/-- The operand that stands for a selection is its code, zero-extended to 32 bits (R92, R101). -/
theorem gainOperand_eq_some_iff {arg : Word} {g : Selection} :
    gainOperand arg = some g ↔ arg.toNat = (codeOf g).toNat := by
  unfold gainOperand
  split_ifs with h0 h1 h2
  · subst h0; cases g <;> decide
  · subst h1; cases g <;> decide
  · subst h2; cases g <;> decide
  · simp only [← BitVec.toNat_inj, BitVec.reduceToNat] at h0 h1 h2
    cases g <;> simp [codeOf, h0, h1, h2]

/-- Settles O5: below 3 the number is its own low two bits, and these are the code of the one selection it stands
for. -/
theorem gainOperandIsTheWholeArg : Obligations.GainOperandIsTheWholeArg := by
  refine fun arg => ⟨validGain_iff, gainOperand_eq_none, fun g => ?_⟩
  have hcode : (codeOf g).toNat < 3 := by cases g <;> decide
  have hlow : (arg.extractLsb' 0 2).toNat = arg.toNat % 4 := by simp
  rw [gainOperand_eq_some_iff, ← BitVec.toNat_inj, hlow]
  omega

end Sys2Proof.Machine

/-! PROOFS. The statements on the shift engine: the code of a selection as a number of gain pulses (O35), DECODE (O34),
the shift as one run (O38), and a frame on a device that counts it (O50). -/

namespace Sys2Proof.Machine

open Sys2Proof

/-! ## The number of gain pulses -/

/-- 25, 26 and 27 are the only frame lengths that select (R98, R212). -/
theorem selectionOfPulses_eq_some_iff {n : Nat} {g : Selection} :
    selectionOfPulses n = some g ↔ n = 24 + pulsesOf g := by
  unfold selectionOfPulses
  split_ifs with h25 h26 h27
  · subst h25; cases g <;> decide
  · subst h26; cases g <;> decide
  · subst h27; cases g <;> decide
  · cases g <;> simp [pulsesOf, codeOf, h25, h26, h27]

theorem one_le_pulsesOf (g : Selection) : 1 ≤ pulsesOf g := Nat.le_add_left 1 _

/-- Settles O35: there are three codes, 0 to 2, and three frame lengths, one for each. -/
theorem gainPulsesEncodeTheSelection : Obligations.GainPulsesEncodeTheSelection := by
  refine fun g => ⟨rfl, one_le_pulsesOf g, ?_, pcntOf_toNat g, fun n => selectionOfPulses_eq_some_iff⟩
  cases g <;> decide

/-! ## DECODE -/

/-- The decoded word is the raw value under eight copies of its sign (R130). -/
theorem decodeSample_eq_append (raw : Raw) :
    decodeSample raw = (if raw.msb then 0xFF else 0x00 : BitVec 8) ++ raw :=
  BitVec.signExtend_eq_append_of_le (by decide)

theorem decodeSample_low (raw : Raw) : (decodeSample raw).extractLsb' 0 24 = raw := by
  rw [decodeSample_eq_append, BitVec.extractLsb'_append_eq_right]

theorem decodeSample_high (raw : Raw) :
    (decodeSample raw).extractLsb' 24 8 = if raw.msb then 0xFF else 0x00 := by
  rw [decodeSample_eq_append, BitVec.extractLsb'_append_eq_left]

theorem decodeSample_toInt (raw : Raw) : (decodeSample raw).toInt = raw.toInt :=
  BitVec.toInt_signExtend_of_le (by decide)

/-- The low bits are the raw value itself, so DECODE loses nothing (R131). -/
theorem decodeSample_injective : Function.Injective decodeSample := fun raw raw' h => by
  rw [← decodeSample_low raw, h, decodeSample_low]

/-- Settles O34: the range is that of a 24-bit number in two's complement, for the signed value is kept. -/
theorem decodeSignExtends : Obligations.DecodeSignExtends := by
  intro raw
  have hlow : -8388608 ≤ raw.toInt := raw.le_toInt
  have hhigh : raw.toInt < 8388608 := raw.toInt_lt
  rw [decodeSample_toInt]
  exact ⟨rfl, decodeSample_low raw, decodeSample_high raw, hlow, by omega, fun raw' h => decodeSample_injective h⟩

/-! ## The shift as one run -/

/-- A word whose bit 23 - i is sample i is the samples assembled (R64, R99). -/
theorem eq_assembleSamples {acc : Raw} {bits : List Bool} (hlen : bits.length = 24)
    (h : ∀ j, acc.getLsbD j = (decide (j ≤ 23) && bits.getD (23 - j) false)) : acc = assembleSamples bits := by
  apply BitVec.eq_of_getLsbD_eq
  intro j hj
  have hbit := samplesAreAssembledMsbFirst bits hlen (23 - j) (by omega)
  rw [show 23 - (23 - j) = j by omega] at hbit
  rw [h, hbit, decide_eq_true (by omega : j ≤ 23), Bool.true_and, List.getD_eq_getElem]

/-- The pulses of a frame, from the first S_HI to S_EXIT, as one run. -/
theorem pulses_run {s : State} (h : s.eng.seq = .sHi) (hidx : s.eng.idx = 0) (hacc : s.eng.acc = 0)
    (hr : Along NoReset (120 + 4 * pulsesOf s.eng.sg) s) :
    ∃ (t : State) (bits : List Bool), bits.length = 24 ∧
      runTrace (120 + 4 * pulsesOf s.eng.sg) s =
        some (t, bits.flatMap dataPulse ++ (List.replicate (pulsesOf s.eng.sg) gainPulse).flatten) ∧
      t.eng = { s.eng with acc := assembleSamples bits, idx := 23, pcnt := 1, seq := .sExit } ∧
      t.pins = { s.pins with sck := false } := by
  obtain ⟨t, bits, hlen, run, hpins, acc, heng, hbits⟩ := dataPulses_run 23 h (by simp [hidx]) (hr.take (by omega))
  have hassembled : acc = assembleSamples bits := eq_assembleSamples hlen (by simpa [hacc] using hbits)
  obtain ⟨t', run', hpins', heng'⟩ := gainPulses_run (codeOf s.eng.sg).toNat (s := t) (by simp [heng])
    (by simp only [heng, pcntOf_toNat]) (hr.after run)
  exact ⟨t', bits, hlen, runTrace_add run run', by rw [heng', heng, hassembled], by rw [hpins', hpins]⟩

/-- Settles O38: the entry, the pulses and the exit in a row. -/
theorem shiftEmitsItsFrame : Obligations.ShiftEmitsItsFrame := by
  intro s h hr
  have hsteps : 126 + 4 * (codeOf s.eng.sg).toNat = (120 + 4 * pulsesOf s.eng.sg + 1) + 1 := by
    simp only [pulsesOf]; omega
  rw [hsteps] at hr ⊢
  obtain ⟨s1, e1, g1, p1, v1, -⟩ := busy_step hr.head (by simp [h]) (sequencer_sEnter _ _ h)
  have hsg : s1.eng.sg = s.eng.sg := by rw [g1]
  have r1 := hr.tail e1
  rw [← hsg] at r1 ⊢
  obtain ⟨s2, bits, hlen, run, g2, p2⟩ := pulses_run (by rw [g1]) (by rw [g1]) (by rw [g1]) (r1.take (by omega))
  obtain ⟨t, e3, g3, p3, v3, -⟩ := busy_step (r1.after run).head (by simp [g2]) (sequencer_sExit _ _ (by rw [g2]))
  refine ⟨t, bits, hlen, ?_, by rw [g3, g2, g1], by rw [p3, p2, p1]⟩
  rw [runTrace_succ_some e1 (runTrace_add run (runTrace_one e3)), v1, v3]
  simp [shiftTrace]

/-! ## A frame on a device that counts it -/

section

variable {c : Prop} {s : State} {r : Raw}

/-- PCNT above 1 counts down by one. -/
theorem pcnt_pred_toNat {p : BitVec 2} {n : Nat} (h : p.toNat = n + 2) : p ≠ 1 ∧ (p - 1).toNat = n + 1 := by
  have hlt := p.isLt
  refine ⟨?_, ?_⟩
  · rintro rfl
    simp at h
  · rw [BitVec.toNat_sub]
    simp
    omega

/-- Entering the shift the device has seen no pulse yet; the wire may show the level SCK was left at (R190). -/
theorem sEnter_sound {n : Nat} (h : s.eng.seq = .sEnter) (hp : SoundPremise c s) (hdir : s.pins.dirClk = .output)
    (hd : s.dev.Counting r 0 false n) :
    ∃ t ns, step s = .next t ∧ t.pins = s.pins ∧
      t.eng = { s.eng with mode := .critical, acc := 0, idx := 0, seq := .sHi } ∧
      t.dev.Counting r 0 s.pins.sck ns ∧ (s.pins.sck = true ∧ ns = 0 ∨ s.pins.sck = false) := by
  obtain ⟨t, e, g, p, -, d⟩ := sound_step hp (by rw [h]; rfl) (sequencer_sEnter _ _ h) rfl rfl rfl hdir (.inl rfl) rfl
    (by simp)
  dsimp only at p d
  cases hsck : s.pins.sck with
  | true => exact ⟨t, 0, e, p, g, by rw [d, hsck]; exact hd.rise _ 0 (by decide) (.inl rfl), .inl ⟨rfl, rfl⟩⟩
  | false => exact ⟨t, n, e, p, g, by rw [d, hsck]; exact hd.hold _ 0 (by simp), .inr rfl⟩

/-- The data pulses of a frame from IDX on, as one run: the device counts each, and where the line carries the result,
ACC takes its bits. -/
theorem dataPulses_sound (n : Nat) : ∀ {s : State} {p ns : Nat} {lvl : Bool}, s.eng.seq = .sHi →
    s.eng.mode = .critical → s.eng.idx.toNat + n = 23 → p + n = 23 → Along (SoundPremise c) (5 * (n + 1)) s →
    s.dev.Counting r p lvl ns →
    ((lvl = true ∧ ns = 0) ∨ (lvl = false ∧ (p = 0 ∨ Config.keepsHold 1 ns = true))) →
    s.pins.dirClk = .output → (c → s.pins.dirData = .input) →
    ∃ (t : State) (tr : List Event) (acc : Raw) (ns' : Nat), runTrace (5 * (n + 1)) s = some (t, tr) ∧
      t.pins = { s.pins with sck := false } ∧
      t.eng = { s.eng with acc := acc, idx := 23, pcnt := pcntOf s.eng.sg, seq := .gHi } ∧
      (c → ∀ j, acc.getLsbD j = (s.eng.acc.getLsbD j || (decide (j ≤ n) && r.getLsbD j))) ∧
      t.dev.Counting r 24 false ns' ∧ Config.keepsHold 1 ns' = true := by
  induction n with
  | zero =>
    intro s p ns lvl h hmode hidx hp hr hd hlvl hdir hin
    obtain rfl : p = 23 := by omega
    have hlast : s.eng.idx = 23 := BitVec.eq_of_toNat_eq (by simpa using hidx)
    obtain ⟨t, b, ns', run, hpins, heng, hdev, hkeep, hbit⟩ := dataPulse_sound h hmode hr hd hlvl hdir hin (by omega)
    rw [if_pos hlast] at heng
    refine ⟨t, _, orSample s.eng.acc s.eng.idx b, ns', run, hpins, by rw [heng, ← hlast], fun hc j => ?_, hdev, hkeep⟩
    rw [orSample_getLsbD _ _ _ (by omega), hlast, hbit hc]
    cases j <;> simp
  | succ n ih =>
    intro s p ns lvl h hmode hidx hp hr hd hlvl hdir hin
    rw [show 5 * (n + 1 + 1) = 5 + 5 * (n + 1) by omega] at hr ⊢
    have hmore : s.eng.idx ≠ 23 := by
      intro h23
      rw [h23] at hidx
      simp at hidx
    obtain ⟨-, hsucc⟩ := idx_succ_toNat (by omega) hmore
    obtain ⟨t, b, n1, run, hpins, heng, hdev, hkeep, hbit⟩ :=
      dataPulse_sound h hmode (hr.take (by omega)) hd hlvl hdir hin (by omega)
    rw [if_neg hmore] at heng
    obtain ⟨t', tr, acc, ns', run', hpins', heng', hacc, hdev', hkeep'⟩ := ih (by rw [heng]) (by rw [heng, ← hmode])
      (by simp only [heng]; omega) (by omega) (hr.after run) hdev (.inr ⟨rfl, .inr hkeep⟩)
      (by rw [hpins, ← hdir]) (by rw [hpins]; exact hin)
    refine ⟨t', _, acc, ns', runTrace_add run run', by rw [hpins', hpins], by rw [heng', heng], fun hc j => ?_, hdev',
      hkeep'⟩
    rw [hacc hc, heng]
    dsimp only
    rw [orSample_getLsbD _ _ _ (by omega), hbit hc, show 23 - s.eng.idx.toNat = n + 1 by omega,
      show 23 - p = n + 1 by omega, Bool.or_assoc]
    congr 1
    by_cases hj : j = n + 1
    · subst hj; simp
    · simp [hj, show j ≤ n + 1 ↔ j ≤ n by omega]

/-- The gain pulses of a frame from PCNT on, as one run: the device counts each. -/
theorem gainPulses_sound (n : Nat) : ∀ {s : State} {p ns : Nat}, s.eng.seq = .gHi → s.eng.mode = .critical →
    s.eng.pcnt.toNat = n + 1 → p + n < 27 → Along (SoundPremise c) (4 * (n + 1)) s → s.dev.Counting r p false ns →
    Config.keepsHold 1 ns = true → s.pins.dirClk = .output →
    ∃ (t : State) (tr : List Event) (ns' : Nat), runTrace (4 * (n + 1)) s = some (t, tr) ∧
      t.pins = { s.pins with sck := false } ∧ t.eng = { s.eng with pcnt := 1, seq := .sExit } ∧
      t.dev.Counting r (p + (n + 1)) false ns' := by
  induction n with
  | zero =>
    intro s p ns h hmode hpcnt hp hr hd hkeep hdir
    have hlast : s.eng.pcnt = 1 := BitVec.eq_of_toNat_eq (by simpa using hpcnt)
    obtain ⟨t, ns', run, hpins, heng, hdev, -⟩ := gainPulse_sound h hmode hr hd hkeep hdir hp
    rw [if_pos hlast] at heng
    exact ⟨t, _, ns', run, hpins, by rw [heng, ← hlast], hdev⟩
  | succ n ih =>
    intro s p ns h hmode hpcnt hp hr hd hkeep hdir
    rw [show 4 * (n + 1 + 1) = 4 + 4 * (n + 1) by omega] at hr ⊢
    obtain ⟨hmore, hpred⟩ := pcnt_pred_toNat hpcnt
    obtain ⟨t, n1, run, hpins, heng, hdev, hkeep⟩ :=
      gainPulse_sound h hmode (hr.take (by omega)) hd hkeep hdir (by omega)
    rw [if_neg hmore] at heng
    obtain ⟨t', tr, ns', run', hpins', heng', hdev'⟩ := ih (by rw [heng]) (by rw [heng, ← hmode])
      (by rw [heng]; exact hpred) (by omega) (hr.after run) hdev hkeep (by rw [hpins, ← hdir])
    rw [show p + 1 + (n + 1) = p + (n + 1 + 1) by omega] at hdev'
    exact ⟨t', _, ns', runTrace_add run run', by rw [hpins', hpins], by rw [heng', heng], hdev'⟩

/-- A whole frame, from S_ENTER to S_EXIT: the device has counted all its pulses, and where the data line carries the
result of the conversion, ACC holds it (R211, R212). -/
theorem frame_sound {n : Nat} (h : s.eng.seq = .sEnter)
    (hr : Along (SoundPremise c) (125 + 4 * (codeOf s.eng.sg).toNat) s) (hdir : s.pins.dirClk = .output)
    (hin : c → s.pins.dirData = .input) (hd : s.dev.Counting r 0 false n) :
    ∃ (t : State) (tr : List Event) (acc : Raw) (ns : Nat),
      runTrace (125 + 4 * (codeOf s.eng.sg).toNat) s = some (t, tr) ∧ t.pins = { s.pins with sck := false } ∧
      t.eng = { s.eng with mode := .critical, acc := acc, idx := 23, pcnt := 1, seq := .sExit } ∧ (c → acc = r) ∧
      t.dev.Counting r (24 + pulsesOf s.eng.sg) false ns := by
  rw [show 125 + 4 * (codeOf s.eng.sg).toNat = (5 * (23 + 1) + 4 * ((codeOf s.eng.sg).toNat + 1)) + 1 by omega] at hr ⊢
  obtain ⟨s1, n1, e1, p1, g1, d1, hlvl⟩ := sEnter_sound h hr.head hdir hd
  have r1 := hr.tail e1
  obtain ⟨s2, tr2, acc, n2, run2, p2, g2, hacc, d2, k2⟩ := dataPulses_sound 23 (by rw [g1]) (by rw [g1])
    (by simp [g1]) rfl (r1.take (by omega)) d1 (hlvl.imp_right fun hlow => ⟨hlow, .inl rfl⟩) (by rw [p1, hdir])
    (by rw [p1]; exact hin)
  have hcode : (codeOf s.eng.sg).toNat < 3 := by cases s.eng.sg <;> decide
  obtain ⟨t, tr3, n3, run3, p3, g3, d3⟩ := gainPulses_sound (codeOf s.eng.sg).toNat (by rw [g2]) (by rw [g2, g1])
    (by simp only [g2, g1, pcntOf_toNat]) (by omega) (r1.after run2) d2 k2 (by rw [p2, p1, ← hdir])
  refine ⟨t, _, acc, n3, runTrace_succ_some e1 (runTrace_add run2 run3), by rw [p3, p2, p1], by rw [g3, g2, g1],
    fun hc => BitVec.eq_of_getLsbD_eq fun j hj => ?_, d3⟩
  simpa [g1, show j ≤ 23 by omega] using hacc hc j

/-- The device is on, undisturbed and in the middle of no conversion, and has the selection `g`. -/
structure Device.Latched (g : Selection) (d : Device) : Prop where
  on : d.pwr = .on
  undisturbed : d.disturbed = false
  notShifting : d.partShifted = false
  sel : d.sel = g

/-- A device that has counted the pulses of a frame for `g` has latched `g` (R212). -/
theorem Device.Counting.latched {g : Selection} {lvl : Bool} {ns : Nat} {d : Device}
    (h : d.Counting r (24 + pulsesOf g) lvl ns) : d.Latched g where
  on := h.on
  undisturbed := h.undisturbed
  notShifting := by
    have hgain := one_le_pulsesOf g
    simp only [Device.partShifted, h.pulses, Bool.and_eq_false_iff, decide_eq_false_iff_not]
    omega
  sel := by
    have hgain := one_le_pulsesOf g
    have hsel := h.sel (by omega)
    rw [selectionOfPulses_eq_some_iff.2 rfl] at hsel
    exact (Option.some.inj hsel).symm

/-- A move other than a reset leaves the selection latched (R126). -/
theorem Device.Latched.move {g : Selection} {d : Device} (h : d.Latched g) (n : Nat) {m : DeviceMove}
    (hm : m ≠ .reset) : (d.move n m).Latched g := by
  obtain ⟨hsel, hdist, hpart⟩ := Device.move_sel h.undisturbed h.notShifting n hm
  exact ⟨by rw [Device.move_pwr, h.on], hdist, hpart, by rw [hsel, h.sel]⟩

/-- Outside the critical phases no frame is under way (R31). -/
theorem State.midFrame_of_not_critical {u : State} (h : inCriticalPhase u.eng.seq = false) : u.midFrame = false := by
  unfold State.midFrame
  split <;> simp_all [inCriticalPhase, cutsFrame]

/-- After the exit of the shift with CLK low, a device that has counted a frame for `g` has latched `g`, whatever its
own move, a reset apart (R200, R212). -/
theorem State.deviceAfter_latched {u : State} {m : EnvMove} {g : Selection} {ns : Nat} (hmode : u.eng.mode = .normal)
    (hev : u.events = [.critExit]) (hphase : inCriticalPhase u.eng.seq = false) (hdir : u.pins.dirClk = .output)
    (hsck : u.pins.sck = false) (hd : u.dev.Counting r (24 + pulsesOf g) false ns) (hm : m.device ≠ .reset) :
    (u.deviceAfter m).Latched g := by
  have hkeeps : u.keepsFrame m = true :=
    State.keepsFrame_normal hmode (by simp [hev]) (State.midFrame_of_not_critical hphase)
  have hstray : u.strayEdge = false := by simp [State.strayEdge, hd.clk]
  rw [State.deviceAfter_kept hkeeps hstray, clkWire_output u hdir, hsck]
  exact (hd.hold _ _ (by simp)).latched.move _ hm

/-- The step of S_EXIT with the device of a frame for `g`. -/
theorem sExit_sound {g : Selection} {ns : Nat} (h : s.eng.seq = .sExit) (hr : NoReset s)
    (hm : s.nextMove.device ≠ .reset) (hdir : s.pins.dirClk = .output) (hsck : s.pins.sck = false)
    (hd : s.dev.Counting r (24 + pulsesOf g) false ns) : ∃ t, step s = .next t ∧ t.dev.Latched g := by
  obtain ⟨t, e, -, -, -, hdev⟩ := busy_step_device hr (by simp [h]) (sequencer_sExit _ _ h) rfl rfl
  refine ⟨t, e, hdev ▸ State.deviceAfter_latched rfl rfl ?_ hdir hsck hd hm⟩
  dsimp only
  split <;> rfl

end

/-- Settles O50: the frame's pulses are counted one by one, the last of them selects SG, and the exit leaves that as it
is. -/
theorem soundFrameLatchesTheSelection : Obligations.SoundFrameLatchesTheSelection := by
  intro s h hdir _ hpulses hon hclk hdist hr
  rw [show 126 + 4 * (codeOf s.eng.sg).toNat = (125 + 4 * (codeOf s.eng.sg).toNat) + 1 by omega] at hr ⊢
  have hcount : s.dev.Counting s.dev.result 0 false s.dev.levelNs := ⟨hpulses, hon, hdist, rfl, hclk, rfl, by simp⟩
  have hsound : Along (SoundPremise False) _ s :=
    hr.mono fun _ ⟨hrst, hplat, hdevice⟩ => ⟨hrst, hplat, hdevice, False.elim⟩
  obtain ⟨t, tr, acc, ns, run, hpins, heng, -, hdev⟩ := frame_sound h (hsound.take (by omega)) hdir False.elim hcount
  obtain ⟨hrst, -, hmove, -⟩ := (hr.after run).head
  obtain ⟨t', e, hlatched⟩ := sExit_sound (by rw [heng]) hrst hmove (by rw [hpins, ← hdir]) (by rw [hpins]) hdev
  refine ⟨t', _, runTrace_add run (runTrace_one e), hlatched.sel, hlatched.undisturbed, fun n raw => ?_⟩
  obtain ⟨hresult, hsel⟩ := Device.move_complete hlatched.on hlatched.undisturbed hlatched.notShifting n raw
  exact ⟨hresult, by rw [hsel, hlatched.sel]⟩

end Sys2Proof.Machine

/-! PROOFS. The statements on readiness: the comparison of W_TIME against true time (O37), IS_READY as a run and against
the device (O40, O53), and the waits: what a timed-out SET_GAIN leaves (O45), a line that never reads low (O47), and the
bound on the steps of a WAIT_READY on a clock that advances (O49). -/

namespace Sys2Proof.Machine

open Sys2Proof

/-! ## Elapsed time -/

/-- Less than 2^32 ms apart, the difference of the two counter values is the true elapsed time (R145). -/
theorem elapsed_toNat {start now : Nat} (hle : start ≤ now) (hlt : now - start < 2 ^ 32) :
    (BitVec.ofNat 32 now - BitVec.ofNat 32 start).toNat = now - start := by
  rw [BitVec.toNat_sub, BitVec.toNat_ofNat, BitVec.toNat_ofNat]
  omega

/-- Settles O37: W_TIME compares the modular difference, which is the true elapsed time. -/
theorem elapsedTimeIsWraparoundSafe : Obligations.ElapsedTimeIsWraparoundSafe := fun _ _ _ hle hlt => by
  rw [expired_iff, elapsed_toNat hle hlt]

/-! ## IS_READY -/

/-- Settles O40: the acceptance is the first step, and the second reads the line and answers. -/
theorem isReadyAnswersTheLine : Obligations.IsReadyAnswersTheLine := by
  intro s ⟨hrst, hidle, hvalid, hword⟩ hr
  obtain ⟨_, u, m, e, hu, hpu, hev, -⟩ :=
    accept_run (i := .isReady) hrst hidle hvalid (hword ▸ decode_encode .isReady) nofun
  cases m
  have hq : u.eng.seq = .rCheck := by rw [hu]
  obtain ⟨t, e', ht, hpt, hev', -⟩ := busy_step (hr.tail e).head (by simp [hq]) (sequencer_rCheck _ _ hq)
  refine ⟨u, t, e, fun hd => dataLevel_input u (by rw [hpu]; exact hd), ?_, ?_, hpt.trans hpu⟩
  · rw [runTrace_succ_some e (runTrace_one e'), hev, hev']
    rfl
  · rw [ht, hu]
    rfl

theorem readyDatum_eq_one_iff {b : Bool} : readyDatum b = 1 ↔ b = false := by cases b <;> decide

theorem readyDatum_eq_zero_iff {b : Bool} : readyDatum b = 0 ↔ b = true := by cases b <;> decide

/-- Settles O53: the datum is the inverted line, and by the ready convention the line is DEV_PENDING inverted. -/
theorem isReadyTellsWhetherAConversionIsAvailable : Obligations.IsReadyTellsWhetherAConversionIsAvailable := by
  intro s hq hmode hdir hon hshift hconv
  have hlevel : s.dataLevel = !s.dev.pending := (dataLevel_input s hdir).trans (hconv hon hmode hshift)
  refine ⟨_, (exec_busy .isReady (by simp [hq])).trans (congrArg _ (sequencer_rCheck _ _ hq)), ?_, ?_⟩
  · rw [readyDatum_eq_one_iff, hlevel, Bool.not_eq_false']
  · rw [readyDatum_eq_zero_iff, hlevel, Bool.not_eq_true']

/-! ## The first steps of a command -/

section

variable {k : Nat} {s t : State} {tr : List Event}

/-- A run to the first response begins with the command's acceptance. -/
theorem FirstResponse.accept_inv {i : Instr} (h : FirstResponse i s k t tr) (hg : i = .read → s.eng.gain ≠ none) :
    ∃ u s1 k' tr', AcceptMove s i u ∧ s1.eng = u.eng ∧ s1.pins = u.pins ∧ tr = u.events ++ tr' ∧ k = k' + 1 ∧
      UntilResponse k' s1 t tr' := by
  obtain ⟨hrst, hidle, hvalid, hword⟩ := h.accepts
  obtain ⟨u, s1, m, e, he, hp, hev, -⟩ := accept_run hrst hidle hvalid (hword ▸ decode_encode i) hg
  obtain ⟨-, k', hk, hnext⟩ := h.until.inv (by simp [hidle])
  obtain ⟨tr', htr, hb⟩ := hnext s1 e
  exact ⟨u, s1, k', tr', m, he, hp, by rw [← hev, htr], hk, hb⟩

/-- The first step of a wait loads T0 from the clock (R186). -/
theorem UntilResponse.wStart (h : UntilResponse k s t tr) (hq : s.eng.seq = .wStart) :
    ∃ n s1 k' tr', s1.eng = { s.eng with t0 := n, seq := .wCheck } ∧ s1.pins = s.pins ∧ tr = .now n :: tr' ∧
      k = k' + 1 ∧ UntilResponse k' s1 t tr' := by
  obtain ⟨k', s1, tr', hk, he, hp, htr, hb⟩ := h.next (by simp [hq]) (by simp [hq]) (sequencer_wStart _ _ hq)
  exact ⟨s.nowMs, s1, k', tr', he, hp, htr, hk, hb⟩

/-! ## From S_ENTER on every response is OK -/

/-- The phases of the shift and of the completion after it. -/
def shiftOrCompletionPhase (p : Phase) : Bool :=
  frameInProgress p || p = .sExit || p = .xDecode || p = .xCommit

/-- From such a phase the table goes on to another one or answers OK (R190 to R202). -/
theorem TableMove.shiftOrCompletion {op : BitVec 8} {arg : Word} {u : State} (m : TableMove op arg s u)
    (h : shiftOrCompletionPhase s.eng.seq = true) :
    shiftOrCompletionPhase u.eng.seq = true ∨ (u.eng.seq = .resp ∧ u.eng.rspStatus = .ok) := by
  cases m <;> simp_all [shiftOrCompletionPhase, frameInProgress, cutsFrame, inCriticalPhase]

theorem shiftOrCompletionPhase_busy {p : Phase} (h : shiftOrCompletionPhase p = true) : p ≠ .idle ∧ p ≠ .resp := by
  constructor <;> rintro rfl <;> exact absurd h (by decide)

theorem UntilResponse.ok_of_shiftOrCompletion (h : UntilResponse k s t tr)
    (hs : shiftOrCompletionPhase s.eng.seq = true) : t.eng.rspStatus = .ok := by
  induction k generalizing s tr with
  | zero =>
    obtain ⟨-, _, hk, -⟩ := h.inv (shiftOrCompletionPhase_busy hs).2
    cases hk
  | succ k ih =>
    obtain ⟨hidle, hresp⟩ := shiftOrCompletionPhase_busy hs
    obtain ⟨k', s1, tr', hk, he, -, -, hb⟩ := h.next hresp hidle rfl
    obtain rfl := Nat.succ.inj hk
    rcases (sequencer_tableMove s.eng.op s.eng.arg s).shiftOrCompletion hs with hon | ⟨hq, hok⟩
    · exact ih hb (he ▸ hon)
    · obtain ⟨-, rfl, -⟩ := hb.zero (he ▸ hq)
      exact he ▸ hok

end

/-! ## The waits -/

/-- Settles O45: an invalid operand is not answered Timeout and a shift ends in OK, so the run is an acceptance and one
wait that expires, which writes T0 and the response and emits reads, yields and clock values only. -/
theorem timedOutSetGainKeepsGainAndPins : Obligations.TimedOutSetGainKeepsGainAndPins := by
  intro arg s t k tr h htimeout
  obtain ⟨u, s1, k1, tr1, m, he1, hp1, rfl, -, h1⟩ := h.accept_inv nofun
  cases m with
  | setGainInvalid _ hg =>
    obtain ⟨-, rfl, -⟩ := h1.zero (by rw [he1])
    simp [he1] at htimeout
  | setGain _ g hg =>
    obtain ⟨n, s2, k2, tr2, he2, hp2, rfl, -, h2⟩ := h1.wStart (by rw [he1])
    obtain ⟨wt, -, -, hwt, ⟨-, rfl, -, hpt, het, -⟩ | ⟨-, -, ⟨hop, -⟩ | ⟨-, s', k', tr', -, -, -, he', h'⟩⟩⟩ :=
      wait_run k2 s2 t tr2 (by rw [he2]) h2
    · refine ⟨by rw [het, he2, he1], by rw [het, he2, he1], by rw [het, he2, he1], by rw [hpt, hp2, hp1], by rw [het],
        fun v hv => ?_, fun n hn => ?_⟩
      · simpa using hwt (.w v) (by simpa using hv)
      · simpa using hwt (.us n) (by simpa using hn)
    · rw [he2, he1] at hop
      exact absurd hop (show Opcode.setGain ≠ Opcode.waitReady by decide)
    · rw [h'.ok_of_shiftOrCompletion (by rw [he']; rfl)] at htimeout
      cases htimeout

/-- Settles O47: a wait that ends ready ends with a low read, so this one expires, and its last clock value is at least
the bound away from T0. -/
theorem neverReadyIsAnsweredTimeout : Obligations.NeverReadyIsAnsweredTimeout := by
  intro ms s t k tr h hhigh
  obtain ⟨u, s1, k1, tr1, m, he1, -, rfl, -, h1⟩ := h.accept_inv nofun
  cases m
  obtain ⟨t0, s2, k2, tr2, he2, -, rfl, -, h2⟩ := h1.wStart (by rw [he1])
  obtain ⟨wt, _, -, -, ⟨-, rfl, -, -, het, ⟨n, rest, rfl, hn⟩, -⟩ | ⟨⟨rest, rfl⟩, -, hend⟩⟩ :=
    wait_run k2 s2 t tr2 (by rw [he2]) h2
  · rw [he2, he1] at hn
    exact ⟨by rw [het], t0, n, .now t0 :: rest, rfl, by simp, hn⟩
  · have hmem : .r false ∈ tr2 := by rcases hend with ⟨-, rfl, -⟩ | ⟨-, _, _, _, rfl, -⟩ <;> simp
    exact absurd (hhigh false (by simpa using hmem)) (by decide)

/-! ## A wait on a clock that advances -/

/-- The clock advances at least 1 ms at a yield and at most `d` ms in any step, and rst is released. -/
def Advancing (d : Nat) (u : State) : Prop :=
  NoReset u ∧ (u.eng.seq = .wYield → 1 ≤ u.nextMove.msPassed) ∧ u.nextMove.msPassed ≤ d

/-- A busy step on such a clock: the table's engine, and a clock that is at most `d` ms on, and 1 ms at a yield. -/
theorem busy_step_advancing {d : Nat} {s u : State} (hr : Advancing d s) (hs : s.eng.seq ≠ .idle)
    (hu : sequencer s.eng.op s.eng.arg s = u) :
    ∃ t, step s = .next t ∧ t.eng = u.eng ∧ s.clockMs ≤ t.clockMs ∧ t.clockMs ≤ s.clockMs + d ∧
      (s.eng.seq = .wYield → s.clockMs + 1 ≤ t.clockMs) := by
  obtain ⟨hrst, hyield, hd⟩ := hr
  obtain ⟨t, e, he, -⟩ := busy_step hrst hs hu
  obtain ⟨-, -, hc, -⟩ := step_script e
  exact ⟨t, e, he, by omega, by omega, fun hq => by have := hyield hq; omega⟩

/-- Within `n` steps, none of them with a reset, the command is answered. -/
def AnsweredWithin (n : Nat) (s : State) : Prop := ∃ k t tr, k ≤ n ∧ UntilResponse k s t tr

theorem AnsweredWithin.of_resp {n : Nat} {s : State} (h : s.eng.seq = .resp) : AnsweredWithin n s :=
  ⟨0, s, [], Nat.zero_le n, .nil h⟩

theorem AnsweredWithin.step {n : Nat} {s s1 : State} (hr : NoReset s) (hs : s.eng.seq ≠ .resp)
    (e : step s = .next s1) : AnsweredWithin n s1 → AnsweredWithin (n + 1) s := fun ⟨k, t, tr, hk, hb⟩ =>
  ⟨k + 1, t, s1.events ++ tr, Nat.succ_le_succ hk, .cons hr hs e hb⟩

/-- The wait of WAIT_READY `ms` began at `start` ms of true time and stands before its look at the line, with two steps
to go to a clock read that is still within the counter's range. -/
structure Polling (ms : Word) (d start : Nat) (s : State) : Prop where
  seq : s.eng.seq = .wCheck
  op : s.eng.op = Opcode.waitReady
  tmo : s.eng.tmo = ms
  t0 : s.eng.t0 = BitVec.ofNat 32 start
  started : start ≤ s.clockMs
  inRange : s.clockMs + 2 * d < start + 2 ^ 32

section

variable {ms : Word} {d start n : Nat} {s : State}

/-- One round of the wait, W_CHECK to W_TIME (R187 to R189): unless it is answered, it polls again with at least 1 ms
more elapsed, and the bound was not reached before. -/
theorem Polling.round (h : Polling ms d start s) (hbound : ms.toNat + 3 * d < 2 ^ 32)
    (hr : Along (Advancing d) (n + 3) s)
    (hagain : ∀ v, Polling ms d start v → s.clockMs + 1 ≤ v.clockMs → s.clockMs < start + ms.toNat →
      Along (Advancing d) n v → AnsweredWithin n v) : AnsweredWithin (n + 3) s := by
  obtain ⟨hseq, hop, htmo, ht0, hstarted, hrange⟩ := h
  cases hb : s.dataLevel with
  | false =>
    have hu := sequencer_wCheck_ready s.eng.arg hseq hb
    rw [← hop] at hu
    obtain ⟨v, e, g, -⟩ := busy_step_advancing hr.head (by simp [hseq]) hu
    exact .step hr.head.1 (by simp [hseq]) e (.of_resp (by rw [g]))
  | true =>
    obtain ⟨v1, e1, g1, lo1, hi1, -⟩ :=
      busy_step_advancing hr.head (by simp [hseq]) (sequencer_wCheck_high _ _ hseq hb)
    have r1 := hr.tail e1
    have q1 : v1.eng.seq = .wYield := by rw [g1]
    obtain ⟨v2, e2, g2, lo2, hi2, hyield⟩ := busy_step_advancing r1.head (by simp [q1]) (sequencer_wYield _ _ q1)
    have r2 := r1.tail e2
    have q2 : v2.eng = { s.eng with seq := .wTime } := by rw [g2, g1]
    have hadv := hyield q1
    have hexp : expired v2.nowMs v2.eng.t0 v2.eng.tmo = true ↔ ms.toNat ≤ v2.clockMs - start := by
      rw [q2, ht0, htmo]
      exact elapsedTimeIsWraparoundSafe _ _ _ (by omega) (by omega)
    refine .step hr.head.1 (by simp [hseq]) e1 (.step r1.head.1 (by simp [q1]) e2 ?_)
    cases he : expired v2.nowMs v2.eng.t0 v2.eng.tmo with
    | true =>
      obtain ⟨v3, e3, g3, -⟩ := busy_step_advancing r2.head (by simp [q2]) (sequencer_wTime_expired _ _ (by rw [q2]) he)
      exact .step r2.head.1 (by simp [q2]) e3 (.of_resp (by rw [g3]))
    | false =>
      obtain ⟨v3, e3, g3, lo3, hi3, -⟩ :=
        busy_step_advancing r2.head (by simp [q2]) (sequencer_wTime_again _ _ (by rw [q2]) he)
      have hearly : ¬ ms.toNat ≤ v2.clockMs - start := by rw [← hexp, he]; decide
      have hpoll : Polling ms d start v3 :=
        ⟨by rw [g3], by rw [g3, q2, hop], by rw [g3, q2, htmo], by rw [g3, q2, ht0], by omega, by omega⟩
      exact .step r2.head.1 (by simp [q2]) e3 (hagain v3 hpoll (by omega) (by omega) (r2.tail e3))

/-- With `n` ms left to the bound, `n + 1` rounds answer the wait. -/
theorem Polling.answeredWithin (h : Polling ms d start s) (hbound : ms.toNat + 3 * d < 2 ^ 32)
    (hleft : ms.toNat ≤ s.clockMs - start + n) (hr : Along (Advancing d) (3 * (n + 1)) s) :
    AnsweredWithin (3 * (n + 1)) s := by
  have hstarted := h.started
  induction n generalizing s with
  | zero => exact h.round hbound hr fun v _ _ hearly _ => by omega
  | succ n ih =>
    exact h.round hbound hr fun v hv hadv _ hr' => ih hv (by omega) hr' hv.started

/-- A wait in W_START polls after one step. -/
theorem polling_of_wStart (hq : s.eng.seq = .wStart) (hop : s.eng.op = Opcode.waitReady) (htmo : s.eng.tmo = ms)
    (hbound : 3 * d < 2 ^ 32) (hr : Advancing d s) :
    ∃ v, step s = .next v ∧ Polling ms d s.clockMs v := by
  obtain ⟨v, e, g, lo, hi, -⟩ := busy_step_advancing hr (by simp [hq]) (sequencer_wStart _ _ hq)
  exact ⟨v, e, by rw [g], by rw [g, hop], by rw [g, htmo], by rw [g]; rfl, lo, by omega⟩

end

/-- Settles O49: acceptance and W_START take two steps, and each round of the wait brings the clock, which stays within
the counter's range, 1 ms nearer to the bound. -/
theorem waitReadyEndsWhenTheClockAdvances : Obligations.WaitReadyEndsWhenTheClockAdvances := by
  intro ms d s hacc hbound hr
  obtain ⟨hrst, hidle, hvalid, hword⟩ := hacc
  replace hr : Along (Advancing d) (3 * (ms.toNat + 1) + 2) s := hr
  obtain ⟨_, s1, m, e1, g1, -⟩ :=
    accept_run (i := .waitReady ms) hrst hidle hvalid (hword ▸ decode_encode (.waitReady ms)) nofun
  cases m
  have r1 := hr.tail e1
  have q1 : s1.eng.seq = .wStart := by rw [g1]
  obtain ⟨s2, e2, hpoll⟩ := polling_of_wStart (ms := ms) q1 (by rw [g1]) (by rw [g1]) (by omega) r1.head
  have hans : AnsweredWithin (3 * (ms.toNat + 1)) s2 := hpoll.answeredWithin hbound (by omega) (r1.tail e2)
  obtain ⟨k, t, tr, hk, hb⟩ : AnsweredWithin (3 * (ms.toNat + 1) + 2) s :=
    .step hrst (by simp [hidle]) e1 (.step r1.head.1 (by simp [q1]) e2 hans)
  exact ⟨k, t, tr, hk, ⟨hrst, hidle, hvalid, hword⟩, hb.busy, hb.run, hb.responds⟩

end Sys2Proof.Machine

/-! PROOFS. The statements on the lifecycle: what the acceptances do (O12, O14), SET_POWER as a run and on the device (O41,
O52), READ, SET_GAIN and INIT as runs (O39, O42), and what a failed INIT leaves (O46). -/

namespace Sys2Proof.Machine

open Sys2Proof

/-! ## Acceptance -/

section

variable {s : State}

/-- INIT in IDLE is its acceptance (R181). -/
theorem exec_init_of_idle (h : s.eng.seq = .idle) (arg : Word) : exec (.init arg) s = .next (acceptInit arg s) :=
  if_pos h

/-- SET_GAIN in IDLE is its acceptance (R181). -/
theorem exec_setGain_of_idle (h : s.eng.seq = .idle) (arg : Word) :
    exec (.setGain arg) s = .next (acceptSetGain arg s) :=
  if_pos h

/-- A command presented in IDLE is accepted by the next step, READ if there is a gain. -/
theorem accepts_step {i : Instr} (h : Accepts i s) (hg : i = .read → s.eng.gain ≠ none) :
    ∃ u t, AcceptMove s i u ∧ step s = .next t ∧ t.eng = u.eng ∧ t.pins = u.pins ∧ t.events = u.events := by
  obtain ⟨hrst, hidle, hvalid, hword⟩ := h
  obtain ⟨u, t, m, e, he, hp, hev, -⟩ := accept_run hrst hidle hvalid (hword ▸ decode_encode i) hg
  exact ⟨u, t, m, e, he, hp, hev⟩

end

/-- Settles O12: the two acceptances, and the operands without a selection are those not below 3. -/
theorem gainCommandsAreValidatedFirst : Obligations.GainCommandsAreValidatedFirst := by
  intro arg s hidle
  rw [exec_init_of_idle hidle, exec_setGain_of_idle hidle]
  refine ⟨fun g hg => ?_, fun hinvalid => ?_⟩
  · rw [acceptInit_valid s hg, acceptSetGain_valid s hg]
    exact ⟨rfl, rfl⟩
  · have hnone := gainOperand_eq_none.2 hinvalid
    rw [acceptInit_invalid s hnone, acceptSetGain_invalid s hnone]
    exact ⟨rfl, rfl⟩

/-- Settles O14: in IDLE the meaning of READ is the fault or the acceptance, by whether GAIN is written. -/
theorem readIsAcceptedOnceGainIsWritten : Obligations.ReadIsAcceptedOnceGainIsWritten := by
  intro s hidle
  rcases exec_idle .read hidle with ⟨-, hnone, hfault⟩ | ⟨u, hx, m⟩
  · exact ⟨fun g hg => by simp [hnone] at hg, fun _ => hfault⟩
  · cases m with
    | read g hg =>
      refine ⟨fun g' hg' => ?_, fun hnone => by simp [hnone] at hg⟩
      obtain rfl : g = g' := Option.some.inj (hg.symm.trans hg')
      exact hx

/-! ## The power state of the device after a step -/

/-- A device in power-down sees its clock high (R213), so a low wire powers it up or leaves it on. -/
theorem Device.observe_low_pwr {d : Device} (h : d.LowPowerOk) (n ns : Nat) : (d.observe n false ns).pwr = .on := by
  have hedge : (d.edge n false).pwr = .on := by
    rw [Device.edge_pwr]
    cases hp : d.pwr with
    | on => simp
    | down => simp [(h hp).1]
  simpa [Device.observe] using hedge

/-- A wire that is high for the power-down time powers the device down (R213). -/
theorem Device.observe_high_pwr {ns : Nat} (hns : 1000 * Config.tPdMinUs ≤ ns) (n : Nat) (d : Device) :
    (d.observe n true ns).pwr = .down := by
  have hlevel : 1000 * Config.tPdMinUs ≤ d.levelTime true ns := by
    unfold Device.levelTime
    split <;> omega
  unfold Device.observe
  dsimp only
  cases (d.edge n true).pwr with
  | on => rw [if_pos ⟨rfl, rfl, hlevel⟩]; rfl
  | down => simp

/-- After a step the device has the power state it has seen on the wire: nothing else in a step changes it (R76, R213;
log 15, log 30). -/
theorem State.deviceAfter_pwr (s : State) (m : EnvMove) :
    (s.deviceAfter m).pwr = (s.dev.observe s.draws s.clkWire (s.stepNs + m.gapNs)).pwr :=
  State.deviceAfter_of (P := fun d => d.pwr = (s.dev.observe s.draws s.clkWire (s.stepNs + m.gapNs)).pwr) s m rfl
    (fun d h => (d.stray_pwr _).trans h) (fun _ h => h) (fun d h => (d.move_pwr _ _).trans h)

/-- The invariant holds wherever a run leads. -/
theorem SequencerInv.run {k : Nat} {s t : State} {tr : List Event} (h : SequencerInv s)
    (hr : runTrace k s = some (t, tr)) : SequencerInv t :=
  ((Along.of_kept everyStepKeepsTheInvariant (fun _ h => h) (k + 1) h).after hr).head

/-! ## SET_POWER -/

section

variable {s : State} {down : Bool}

/-- SET_POWER up to its coarse delay: the acceptance and the write of the clock (R161, R184). -/
theorem setPower_pHold_run (h : Accepts (.setPower down) s) (hr : Along NoReset 2 s) :
    ∃ u, runTrace 2 s = some (u, [.w down]) ∧
      u.eng = { s.eng with op := Opcode.setPower, arg := downArg down, seq := .pHold } ∧
      u.pins = { s.pins with sck := down } := by
  obtain ⟨_, s1, m, e1, g1, p1, v1⟩ := accepts_step h nofun
  cases m
  have q1 : s1.eng.seq = .pSet := by rw [g1]
  obtain ⟨u, e2, g2, p2, v2, -⟩ := busy_step (hr.tail e1).head (by simp [q1]) (sequencer_pSet _ _ q1)
  have hlevel : powerLevel s1.eng.op s1.eng.arg = down := by rw [g1]; exact powerLevel_setPower down
  rw [hlevel] at p2 v2
  refine ⟨u, ?_, by rw [g2, g1], by rw [p2, p1]⟩
  rw [runTrace_succ_some e1 (runTrace_one e2), v1, v2]
  rfl

/-- The coarse delay of SET_POWER answers it; the device sees the clock wire for at least the delay (R185, R213). -/
theorem setPower_pHold_step (hq : s.eng.seq = .pHold) (hop : s.eng.op = Opcode.setPower) (hr : NoReset s) :
    ∃ t n ns, step s = .next t ∧ t.eng = { s.eng with rspStatus := .ok, rspData := 0, seq := .resp } ∧
      t.pins = s.pins ∧ t.events = [.tick, .rsp .ok 0] ∧ t.dev.pwr = (s.dev.observe n s.clkWire ns).pwr ∧
      1000 * Config.tTickUs + s.inputs.overrunNs ≤ ns := by
  obtain ⟨t, e, g, p, v, d⟩ :=
    busy_step hr (by simp [hq]) (sequencer_pHold_power _ _ hq (by rw [hop]; decide))
  refine ⟨t, _, _, e, g, p, v, by rw [d]; exact State.deviceAfter_pwr _ _, ?_⟩
  simp [State.stepNs, eventNs]

end

/-- Settles O41: the acceptance and the write of the clock, and the coarse delay that answers. -/
theorem setPowerDrivesTheClock : Obligations.SetPowerDrivesTheClock := by
  intro down s h hr
  obtain ⟨u, run, gu, pu⟩ := setPower_pHold_run h (hr.take (by omega))
  obtain ⟨t, _, _, e, g, p, v, -⟩ :=
    setPower_pHold_step (by rw [gu]) (by rw [gu]) (hr.after (k := 1) run).head
  refine ⟨t, ?_, ?_, p.trans pu⟩
  · rw [runTrace_add run (runTrace_one e), v]
    rfl
  · rw [g, gu]
    rfl

/-- Settles O52: the coarse delay holds the wire at the level written, and by the invariant a device that is powered
down has nothing pending. -/
theorem powerFollowsTheClockLevel : Obligations.PowerFollowsTheClockLevel := by
  intro down s hinv h hdir hr
  obtain ⟨u, run, gu, pu⟩ := setPower_pHold_run h ((hr.mono fun _ hp => hp.1).take (by omega))
  obtain ⟨hrst, hcoarse⟩ := (hr.after (k := 1) run).head
  have hq : u.eng.seq = .pHold := by rw [gu]
  obtain ⟨t, n, ns, e, -, -, -, hpwr, hns⟩ := setPower_pHold_step hq (by rw [gu]) hrst
  have hwire : u.clkWire = down := by rw [clkWire_output u (by rw [pu, hdir]), pu]
  have runt := runTrace_add run (runTrace_one e)
  rw [hwire] at hpwr
  refine ⟨t, _, runt, ?_, ?_⟩
  · rintro rfl
    have hdown : t.dev.pwr = .down := by rw [hpwr, Device.observe_high_pwr ((hcoarse hq).trans hns)]
    obtain ⟨-, hpending⟩ := (hinv.run runt).power_down_is_high hdown
    exact ⟨hdown, hpending⟩
  · rintro rfl
    rw [hpwr, Device.observe_low_pwr (hinv.run run).power_down_is_high]

/-! ## READ -/

/-- Settles O39: the acceptance, the shift with GAIN's pulses, and DECODE of the samples assembled. -/
theorem readAnswersTheDecodedSample : Obligations.ReadAnswersTheDecodedSample := by
  intro s g h hgain hr
  rw [show 128 + 4 * (codeOf g).toNat = (126 + 4 * (codeOf g).toNat + 1) + 1 by omega] at hr ⊢
  obtain ⟨_, s1, m, e1, g1, p1, v1⟩ := accepts_step h (fun _ => by simp [hgain])
  cases m with
  | read g' hg' =>
    obtain rfl : g' = g := Option.some.inj (hg'.symm.trans hgain)
    have r1 := hr.tail e1
    have hsg : s1.eng.sg = g' := by rw [g1]
    rw [← hsg] at r1 ⊢
    obtain ⟨s2, bits, hlen, run, g2, p2⟩ := shiftEmitsItsFrame s1 (by rw [g1]) (r1.take (by omega))
    have q2 : s2.eng.seq = .xDecode := by simp [g2, g1]
    obtain ⟨t, e3, g3, p3, v3, -⟩ := busy_step (r1.after run).head (by simp [q2]) (sequencer_xDecode _ _ q2)
    refine ⟨t, bits, hlen, ?_, by rw [g3], by rw [g3], ?_, by rw [g3, g2, g1, hgain], by rw [g3, g2], by rw [g3, g2, g1],
      by rw [g3, g2, g1], by rw [p3, p2, p1]⟩
    · rw [runTrace_succ_some e1 (runTrace_add run (runTrace_one e3)), v1, v3, g2]
      rfl
    · rw [g3, g2]
      rfl

/-! ## SET_GAIN and INIT on a ready line -/

section

variable {s : State} {arg : Word} {g : Selection}

/-- A wait that finds the line ready at its first look takes two steps to S_ENTER (R186, R187). -/
theorem readyWait_run (hq : s.eng.seq = .wStart) (hop : s.eng.op ≠ Opcode.waitReady) (hdir : s.pins.dirData = .input)
    (hr : Along (fun u => NoReset u ∧ (u.eng.seq = .wCheck → u.inputs.dout = false)) 2 s) :
    ∃ t n, runTrace 2 s = some (t, [.now n, .r false]) ∧ t.eng = { s.eng with t0 := n, seq := .sEnter } ∧
      t.pins = s.pins := by
  obtain ⟨s1, e1, g1, p1, v1, -⟩ := busy_step hr.head.1 (by simp [hq]) (sequencer_wStart _ _ hq)
  obtain ⟨hrst, hlow⟩ := (hr.tail e1).head
  have q1 : s1.eng.seq = .wCheck := by rw [g1]
  have hlevel : s1.dataLevel = false := by rw [dataLevel_input s1 (by rw [p1, hdir]), hlow q1]
  obtain ⟨t, e2, g2, p2, v2, -⟩ :=
    busy_step hrst (by simp [q1]) (sequencer_wCheck_shift _ _ q1 hlevel (by rw [g1]; exact hop))
  refine ⟨t, s.nowMs, ?_, by rw [g2, g1], by rw [p2, p1]⟩
  rw [runTrace_succ_some e1 (runTrace_one e2), v1, v2]
  rfl

/-- The body that SET_GAIN and INIT share, on a ready line: the wait, the throwaway shift and the commit (R157, R163). -/
theorem gainChange_run (hq : s.eng.seq = .wStart) (hop : s.eng.op = Opcode.setGain ∨ s.eng.op = Opcode.init)
    (hdir : s.pins.dirData = .input)
    (hr : Along (fun u => NoReset u ∧ (u.eng.seq = .wCheck → u.inputs.dout = false))
      (129 + 4 * (codeOf s.eng.sg).toNat) s) :
    ∃ t n bits, bits.length = 24 ∧
      runTrace (129 + 4 * (codeOf s.eng.sg).toNat) s =
        some (t, [.now n, .r false] ++ shiftTrace bits s.eng.sg ++ [.rsp .ok 0]) ∧
      t.eng = { s.eng with
        t0 := n, acc := assembleSamples bits, idx := 23, pcnt := 1, mode := .normal, gain := some s.eng.sg,
        rspStatus := .ok, rspData := 0, seq := .resp } ∧
      t.pins = { s.pins with sck := false } := by
  rw [show 129 + 4 * (codeOf s.eng.sg).toNat = 2 + (126 + 4 * (codeOf s.eng.sg).toNat + 1) by omega] at hr ⊢
  have hwait : s.eng.op ≠ Opcode.waitReady := by rcases hop with h | h <;> rw [h] <;> decide
  have hread : s.eng.op ≠ Opcode.read := by rcases hop with h | h <;> rw [h] <;> decide
  obtain ⟨s1, n, run1, g1, p1⟩ := readyWait_run hq hwait hdir (hr.take (by omega))
  have r1 : Along NoReset _ s1 := (hr.after run1).mono fun _ h => h.1
  have hsg : s1.eng.sg = s.eng.sg := by rw [g1]
  rw [← hsg] at r1 ⊢
  obtain ⟨s2, bits, hlen, run2, g2, p2⟩ := shiftEmitsItsFrame s1 (by rw [g1]) (r1.take (by omega))
  have q2 : s2.eng.seq = .xCommit := by simp [g2, g1, hread]
  obtain ⟨t, e3, g3, p3, v3, -⟩ := busy_step (r1.after run2).head (by simp [q2]) (sequencer_xCommit _ _ q2)
  refine ⟨t, n, bits, hlen, ?_, by rw [g3, g2, g1], by rw [p3, p2, p1]⟩
  rw [runTrace_add run1 (runTrace_add run2 (runTrace_one e3)), v3, List.append_assoc]

/-- INIT up to its wait, with configurations that succeed: five steps from the acceptance (R182 to R185). -/
theorem init_wStart_run (h : Accepts (.init arg) s) (hg : gainOperand arg = some g)
    (hr : Along (fun u => NoReset u ∧ (u.eng.seq = .iCfgData ∨ u.eng.seq = .iCfgClk → u.inputs.cfg = .ok)) 5 s) :
    ∃ t, runTrace 5 s = some (t, [.cfg .data .input .ok, .cfg .clk .output .ok, .w false, .tick]) ∧
      t.eng = { s.eng with op := Opcode.init, arg := arg, gain := some g, sg := g, tmo := 200, seq := .wStart } ∧
      t.pins = { sck := false, dirData := .input, dirClk := .output } := by
  obtain ⟨_, s1, m, e1, g1, p1, v1⟩ := accepts_step h nofun
  cases m with
  | initInvalid _ hnone => simp [hg] at hnone
  | init _ g' hg' =>
    obtain rfl : g' = g := Option.some.inj (hg'.symm.trans hg)
    have r1 := hr.tail e1
    have q1 : s1.eng.seq = .iCfgData := by rw [g1]
    obtain ⟨s2, e2, g2, p2, v2, -⟩ :=
      busy_step r1.head.1 (by simp [q1]) (sequencer_iCfgData_ok _ _ q1 (r1.head.2 (.inl q1)))
    have r2 := r1.tail e2
    have q2 : s2.eng.seq = .iCfgClk := by rw [g2]
    obtain ⟨s3, e3, g3, p3, v3, -⟩ :=
      busy_step r2.head.1 (by simp [q2]) (sequencer_iCfgClk_ok _ _ q2 (r2.head.2 (.inr q2)))
    have r3 := r2.tail e3
    have q3 : s3.eng.seq = .pSet := by rw [g3]
    obtain ⟨s4, e4, g4, p4, v4, -⟩ := busy_step r3.head.1 (by simp [q3]) (sequencer_pSet _ _ q3)
    have hlevel : powerLevel s3.eng.op s3.eng.arg = false := by rw [g3, g2, g1]; exact powerLevel_init arg
    rw [hlevel] at p4 v4
    have q4 : s4.eng.seq = .pHold := by rw [g4]
    have o4 : s4.eng.op = Opcode.init := by rw [g4, g3, g2, g1]
    obtain ⟨t, e5, g5, p5, v5, -⟩ :=
      busy_step (r3.tail e4).head.1 (by simp [q4]) (o4 ▸ sequencer_pHold_init s4.eng.arg q4)
    refine ⟨t, ?_, by rw [g5, g4, g3, g2, g1], by rw [p5, p4, p3, p2]⟩
    rw [runTrace_succ_some e1 (runTrace_succ_some e2 (runTrace_succ_some e3 (runTrace_succ_some e4 (runTrace_one e5)))),
      v1, v2, v3, v4, v5]
    rfl

end

/-- Settles O42: SET_GAIN is its acceptance and the gain change, INIT its configurations, the power command and the gain
change. -/
theorem gainCommandsCommitOnAReadyLine : Obligations.GainCommandsCommitOnAReadyLine := by
  intro arg g s hg
  refine ⟨fun h hdir hr => ?_, fun h hr => ?_⟩
  · rw [show 130 + 4 * (codeOf g).toNat = (129 + 4 * (codeOf g).toNat) + 1 by omega] at hr ⊢
    obtain ⟨_, s1, m, e1, g1, p1, v1⟩ := accepts_step h nofun
    cases m with
    | setGainInvalid _ hnone => simp [hg] at hnone
    | setGain _ g' hg' =>
      obtain rfl : g' = g := Option.some.inj (hg'.symm.trans hg)
      have hsg : s1.eng.sg = g' := by rw [g1]
      rw [← hsg] at hr ⊢
      obtain ⟨t, n, bits, hlen, run, gt, pt⟩ :=
        gainChange_run (by rw [g1]) (.inl (by rw [g1])) (by rw [p1, hdir]) (hr.tail e1)
      refine ⟨t, n, bits, hlen, ?_, by rw [gt], by rw [gt], by rw [gt], by rw [gt], by rw [gt], by rw [pt, p1]⟩
      rw [runTrace_succ_some e1 run, v1]
      rfl
  · rw [show 134 + 4 * (codeOf g).toNat = 5 + (129 + 4 * (codeOf g).toNat) by omega] at hr ⊢
    obtain ⟨s1, run1, g1, p1⟩ := init_wStart_run h hg ((hr.mono fun _ hp => ⟨hp.1, hp.2.1⟩).take (by omega))
    have hsg : s1.eng.sg = g := by rw [g1]
    rw [← hsg] at hr ⊢
    obtain ⟨t, n, bits, hlen, run, gt, pt⟩ := gainChange_run (by rw [g1]) (.inr (by rw [g1])) (by rw [p1])
      ((hr.after run1).mono fun _ hp => ⟨hp.1, hp.2.2⟩)
    refine ⟨t, n, bits, hlen, ?_, by rw [gt], by rw [gt], by rw [gt], by rw [gt], by rw [gt], by rw [pt, p1]⟩
    rw [runTrace_add run1 run]
    rfl

/-! ## A failed INIT -/

section

variable {k : Nat} {s t : State} {tr : List Event}

/-- A gain change that is not answered OK timed out: it wrote T0 and the response, and began no frame (R165). -/
theorem UntilResponse.gainChange_timeout (h : UntilResponse k s t tr) (hq : s.eng.seq = .wStart)
    (hop : s.eng.op ≠ Opcode.waitReady) (hne : t.eng.rspStatus ≠ .ok) :
    (∃ n, t.eng = { s.eng with t0 := n, rspStatus := .timeout, rspData := 0, seq := .resp }) ∧ t.pins = s.pins ∧
      .critEnter ∉ tr ∧ ∀ v, .w v ∉ tr := by
  obtain ⟨n, s1, k1, tr1, he1, hp1, rfl, -, h1⟩ := h.wStart hq
  obtain ⟨wt, -, -, hwt, ⟨-, rfl, -, hpt, het, -⟩ | ⟨-, -, ⟨hop1, -⟩ | ⟨-, s', k', tr', -, -, -, he', h'⟩⟩⟩ :=
    wait_run k1 s1 t tr1 (by rw [he1]) h1
  · refine ⟨⟨n, by rw [het, he1]⟩, by rw [hpt, hp1], fun hv => ?_, fun v hv => ?_⟩
    · simpa using hwt .critEnter (by simpa using hv)
    · simpa using hwt (.w v) (by simpa using hv)
  · rw [he1] at hop1
    exact absurd hop1 hop
  · exact absurd (h'.ok_of_shiftOrCompletion (by rw [he']; rfl)) hne

/-- An INIT past its configurations that is not answered OK timed out, after it drove the clock low (R157, R184). -/
theorem UntilResponse.init_pSet_timeout (h : UntilResponse k s t tr) (hq : s.eng.seq = .pSet)
    (hop : s.eng.op = Opcode.init) (hne : t.eng.rspStatus ≠ .ok) :
    (∃ n, t.eng = { s.eng with tmo := 200, t0 := n, rspStatus := .timeout, rspData := 0, seq := .resp }) ∧
      t.pins = { s.pins with sck := false } ∧ .critEnter ∉ tr ∧ .w true ∉ tr := by
  obtain ⟨k1, s1, tr1, -, g1, p1, rfl, h1⟩ := h.next (by simp [hq]) (by simp [hq]) (sequencer_pSet _ _ hq)
  rw [hop, powerLevel_init] at p1 ⊢
  have q1 : s1.eng.seq = .pHold := by rw [g1]
  have o1 : s1.eng.op = Opcode.init := by rw [g1, hop]
  obtain ⟨k2, s2, tr2, -, g2, p2, rfl, h2⟩ :=
    h1.next (by simp [q1]) (by simp [q1]) (o1 ▸ sequencer_pHold_init s1.eng.arg q1)
  have hwait : s2.eng.op ≠ Opcode.waitReady := by rw [g2, o1]; decide
  obtain ⟨⟨n, gt⟩, pt, hcrit, hw⟩ := h2.gainChange_timeout (by rw [g2]) hwait hne
  refine ⟨⟨n, by rw [gt, g2, g1]⟩, by rw [pt, p2, p1], by simpa using hcrit, by simpa using hw true⟩

end

/-- Settles O46: the run is the acceptance, which writes GAIN, and then stops at the first configuration, at the second,
or in the wait; none of these steps begins a frame. -/
theorem failedInitKeepsWhatWasDone : Obligations.FailedInitKeepsWhatWasDone := by
  intro arg g s t k tr h hg hne
  obtain ⟨_, s1, k1, tr1, m, g1, p1, rfl, rfl, h1⟩ := h.accept_inv nofun
  cases m with
  | initInvalid _ hnone => simp [hg] at hnone
  | init _ g' hg' =>
    obtain rfl : g' = g := Option.some.inj (hg'.symm.trans hg)
    have q1 : s1.eng.seq = .iCfgData := by rw [g1]
    cases hc1 : s1.inputs.cfg with
    | fail e =>
      obtain ⟨rfl, gt, pt, rfl⟩ :=
        h1.respond (by simp [q1]) (by simp [q1]) (sequencer_iCfgData_fail _ _ q1 hc1) rfl
      exact ⟨by rw [gt, g1], by simp, by simp,
        .inl ⟨by rw [gt], by rw [gt]; exact e.2, by rw [pt, p1], .inl ⟨by rw [pt, p1], rfl⟩⟩⟩
    | ok =>
      obtain ⟨k2, s2, tr2, rfl, g2, p2, rfl, h2⟩ :=
        h1.next (by simp [q1]) (by simp [q1]) (sequencer_iCfgData_ok _ _ q1 hc1)
      have q2 : s2.eng.seq = .iCfgClk := by rw [g2]
      cases hc2 : s2.inputs.cfg with
      | fail e =>
        obtain ⟨rfl, gt, pt, rfl⟩ :=
          h2.respond (by simp [q2]) (by simp [q2]) (sequencer_iCfgClk_fail _ _ q2 hc2) rfl
        exact ⟨by rw [gt, g2, g1], by simp, by simp,
          .inl ⟨by rw [gt], by rw [gt]; exact e.2, by rw [pt, p2, p1], .inr ⟨by rw [pt, p2], rfl⟩⟩⟩
      | ok =>
        obtain ⟨k3, s3, tr3, -, g3, p3, rfl, h3⟩ :=
          h2.next (by simp [q2]) (by simp [q2]) (sequencer_iCfgClk_ok _ _ q2 hc2)
        obtain ⟨⟨n, gt⟩, pt, hcrit, hw⟩ := h3.init_pSet_timeout (by rw [g3]) (by rw [g3, g2, g1]) hne
        exact ⟨by rw [gt, g3, g2, g1], by simpa using hcrit, by simpa using hw,
          .inr ⟨by rw [gt], by rw [gt], by rw [pt], by rw [pt, p3, p2], by rw [pt, p3]⟩⟩

end Sys2Proof.Machine

/-! PROOFS. The statements on the phases of the sequencer, one by one (O15 to O21), on the phases in which the engine
waits for the host or accepts a command (O8, O9, O13), and that every command steps in every phase (O22). -/

namespace Sys2Proof.Machine

open Sys2Proof

/-! ## One step of a command, by phase -/

section

variable {i : Instr} {s u : State}

/-- In a busy phase a command's meaning is what the table does there under the command's own word. -/
theorem exec_phase {p : Phase} (h : s.eng.seq = p) (hu : sequencer i.opcode i.operand s = u)
    (hp : p ≠ .idle := by decide) : exec i s = .next u := by
  rw [exec_busy i (h ▸ hp), hu]

/-- No row of the table writes the environment's part of the state. -/
theorem TableMove.environment {op : BitVec 8} {arg : Word} (m : TableMove op arg s u) :
    u.inputs = s.inputs ∧ u.clockMs = s.clockMs ∧ u.dev = s.dev ∧ u.script = s.script ∧ u.draws = s.draws := by
  cases m <;> exact ⟨rfl, rfl, rfl, rfl, rfl⟩

/-- No acceptance writes the environment's part of the state. -/
theorem AcceptMove.environment (m : AcceptMove s i u) :
    u.inputs = s.inputs ∧ u.clockMs = s.clockMs ∧ u.dev = s.dev ∧ u.script = s.script ∧ u.draws = s.draws := by
  cases m <;> exact ⟨rfl, rfl, rfl, rfl, rfl⟩

/-- A command's step answers a next state, or it is READ's model fault (R170 (c), R181). -/
theorem exec_total (i : Instr) (s : State) :
    (i = .read ∧ s.eng.seq = .idle ∧ s.eng.gain = none ∧ exec i s = .fault .readBeforeGain) ∨
      ∃ u, exec i s = .next u := by
  by_cases hq : s.eng.seq = .idle
  · rcases exec_idle i hq with ⟨hi, hn, hf⟩ | ⟨u, hu, -⟩
    · exact .inl ⟨hi, hq, hn, hf⟩
    · exact .inr ⟨u, hu⟩
  · exact .inr ⟨_, exec_busy i hq⟩

end

/-- Settles O22: a command's step is a next state but for READ's model fault, and neither a row of the table nor an
acceptance writes the environment's part. -/
theorem everyCommandStepsInEveryPhase : Obligations.EveryCommandStepsInEveryPhase := by
  intro i s
  rcases exec_total i s with ⟨hi, hq, hn, hx⟩ | ⟨u, hu⟩
  · rw [hx]
    refine ⟨fun hne => absurd ⟨hi, hq, hn⟩ hne, fun f hf => ?_, fun r hr => ?_, fun t ht => ?_⟩
    · exact ⟨hi, hq, hn, (Host.Outcome.fault.inj hf).symm⟩
    · cases hr
    · cases ht
  · have hkeeps : u.inputs = s.inputs ∧ u.clockMs = s.clockMs ∧ u.dev = s.dev ∧ u.script = s.script ∧
        u.draws = s.draws := by
      rcases exec_inv hu with ⟨-, m⟩ | ⟨-, m⟩
      · exact m.environment
      · exact m.environment
    rw [hu]
    refine ⟨fun _ => ⟨u, rfl⟩, fun f hf => ?_, fun r hr => ?_, fun t ht => ?_⟩
    · cases hf
    · cases hr
    · obtain rfl := Host.Outcome.next.inj ht
      exact hkeeps

/-! ## Waiting for the host, and acceptance -/

/-- Settles O8: in both phases the engine's own step only clears the ports. -/
theorem engineWaitsForTheHost : Obligations.EngineWaitsForTheHost := by
  refine ⟨fun s hrst hwaits => ?_, fun i s hresp hready => exec_phase hresp (sequencer_resp_waits _ _ hresp hready)⟩
  rcases hwaits with ⟨hidle, hvalid⟩ | ⟨hresp, hready⟩
  · exact step_idle hrst hidle hvalid
  · rw [step_busy hrst (by simp [hresp]), sequencer_resp_waits _ _ hresp hready]

/-- Settles O9: the ports show RSP_STATUS and RSP_DATA, and the table's row for a taken response is the same under every
latched word. -/
theorem responseIsPresentedAndTaken : Obligations.ResponseIsPresentedAndTaken := by
  intro s hresp
  have hcode : ∀ st, s.eng.rspStatus = st → s.rspStatusPort = statusCode st := fun _ => congrArg statusCode
  refine ⟨decide_eq_true hresp, rfl, hcode _, hcode _, hcode _, hcode _, fun hready => ⟨fun i => ?_, fun hrst => ?_⟩⟩
  · exact exec_phase hresp (sequencer_resp_taken _ _ hresp hready)
  · rw [step_busy hrst (by simp [hresp]), sequencer_resp_taken _ _ hresp hready]

/-- Settles O13: the acceptances of the three commands, none of which validates an operand. -/
theorem plainCommandsAreAccepted : Obligations.PlainCommandsAreAccepted := by
  intro s hidle
  refine ⟨fun down => ?_, ?_, fun t => ?_⟩
  · exact (if_pos hidle : exec (.setPower down) s = .next (acceptSetPower down s))
  · exact (if_pos hidle : exec .isReady s = .next (acceptIsReady s))
  · exact (if_pos hidle : exec (.waitReady t) s = .next (acceptWaitReady t s))

/-! ## The phases -/

/-- The two commands that wait and then shift without decoding have an op code of their own (R91). -/
theorem gainCommand_opcode {i : Instr} {g : Word} (hi : i = .init g ∨ i = .setGain g) :
    i.opcode ≠ Opcode.waitReady ∧ i.opcode ≠ Opcode.read := by
  rcases hi with rfl | rfl <;> simp only [Instr.opcode] <;> decide

/-- Settles O15: the two rows of each configuration, by the platform's answer; the direction after a failure is the free
one. -/
theorem configurationPhases : Obligations.ConfigurationPhases := by
  refine fun i s => ⟨fun h => ⟨fun hok => ?_, fun e hfail => ?_⟩, fun h => ⟨fun hok => ?_, fun e hfail => ?_⟩⟩
  · exact exec_phase h (sequencer_iCfgData_ok _ _ h hok)
  · exact ⟨_, exec_phase h (sequencer_iCfgData_fail _ _ h hfail)⟩
  · exact exec_phase h (sequencer_iCfgClk_ok _ _ h hok)
  · exact ⟨_, exec_phase h (sequencer_iCfgClk_fail _ _ h hfail)⟩

/-- Settles O16: P_SET drives the level of the command's own word, and P_HOLD goes on for INIT and answers SET_POWER. -/
theorem powerPhases : Obligations.PowerPhases := by
  refine fun s => ⟨fun h => ⟨fun g => ?_, fun down => ?_⟩, fun h => ⟨fun g => ?_, fun down => ?_⟩⟩
  · have hu := sequencer_pSet Opcode.init g h
    rw [powerLevel_init] at hu
    exact exec_phase h hu
  · have hu := sequencer_pSet Opcode.setPower (downArg down) h
    rw [powerLevel_setPower] at hu
    exact exec_phase h hu
  · exact exec_phase h (sequencer_pHold_init _ h)
  · exact exec_phase h (sequencer_pHold_power _ _ h (show Opcode.setPower ≠ Opcode.init by decide))

/-- Settles O17: W_CHECK branches on the line and, when it is low, on the command; W_TIME on the elapsed time. -/
theorem waitPhases : Obligations.WaitPhases := by
  refine fun i s => ⟨fun h => ?_, fun h hlow => ⟨?_, ?_⟩, fun h hhigh => ?_, fun h => ?_, fun h hlate => ?_,
    fun h hearly => ?_⟩
  · exact exec_phase h (sequencer_wStart _ _ h)
  · rintro t rfl
    exact exec_phase h (sequencer_wCheck_ready _ h hlow)
  · intro g hi
    exact exec_phase h (sequencer_wCheck_shift _ _ h hlow (gainCommand_opcode hi).1)
  · exact exec_phase h (sequencer_wCheck_high _ _ h hhigh)
  · exact exec_phase h (sequencer_wYield _ _ h)
  · exact exec_phase h (sequencer_wTime_expired _ _ h (expired_iff.2 hlate))
  · have hrunning : expired s.nowMs s.eng.t0 s.eng.tmo = false := by
      rw [← Bool.not_eq_true, expired_iff]
      omega
    exact exec_phase h (sequencer_wTime_again _ _ h hrunning)

/-- Settles O18: a row for each phase, S_LO_HOLD branching on the last data pulse. -/
theorem dataPulsePhases : Obligations.DataPulsePhases := by
  refine fun i s => ⟨fun h => ?_, fun h => ?_, fun h => ?_, fun h => ?_, fun h => ?_, fun h hlast => ?_,
    fun h hmore => ?_⟩
  · exact exec_phase h (sequencer_sEnter _ _ h)
  · exact exec_phase h (sequencer_sHi _ _ h)
  · exact exec_phase h (sequencer_sHiHold _ _ h)
  · exact exec_phase h (sequencer_sSample _ _ h)
  · exact exec_phase h (sequencer_sLo _ _ h)
  · exact exec_phase h (sequencer_sLoHold_last _ _ h hlast)
  · exact exec_phase h (sequencer_sLoHold_more _ _ h hmore)

/-- Settles O19: a row for each phase, G_LO_HOLD branching on the last gain pulse. -/
theorem gainPulsePhases : Obligations.GainPulsePhases := by
  refine fun i s => ⟨fun h => ?_, fun h => ?_, fun h => ?_, fun h hlast => ?_, fun h hmore => ?_⟩
  · exact exec_phase h (sequencer_gHi _ _ h)
  · exact exec_phase h (sequencer_gHiHold _ _ h)
  · exact exec_phase h (sequencer_gLo _ _ h)
  · exact exec_phase h (sequencer_gLoHold_last _ _ h hlast)
  · exact exec_phase h (sequencer_gLoHold_more _ _ h hmore)

/-- Settles O20: S_EXIT branches on the command, READ's completion decodes ACC and the gain commands' commits SG. -/
theorem completionPhases : Obligations.CompletionPhases := by
  refine fun s => ⟨fun h => ⟨?_, fun g i hi => ?_⟩, fun h => ?_, fun h g i _ => ?_⟩
  · exact exec_phase h (sequencer_sExit _ _ h)
  · have hu := sequencer_sExit i.opcode i.operand h
    rw [if_neg (gainCommand_opcode hi).2] at hu
    exact exec_phase h hu
  · exact exec_phase h (sequencer_xDecode _ _ h)
  · exact exec_phase h (sequencer_xCommit _ _ h)

/-- The datum of IS_READY is the inverted level as a number (R141). -/
theorem readyDatum_eq_setWidth (b : Bool) : readyDatum b = (BitVec.ofBool (!b)).setWidth 32 := by
  cases b <;> decide

/-- Settles O21: the one row of R_CHECK. -/
theorem isReadyPhase : Obligations.IsReadyPhase := by
  intro s h
  rw [← readyDatum_eq_setWidth]
  exact exec_phase h (sequencer_rCheck _ _ h)

end Sys2Proof.Machine

/-! PROOFS. The sequencer against the procedures (O43) and the step counts of R207 (O44): every run to the first response
taken apart once per command, with its trace and its length. -/

namespace Sys2Proof.Machine

open Sys2Proof

/-! ## The answers a trace holds -/

section

variable (tr : List Event)

@[simp] theorem answersOf_nil : answersOf [] = ⟨[], [], []⟩ := rfl
@[simp] theorem answersOf_cfg (p : Pin) (d : PinDir) (r : CfgResult) :
    answersOf (.cfg p d r :: tr) = { answersOf tr with cfgs := r :: (answersOf tr).cfgs } := rfl
@[simp] theorem answersOf_now (n : Word) :
    answersOf (.now n :: tr) = { answersOf tr with nows := n :: (answersOf tr).nows } := rfl
@[simp] theorem answersOf_r (b : Bool) :
    answersOf (.r b :: tr) = { answersOf tr with douts := b :: (answersOf tr).douts } := rfl
@[simp] theorem answersOf_w (v : Bool) : answersOf (.w v :: tr) = answersOf tr := rfl
@[simp] theorem answersOf_us (n : Nat) : answersOf (.us n :: tr) = answersOf tr := rfl
@[simp] theorem answersOf_tick : answersOf (.tick :: tr) = answersOf tr := rfl
@[simp] theorem answersOf_critEnter : answersOf (.critEnter :: tr) = answersOf tr := rfl
@[simp] theorem answersOf_critExit : answersOf (.critExit :: tr) = answersOf tr := rfl
@[simp] theorem answersOf_rsp (st : Status) (d : Word) : answersOf (.rsp st d :: tr) = answersOf tr := rfl

end

theorem answersOf_append (tr tr' : List Event) : answersOf (tr ++ tr') =
    { cfgs := (answersOf tr).cfgs ++ (answersOf tr').cfgs
      nows := (answersOf tr).nows ++ (answersOf tr').nows
      douts := (answersOf tr).douts ++ (answersOf tr').douts } := by
  simp [answersOf]

theorem answersOf_dataPulses (bits : List Bool) : answersOf (bits.flatMap dataPulse) = ⟨[], [], bits⟩ := by
  induction bits with
  | nil => rfl
  | cons b bits ih =>
    rw [List.flatMap_cons, answersOf_append, ih]
    simp [dataPulse]

theorem answersOf_gainPulses (n : Nat) : answersOf (List.replicate n gainPulse).flatten = ⟨[], [], []⟩ := by
  induction n with
  | zero => rfl
  | succ n ih =>
    rw [List.replicate_succ, List.flatten_cons, answersOf_append, ih]
    simp [gainPulse]

/-- A shift asks the environment for its samples only (R124). -/
theorem answersOf_shiftTrace (bits : List Bool) (g : Selection) : answersOf (shiftTrace bits g) = ⟨[], [], bits⟩ := by
  simp [shiftTrace, answersOf_append, answersOf_dataPulses, answersOf_gainPulses]

/-- A shift does not suspend (R124). -/
theorem tick_not_mem_shiftTrace (bits : List Bool) (g : Selection) : .tick ∉ shiftTrace bits g := by
  simp [shiftTrace, dataPulse, gainPulse, pulsesOf]

/-! ## A shift on the way to the first response -/

section

variable {s t : State} {k : Nat} {tr : List Event}

/-- A run that stands before the last `n + 1` data pulses has their steps. -/
theorem UntilResponse.dataPulses (n : Nat) {k : Nat} {s : State} {tr : List Event} (h : UntilResponse k s t tr)
    (hq : s.eng.seq = .sHi) (hi : s.eng.idx.toNat + n = 23) : ∃ k', k = k' + 5 * (n + 1) := by
  induction n generalizing k s tr with
  | zero => exact h.dataPulse hq
  | succ n ih =>
    obtain ⟨k1, rfl⟩ := h.dataPulse hq
    obtain ⟨s1, b, run, -, g1⟩ := dataPulse_run hq (h.noReset.take (by omega))
    obtain ⟨tr1, -, h1⟩ := h.after run
    have hmore : s.eng.idx ≠ 23 := by bv_omega
    rw [if_neg hmore] at g1
    have hnext : (s.eng.idx + 1).toNat + n = 23 := by bv_omega
    obtain ⟨k', rfl⟩ := ih h1 (by rw [g1]) (by rw [g1]; exact hnext)
    exact ⟨k', by omega⟩

/-- A run that stands before the last `n + 1` gain pulses has their steps. -/
theorem UntilResponse.gainPulses (n : Nat) {k : Nat} {s : State} {tr : List Event} (h : UntilResponse k s t tr)
    (hq : s.eng.seq = .gHi) (hp : s.eng.pcnt.toNat = n + 1) : ∃ k', k = k' + 4 * (n + 1) := by
  induction n generalizing k s tr with
  | zero => exact h.gainPulse hq
  | succ n ih =>
    obtain ⟨k1, rfl⟩ := h.gainPulse hq
    obtain ⟨s1, run, -, g1⟩ := gainPulse_run hq (h.noReset.take (by omega))
    obtain ⟨tr1, -, h1⟩ := h.after run
    have hmore : s.eng.pcnt ≠ 1 := by bv_omega
    rw [if_neg hmore] at g1
    have hnext : (s.eng.pcnt - 1).toNat = n + 1 := by bv_omega
    obtain ⟨k', rfl⟩ := ih h1 (by rw [g1]) (by rw [g1]; exact hnext)
    exact ⟨k', by omega⟩

/-- A run that stands before the first pulse of a frame has the steps of all its pulses. -/
theorem UntilResponse.pulses (h : UntilResponse k s t tr) (hq : s.eng.seq = .sHi) (hi : s.eng.idx = 0) :
    ∃ k', k = k' + (120 + 4 * pulsesOf s.eng.sg) := by
  have hidx : s.eng.idx.toNat + 23 = 23 := by rw [hi]; rfl
  obtain ⟨k1, rfl⟩ := h.dataPulses 23 hq hidx
  obtain ⟨s1, bits, -, run, -, acc, g1, -⟩ := dataPulses_run 23 hq hidx (h.noReset.take (by omega))
  obtain ⟨tr1, -, h1⟩ := h.after run
  obtain ⟨k', rfl⟩ := h1.gainPulses (codeOf s.eng.sg).toNat (by rw [g1]) (by rw [g1]; exact pcntOf_toNat _)
  exact ⟨k', by simp only [pulsesOf]; omega⟩

/-- A run that stands before a shift has the whole shift (R122, R124). -/
theorem UntilResponse.shift (h : UntilResponse k s t tr) (hq : s.eng.seq = .sEnter) :
    ∃ k' s' tr' bits, bits.length = 24 ∧ k = k' + (126 + 4 * (codeOf s.eng.sg).toNat) ∧
      tr = shiftTrace bits s.eng.sg ++ tr' ∧
      s'.eng = { s.eng with
        acc := assembleSamples bits, idx := 23, pcnt := 1, mode := .normal,
        seq := if s.eng.op = Opcode.read then .xDecode else .xCommit } ∧
      s'.pins = { s.pins with sck := false } ∧ UntilResponse k' s' t tr' := by
  have hlen : ∃ k', k = k' + (126 + 4 * (codeOf s.eng.sg).toNat) := by
    obtain ⟨k1, s1, tr1, rfl, g1, -, -, h1⟩ := h.next (by simp [hq]) (by simp [hq]) (sequencer_sEnter _ _ hq)
    obtain ⟨k2, rfl⟩ := h1.pulses (by rw [g1]) (by rw [g1])
    obtain ⟨s2, bits, -, run, g2, -⟩ := pulses_run (by rw [g1]) (by rw [g1]) (by rw [g1]) (h1.noReset.take (by omega))
    obtain ⟨tr2, -, h2⟩ := h1.after run
    obtain ⟨-, k', rfl, -⟩ := h2.inv (by simp [g2])
    exact ⟨k', by simp only [g1, pulsesOf]; omega⟩
  obtain ⟨k', rfl⟩ := hlen
  obtain ⟨s', bits, hbits, run, g', p'⟩ := shiftEmitsItsFrame s hq (h.noReset.take (by omega))
  obtain ⟨tr', htr, h'⟩ := h.after run
  exact ⟨k', s', tr', bits, hbits, rfl, htr, g', p', h'⟩

end

/-! ## A wait on the way to the first response -/

/-- An answer that WAIT's loop does not ask for is left over (R143). -/
theorem waitLoop_append {tmo t0 : Word} {bs ds ds' : List Bool} {ns : List Word} {tr : List Event} {ready : Bool}
    (h : waitLoop tmo t0 ds ns = some (tr, ready, ds')) :
    waitLoop tmo t0 (ds ++ bs) ns = some (tr, ready, ds' ++ bs) := by
  induction ds generalizing ns tr with
  | nil => simp [waitLoop] at h
  | cons b ds ih =>
    cases b with
    | false =>
      simp only [waitLoop, Option.some.injEq, Prod.mk.injEq] at h
      obtain ⟨rfl, rfl, rfl⟩ := h
      rfl
    | true =>
      cases ns with
      | nil => simp [waitLoop] at h
      | cons n ns =>
        simp only [List.cons_append, waitLoop] at h ⊢
        split at h
        · rename_i hexp
          simp only [Option.some.injEq, Prod.mk.injEq] at h
          obtain ⟨rfl, rfl, rfl⟩ := h
          rw [if_pos hexp]
        · rename_i hexp
          obtain ⟨⟨tr', _⟩, hrest, he⟩ := Option.map_eq_some_iff.1 h
          simp only [Prod.mk.injEq] at he
          obtain ⟨rfl, rfl⟩ := he
          rw [if_neg hexp, ih hrest]
          rfl

/-- `wt` is what WAIT emits from its first look at the line on, for the answers that `wt` itself holds; whatever the line
answers after it is left over (R143, R150). -/
structure WaitTrace (tmo t0 : Word) (wt : List Event) (ready : Bool) : Prop where
  events : ∀ e ∈ wt, e = .r true ∨ e = .r false ∨ e = .tick ∨ ∃ n, e = .now n
  loop : ∀ bs, waitLoop tmo t0 ((answersOf wt).douts ++ bs) (answersOf wt).nows = some (wt, ready, bs)

/-- The procedure of a wait, for a trace that holds the wait and goes on without a look at the clock. -/
theorem WaitTrace.waitProc_eq {tmo t0 : Word} {wt : List Event} {ready : Bool} (w : WaitTrace tmo t0 wt ready)
    {rest : List Event} (hrest : (answersOf rest).nows = []) :
    waitProc tmo (answersOf (.now t0 :: (wt ++ rest))) = some (.now t0 :: wt, ready, (answersOf rest).douts) := by
  simp [waitProc, answersOf_append, hrest, w.loop]

/-- A wait configures no pin. -/
theorem WaitTrace.cfgs_eq_nil {tmo t0 : Word} {wt : List Event} {ready : Bool} (w : WaitTrace tmo t0 wt ready) :
    (answersOf wt).cfgs = [] := by
  refine List.filterMap_eq_nil_iff.2 fun e he => ?_
  rcases w.events e he with rfl | rfl | rfl | ⟨n, rfl⟩ <;> rfl

/-- How a run to the first response goes through the wait it stands before, in W_START: the wait expires, WAIT_READY is
answered, or the shift begins (R147, R186 to R189). -/
inductive WaitEnd (s t : State) (k : Nat) (tr : List Event) : Prop
  | expires (n : Word) (wt : List Event) (w : WaitTrace s.eng.tmo n wt false) (hm : 1 ≤ wt.count .tick)
      (htr : tr = .now n :: (wt ++ [.rsp .timeout 0])) (hk : k = 3 * wt.count .tick + 1) (hpins : t.pins = s.pins)
      (heng : t.eng = { s.eng with t0 := n, rspStatus := .timeout, rspData := 0, seq := .resp })
  | answers (n : Word) (wt : List Event) (w : WaitTrace s.eng.tmo n wt true) (hop : s.eng.op = Opcode.waitReady)
      (htr : tr = .now n :: (wt ++ [.rsp .ok 0])) (hk : k = 3 * wt.count .tick + 2) (hpins : t.pins = s.pins)
      (heng : t.eng = { s.eng with t0 := n, rspStatus := .ok, rspData := 0, seq := .resp })
  | shifts (n : Word) (wt : List Event) (w : WaitTrace s.eng.tmo n wt true) (hop : s.eng.op ≠ Opcode.waitReady)
      (s' : State) (k' : Nat) (tr' : List Event)
      (htr : tr = .now n :: (wt ++ tr')) (hk : k = k' + 3 * wt.count .tick + 2) (hpins : s'.pins = s.pins)
      (heng : s'.eng = { s.eng with t0 := n, seq := .sEnter }) (h : UntilResponse k' s' t tr')

section

variable {s t : State} {k : Nat} {tr : List Event}

theorem UntilResponse.wait (h : UntilResponse k s t tr) (hq : s.eng.seq = .wStart) : WaitEnd s t k tr := by
  obtain ⟨n, s1, k1, tr1, g1, p1, rfl, rfl, h1⟩ := h.wStart hq
  have hw := wait_run k1 s1 t tr1 (by rw [g1]) h1
  simp only [g1, p1] at hw
  obtain ⟨wt, _, rfl, hev, ⟨hm, rfl, rfl, p, g, -, hloop⟩ |
    ⟨-, hloop, ⟨hop, rfl, rfl, p, g⟩ | ⟨hop, s', k', tr', rfl, rfl, p, g, h'⟩⟩⟩ := hw
  · exact .expires n wt ⟨hev, fun bs => waitLoop_append hloop⟩ hm rfl rfl p g
  · exact .answers n wt ⟨hev, hloop⟩ hop rfl rfl p g
  · exact .shifts n wt ⟨hev, hloop⟩ hop s' k' tr' rfl rfl p g h'

end

/-! ## The gain change that SET_GAIN and INIT share -/

/-- How a run to the first response goes through a gain change: its wait expires, or it shifts and commits (R157, R163,
R165). -/
inductive GainChangeEnd (s t : State) (k : Nat) (tr : List Event) : Prop
  | expires (n : Word) (wt : List Event) (w : WaitTrace s.eng.tmo n wt false)
      (htr : tr = .now n :: (wt ++ [.rsp .timeout 0])) (hk : k = 3 * wt.count .tick + 1) (hpins : t.pins = s.pins)
      (heng : t.eng = { s.eng with t0 := n, rspStatus := .timeout, rspData := 0, seq := .resp })
  | commits (n : Word) (wt : List Event) (bits : List Bool) (w : WaitTrace s.eng.tmo n wt true)
      (hbits : bits.length = 24)
      (htr : tr = .now n :: (wt ++ (shiftTrace bits s.eng.sg ++ [.rsp .ok 0])))
      (hk : k = 3 * wt.count .tick + 4 * (codeOf s.eng.sg).toNat + 129) (hpins : t.pins = { s.pins with sck := false })
      (heng : t.eng = { s.eng with
        t0 := n, acc := assembleSamples bits, idx := 23, pcnt := 1, mode := .normal, gain := some s.eng.sg,
        rspStatus := .ok, rspData := 0, seq := .resp })

section

variable {s t : State} {k : Nat} {tr : List Event}

theorem UntilResponse.gainChange (h : UntilResponse k s t tr) (hq : s.eng.seq = .wStart)
    (hop : s.eng.op = Opcode.setGain ∨ s.eng.op = Opcode.init) : GainChangeEnd s t k tr := by
  cases h.wait hq with
  | expires n wt w hm htr hk hpins heng => exact .expires n wt w htr hk hpins heng
  | answers n wt w hwait => rw [hwait] at hop; exact absurd hop (by decide)
  | shifts n wt w _ s1 k1 tr1 htr hk p1 g1 h1 =>
    have hread : s.eng.op ≠ Opcode.read := by rcases hop with h | h <;> rw [h] <;> decide
    obtain ⟨k2, s2, tr2, bits, hbits, rfl, rfl, g2, p2, h2⟩ := h1.shift (by rw [g1])
    have q2 : s2.eng.seq = .xCommit := by simp [g2, g1, hread]
    obtain ⟨rfl, g, p, rfl⟩ := h2.respond (by simp [q2]) (by simp [q2]) (sequencer_xCommit _ _ q2) rfl
    have hsg : s1.eng.sg = s.eng.sg := by rw [g1]
    rw [hsg] at htr hk
    exact .commits n wt bits w hbits htr (by omega) (by rw [p, p2, p1]) (by rw [g, g2, g1])

/-- The gain change as the procedure has it, with the answers in its own trace. -/
theorem GainChangeEnd.refines (e : GainChangeEnd s t k tr) (htmo : s.eng.tmo = 200) :
    ∃ f : Final, gainChange s.eng.sg s.handle (answersOf tr) = some (tr, f) ∧ f.agrees t := by
  cases e with
  | expires n wt w htr _ hpins heng =>
    rw [htmo] at w
    refine ⟨⟨s.handle, .timeout, 0⟩, ?_, by simp [Final.agrees, State.handle, heng, hpins]⟩
    rw [htr, gainChange, w.waitProc_eq rfl]
    rfl
  | commits n wt bits w hbits htr _ hpins heng =>
    rw [htmo] at w
    refine ⟨⟨{ s.handle with gain := some s.eng.sg, sck := false }, .ok, 0⟩, ?_,
      by simp [Final.agrees, State.handle, heng, hpins]⟩
    have ha : answersOf (shiftTrace bits s.eng.sg ++ [.rsp .ok 0]) = ⟨[], [], bits⟩ := by
      simp [answersOf_append, answersOf_shiftTrace]
    rw [htr, gainChange, w.waitProc_eq (by rw [ha]), ha]
    simp [hbits, finish]

/-- A gain change configures no pin (R163). -/
theorem GainChangeEnd.cfgs_eq_nil (e : GainChangeEnd s t k tr) : (answersOf tr).cfgs = [] := by
  cases e with
  | expires n wt w htr => simp [htr, answersOf_append, w.cfgs_eq_nil]
  | commits n wt bits w _ htr => simp [htr, answersOf_append, w.cfgs_eq_nil, answersOf_shiftTrace]

end

/-! ## Each command's run to its response -/

section

variable {s t : State} {k : Nat} {tr : List Event}

/-- READ without a gain stops, so a READ that is answered had one (R170 (c), U8). -/
theorem FirstResponse.gain_ne_none (h : FirstResponse .read s k t tr) : s.eng.gain ≠ none := by
  intro hnone
  obtain ⟨hrst, hidle, hvalid, hword⟩ := h.accepts
  have hfault : step s = .fault .readBeforeGain := by
    rw [step_accept hrst hidle hvalid (hword ▸ decode_encode .read),
      (readIsAcceptedOnceGainIsWritten s hidle).2 hnone]
    rfl
  obtain ⟨-, k', rfl, -⟩ := h.until.inv (by simp [hidle])
  have hrun := h.run
  simp [runTrace, hfault] at hrun

theorem FirstResponse.isReady_inv (h : FirstResponse .isReady s k t tr) :
    ∃ b, tr = [.r b, .rsp .ok (readyDatum b)] ∧ k = 2 ∧ t.pins = s.pins ∧
      t.eng = { s.eng with
        op := Opcode.isReady, arg := 0, rspStatus := .ok, rspData := readyDatum b, seq := .resp } := by
  obtain ⟨_, s1, k1, tr1, m, g1, p1, rfl, rfl, h1⟩ := h.accept_inv nofun
  cases m
  have q1 : s1.eng.seq = .rCheck := by rw [g1]
  obtain ⟨rfl, g, p, rfl⟩ := h1.respond (by simp [q1]) (by simp [q1]) (sequencer_rCheck _ _ q1) rfl
  exact ⟨s1.dataLevel, rfl, rfl, by rw [p, p1], by rw [g, g1]⟩

theorem FirstResponse.setPower_inv {down : Bool} (h : FirstResponse (.setPower down) s k t tr) :
    tr = [.w down, .tick, .rsp .ok 0] ∧ k = 3 ∧ t.pins = { s.pins with sck := down } ∧
      t.eng = { s.eng with
        op := Opcode.setPower, arg := downArg down, rspStatus := .ok, rspData := 0, seq := .resp } := by
  obtain ⟨_, s1, k1, tr1, m, g1, p1, rfl, rfl, h1⟩ := h.accept_inv nofun
  cases m
  have q1 : s1.eng.seq = .pSet := by rw [g1]
  have hlevel : powerLevel s1.eng.op s1.eng.arg = down := by rw [g1]; exact powerLevel_setPower down
  obtain ⟨k2, s2, tr2, rfl, g2, p2, rfl, h2⟩ := h1.next (by simp [q1]) (by simp [q1]) (sequencer_pSet _ _ q1)
  rw [hlevel] at p2 ⊢
  have q2 : s2.eng.seq = .pHold := by rw [g2]
  have hop : s2.eng.op ≠ Opcode.init := by rw [g2, g1]; show Opcode.setPower ≠ Opcode.init; decide
  obtain ⟨rfl, g, p, rfl⟩ := h2.respond (by simp [q2]) (by simp [q2]) (sequencer_pHold_power _ _ q2 hop) rfl
  exact ⟨rfl, rfl, by rw [p, p2, p1], by rw [g, g2, g1]⟩

theorem FirstResponse.read_inv (h : FirstResponse .read s k t tr) :
    ∃ g bits, s.eng.gain = some g ∧ bits.length = 24 ∧
      tr = shiftTrace bits g ++ [.rsp .ok (decodeSample (assembleSamples bits))] ∧
      k = 128 + 4 * (codeOf g).toNat ∧ t.pins = { s.pins with sck := false } ∧
      t.eng = { s.eng with
        op := Opcode.read, arg := 0, sg := g, acc := assembleSamples bits, idx := 23, pcnt := 1, mode := .normal,
        rspStatus := .ok, rspData := decodeSample (assembleSamples bits), seq := .resp } := by
  obtain ⟨_, s1, k1, tr1, m, g1, p1, rfl, rfl, h1⟩ := h.accept_inv fun _ => h.gain_ne_none
  cases m with
  | read g hg =>
    obtain ⟨k2, s2, tr2, bits, hbits, rfl, rfl, g2, p2, h2⟩ := h1.shift (by rw [g1])
    have hsg : s1.eng.sg = g := by rw [g1]
    rw [hsg]
    have q2 : s2.eng.seq = .xDecode := by simp [g2, g1]
    obtain ⟨rfl, gt, pt, rfl⟩ := h2.respond (by simp [q2]) (by simp [q2]) (sequencer_xDecode _ _ q2) rfl
    exact ⟨g, bits, hg, hbits, by simp [g2], by omega, by rw [pt, p2, p1], by rw [gt, g2, g1]⟩

/-- WAIT_READY is its acceptance and a wait for the bound it carries, which never goes on to a shift. -/
theorem FirstResponse.waitReady_inv {ms : Word} (h : FirstResponse (.waitReady ms) s k t tr) :
    ∃ n wt ready, WaitTrace ms n wt ready ∧ t.pins = s.pins ∧ t.eng.gain = s.eng.gain ∧ t.eng.rspData = 0 ∧
      ((ready = true ∧ t.eng.rspStatus = .ok ∧ tr = .now n :: (wt ++ [.rsp .ok 0]) ∧
          k = 3 * wt.count .tick + 3) ∨
        (ready = false ∧ t.eng.rspStatus = .timeout ∧ tr = .now n :: (wt ++ [.rsp .timeout 0]) ∧
          1 ≤ wt.count .tick ∧ k = 3 * wt.count .tick + 2)) := by
  obtain ⟨_, s1, k1, tr1, m, g1, p1, rfl, rfl, h1⟩ := h.accept_inv nofun
  cases m
  have hms : s1.eng.tmo = ms := by rw [g1]
  cases h1.wait (by rw [g1]) with
  | expires n wt w hm htr hk p g =>
    rw [hms] at w
    exact ⟨n, wt, false, w, by rw [p, p1], by rw [g, g1], by rw [g], .inr ⟨rfl, by rw [g], htr, hm, by omega⟩⟩
  | answers n wt w _ htr hk p g =>
    rw [hms] at w
    exact ⟨n, wt, true, w, by rw [p, p1], by rw [g, g1], by rw [g], .inl ⟨rfl, by rw [g], htr, by omega⟩⟩
  | shifts n wt w hop => rw [g1] at hop; exact absurd rfl hop

/-- How a run of SET_GAIN goes on from its acceptance: it is answered at once, or a gain change begins (R163, R181). -/
inductive SetGainEnd (arg : Word) (s t : State) (k : Nat) (tr : List Event) : Prop
  | invalid (hg : gainOperand arg = none) (htr : tr = [.rsp .invalidArgument 0]) (hk : k = 1) (hpins : t.pins = s.pins)
      (heng : t.eng = { s.eng with
        op := Opcode.setGain, arg := arg, rspStatus := .invalidArgument, rspData := 0, seq := .resp })
  | changes (g : Selection) (hg : gainOperand arg = some g) (s' : State) (k' : Nat) (hk : k = k' + 1)
      (hpins : s'.pins = s.pins)
      (heng : s'.eng = { s.eng with op := Opcode.setGain, arg := arg, sg := g, tmo := 200, seq := .wStart })
      (h : GainChangeEnd s' t k' tr)

theorem FirstResponse.setGain_inv {arg : Word} (h : FirstResponse (.setGain arg) s k t tr) :
    SetGainEnd arg s t k tr := by
  obtain ⟨_, s1, k1, tr1, m, g1, p1, rfl, rfl, h1⟩ := h.accept_inv nofun
  cases m with
  | setGainInvalid _ hg =>
    obtain ⟨rfl, rfl, rfl⟩ := h1.zero (by rw [g1])
    exact .invalid hg rfl rfl p1 g1
  | setGain _ g hg => exact .changes g hg s1 k1 rfl p1 g1 (h1.gainChange (by rw [g1]) (.inl (by rw [g1])))

/-- How a run of INIT goes on from its acceptance: it is answered at once, a configuration fails, or after both and the
power command a gain change begins (R157, R158, R159). -/
inductive InitEnd (arg : Word) (s t : State) (k : Nat) (tr : List Event) : Prop
  | invalid (hg : gainOperand arg = none) (htr : tr = [.rsp .invalidArgument 0]) (hk : k = 1) (hpins : t.pins = s.pins)
      (heng : t.eng = { s.eng with
        op := Opcode.init, arg := arg, rspStatus := .invalidArgument, rspData := 0, seq := .resp })
  | dataFails (g : Selection) (hg : gainOperand arg = some g) (e : FailureCode) (d : PinDir)
      (htr : tr = [.cfg .data .input (.fail e), .rsp .pinFailure e.val]) (hk : k = 2)
      (hpins : t.pins = { s.pins with dirData := d })
      (heng : t.eng = { s.eng with
        op := Opcode.init, arg := arg, gain := some g, sg := g, rspStatus := .pinFailure, rspData := e.val,
        seq := .resp })
  | clkFails (g : Selection) (hg : gainOperand arg = some g) (e : FailureCode) (d : PinDir)
      (htr : tr = [.cfg .data .input .ok, .cfg .clk .output (.fail e), .rsp .pinFailure e.val]) (hk : k = 3)
      (hpins : t.pins = { s.pins with dirData := .input, dirClk := d })
      (heng : t.eng = { s.eng with
        op := Opcode.init, arg := arg, gain := some g, sg := g, rspStatus := .pinFailure, rspData := e.val,
        seq := .resp })
  | changes (g : Selection) (hg : gainOperand arg = some g) (s' : State) (k' : Nat) (tr' : List Event)
      (htr : tr = [.cfg .data .input .ok, .cfg .clk .output .ok, .w false, .tick] ++ tr') (hk : k = k' + 5)
      (hpins : s'.pins = { sck := false, dirData := .input, dirClk := .output })
      (heng : s'.eng = { s.eng with
        op := Opcode.init, arg := arg, gain := some g, sg := g, tmo := 200, seq := .wStart })
      (h : GainChangeEnd s' t k' tr')

theorem FirstResponse.init_inv {arg : Word} (h : FirstResponse (.init arg) s k t tr) : InitEnd arg s t k tr := by
  obtain ⟨_, s1, k1, tr1, m, g1, p1, rfl, rfl, h1⟩ := h.accept_inv nofun
  cases m with
  | initInvalid _ hg =>
    obtain ⟨rfl, rfl, rfl⟩ := h1.zero (by rw [g1])
    exact .invalid hg rfl rfl p1 g1
  | init _ g hg =>
    have q1 : s1.eng.seq = .iCfgData := by rw [g1]
    cases hc1 : s1.inputs.cfg with
    | fail e =>
      obtain ⟨rfl, gt, pt, rfl⟩ := h1.respond (by simp [q1]) (by simp [q1]) (sequencer_iCfgData_fail _ _ q1 hc1) rfl
      exact .dataFails g hg e _ rfl rfl (by rw [pt, p1]) (by rw [gt, g1])
    | ok =>
      obtain ⟨k2, s2, tr2, rfl, g2, p2, rfl, h2⟩ :=
        h1.next (by simp [q1]) (by simp [q1]) (sequencer_iCfgData_ok _ _ q1 hc1)
      have q2 : s2.eng.seq = .iCfgClk := by rw [g2]
      cases hc2 : s2.inputs.cfg with
      | fail e =>
        obtain ⟨rfl, gt, pt, rfl⟩ := h2.respond (by simp [q2]) (by simp [q2]) (sequencer_iCfgClk_fail _ _ q2 hc2) rfl
        exact .clkFails g hg e _ rfl rfl (by rw [pt, p2, p1]) (by rw [gt, g2, g1])
      | ok =>
        obtain ⟨k3, s3, tr3, rfl, g3, p3, rfl, h3⟩ :=
          h2.next (by simp [q2]) (by simp [q2]) (sequencer_iCfgClk_ok _ _ q2 hc2)
        have q3 : s3.eng.seq = .pSet := by rw [g3]
        have hlevel : powerLevel s3.eng.op s3.eng.arg = false := by rw [g3, g2, g1]; exact powerLevel_init arg
        obtain ⟨k4, s4, tr4, rfl, g4, p4, rfl, h4⟩ := h3.next (by simp [q3]) (by simp [q3]) (sequencer_pSet _ _ q3)
        rw [hlevel] at p4 ⊢
        have q4 : s4.eng.seq = .pHold := by rw [g4]
        have o4 : s4.eng.op = Opcode.init := by rw [g4, g3, g2, g1]
        obtain ⟨k5, s5, tr5, rfl, g5, p5, rfl, h5⟩ :=
          h4.next (by simp [q4]) (by simp [q4]) (o4 ▸ sequencer_pHold_init s4.eng.arg q4)
        exact .changes g hg s5 k5 tr5 rfl rfl (by rw [p5, p4, p3, p2]) (by rw [g5, g4, g3, g2, g1])
          (h5.gainChange (by rw [g5]) (.inr (by rw [g5, o4])))

end

/-! ## The procedures, case by case -/

section

variable {arg : Word} {g : Selection} {h : Handle} {a : Answers}

/-- The operand's test in the procedures is the decoder's (R92). -/
theorem selection_of_gainOperand (hg : gainOperand arg = some g) :
    arg.toNat < 3 ∧ (if arg = 0 then Selection.a128 else if arg = 1 then Selection.b32 else Selection.a64) = g := by
  refine ⟨not_not.1 fun hn => by simp [gainOperand_eq_none.2 hn] at hg, ?_⟩
  unfold gainOperand at hg
  split_ifs at hg ⊢ <;> exact Option.some.inj hg

theorem procedure_setGain (hg : gainOperand arg = some g) : procedure (.setGain arg) h a = gainChange g h a := by
  obtain ⟨hlt, hsel⟩ := selection_of_gainOperand hg
  simp only [procedure, if_pos hlt, hsel]

theorem procedure_setGain_invalid (hg : gainOperand arg = none) :
    procedure (.setGain arg) h a = some (finish [] h .invalidArgument 0) := if_neg (gainOperand_eq_none.1 hg)

theorem procedure_init_invalid (hg : gainOperand arg = none) :
    procedure (.init arg) h a = some (finish [] h .invalidArgument 0) := if_neg (gainOperand_eq_none.1 hg)

theorem procedure_init_dataFails (hg : gainOperand arg = some g) {e : FailureCode} (hc : a.cfgs = [.fail e]) :
    procedure (.init arg) h a =
      some (finish [.cfg .data .input (.fail e)] { h with gain := some g, dirData := none } .pinFailure e.val) := by
  obtain ⟨hlt, hsel⟩ := selection_of_gainOperand hg
  simp only [procedure, if_pos hlt, hsel, hc]

theorem procedure_init_clkFails (hg : gainOperand arg = some g) {e : FailureCode} (hc : a.cfgs = [.ok, .fail e]) :
    procedure (.init arg) h a =
      some (finish [.cfg .data .input .ok, .cfg .clk .output (.fail e)]
        { h with gain := some g, dirData := some .input, dirClk := none } .pinFailure e.val) := by
  obtain ⟨hlt, hsel⟩ := selection_of_gainOperand hg
  simp only [procedure, if_pos hlt, hsel, hc]

theorem procedure_init (hg : gainOperand arg = some g) (hc : a.cfgs = [.ok, .ok]) :
    procedure (.init arg) h a =
      (gainChange g ⟨some g, false, some .input, some .output⟩ a).map fun p =>
        ([.cfg .data .input .ok, .cfg .clk .output .ok, .w false, .tick] ++ p.1, p.2) := by
  obtain ⟨hlt, hsel⟩ := selection_of_gainOperand hg
  simp only [procedure, if_pos hlt, hsel, hc]

/-- READ with a gain and its 24 samples (R168). -/
theorem procedure_read {bits : List Bool} (hg : h.gain = some g) (ha : a.douts = bits) (hbits : bits.length = 24) :
    procedure .read h a =
      some (finish (shiftTrace bits g) { h with sck := false } .ok (decodeSample (assembleSamples bits))) := by
  simp only [procedure, hg, ha, if_pos hbits, decodeSample]

end

/-! ## Refinement -/

section

variable {s t : State} {k : Nat} {tr : List Event}

theorem FirstResponse.waitReady_refines {ms : Word} (h : FirstResponse (.waitReady ms) s k t tr) :
    ∃ f : Final, procedure (.waitReady ms) s.handle (answersOf tr) = some (tr, f) ∧ f.agrees t := by
  obtain ⟨n, wt, ready, w, hpins, hgain, hdata, ⟨rfl, hst, rfl, -⟩ | ⟨rfl, hst, rfl, -⟩⟩ := h.waitReady_inv
  · refine ⟨⟨s.handle, .ok, 0⟩, ?_, by simp [Final.agrees, State.handle, hpins, hgain, hdata, hst]⟩
    rw [procedure, w.waitProc_eq rfl]
    rfl
  · refine ⟨⟨s.handle, .timeout, 0⟩, ?_, by simp [Final.agrees, State.handle, hpins, hgain, hdata, hst]⟩
    rw [procedure, w.waitProc_eq rfl]
    rfl

theorem FirstResponse.setGain_refines {arg : Word} (h : FirstResponse (.setGain arg) s k t tr) :
    ∃ f : Final, procedure (.setGain arg) s.handle (answersOf tr) = some (tr, f) ∧ f.agrees t := by
  cases h.setGain_inv with
  | invalid hg htr _ hpins heng =>
    subst htr
    exact ⟨⟨s.handle, .invalidArgument, 0⟩, procedure_setGain_invalid hg,
      by simp [Final.agrees, State.handle, heng, hpins]⟩
  | changes g hg s' k' _ hpins heng e =>
    obtain ⟨f, hf, hagrees⟩ := e.refines (by rw [heng])
    have hhandle : s'.handle = s.handle := by simp [State.handle, heng, hpins]
    have hsg : s'.eng.sg = g := by rw [heng]
    rw [hhandle, hsg] at hf
    exact ⟨f, (procedure_setGain hg).trans hf, hagrees⟩

theorem FirstResponse.init_refines {arg : Word} (h : FirstResponse (.init arg) s k t tr) :
    ∃ f : Final, procedure (.init arg) s.handle (answersOf tr) = some (tr, f) ∧ f.agrees t := by
  cases h.init_inv with
  | invalid hg htr _ hpins heng =>
    subst htr
    exact ⟨⟨s.handle, .invalidArgument, 0⟩, procedure_init_invalid hg,
      by simp [Final.agrees, State.handle, heng, hpins]⟩
  | dataFails g hg e d htr _ hpins heng =>
    subst htr
    exact ⟨_, procedure_init_dataFails hg rfl, by simp [Final.agrees, State.handle, heng, hpins]⟩
  | clkFails g hg e d htr _ hpins heng =>
    subst htr
    exact ⟨_, procedure_init_clkFails hg rfl, by simp [Final.agrees, State.handle, heng, hpins]⟩
  | changes g hg s' k' tr' htr _ hpins heng e =>
    subst htr
    obtain ⟨f, hf, hagrees⟩ := e.refines (by rw [heng])
    have hhandle : s'.handle = ⟨some g, false, some .input, some .output⟩ := by simp [State.handle, heng, hpins]
    have hsg : s'.eng.sg = g := by rw [heng]
    rw [hhandle, hsg] at hf
    refine ⟨f, ?_, hagrees⟩
    rw [procedure_init hg (by simp [e.cfgs_eq_nil])]
    exact (congrArg (Option.map _) hf).trans rfl

end

/-- Settles O43: command by command the run's trace is the one its procedure gives for the answers in it, and the
registers it leaves are the procedure's. -/
theorem sequencerRefinesTheProcedures : Obligations.SequencerRefinesTheProcedures := by
  intro i s t k tr h
  cases i with
  | init arg => exact h.init_refines
  | setPower down =>
    obtain ⟨rfl, -, hpins, heng⟩ := h.setPower_inv
    exact ⟨_, rfl, by simp [Final.agrees, State.handle, heng, hpins]⟩
  | setGain arg => exact h.setGain_refines
  | isReady =>
    obtain ⟨b, rfl, -, hpins, heng⟩ := h.isReady_inv
    exact ⟨_, rfl, by simp [Final.agrees, State.handle, heng, hpins, readyDatum]⟩
  | waitReady ms => exact h.waitReady_refines
  | read =>
    obtain ⟨g, bits, hg, hbits, rfl, -, hpins, heng⟩ := h.read_inv
    have hdouts : (answersOf (shiftTrace bits g ++ [.rsp .ok (decodeSample (assembleSamples bits))])).douts = bits := by
      simp [answersOf_append, answersOf_shiftTrace]
    exact ⟨_, procedure_read hg hdouts hbits, by simp [Final.agrees, State.handle, heng, hpins, hg]⟩

/-! ## Step counts -/

section

variable {s t : State} {k : Nat} {tr : List Event}

/-- The coarse delays of a gain change are those of its wait, and they and the selection give its length. -/
theorem GainChangeEnd.steps (e : GainChangeEnd s t k tr) :
    (t.eng.rspStatus = .timeout ∧ k = 3 * tr.count .tick + 1) ∨
      (t.eng.rspStatus = .ok ∧ k = 3 * tr.count .tick + 4 * (codeOf s.eng.sg).toNat + 129) := by
  cases e with
  | expires n wt w htr hk _ heng => exact .inl ⟨by rw [heng], by simp [htr, hk]⟩
  | commits n wt bits w _ htr hk _ heng =>
    have hshift := List.count_eq_zero.2 (tick_not_mem_shiftTrace bits s.eng.sg)
    exact .inr ⟨by rw [heng], by simp [htr, hk, hshift]⟩

theorem FirstResponse.setGain_steps {arg : Word} (h : FirstResponse (.setGain arg) s k t tr) :
    (∀ g, gainOperand arg = some g → t.eng.rspStatus = .ok →
      k + 1 = 3 * tr.count .tick + 4 * (codeOf g).toNat + 131) ∧
    (t.eng.rspStatus = .timeout → k + 1 = 3 * tr.count .tick + 3) ∧ (t.eng.rspStatus = .invalidArgument → k + 1 = 2) := by
  cases h.setGain_inv with
  | invalid hg _ hk _ heng => simp [hg, hk, heng]
  | changes g hg s' k' hk _ heng e =>
    have hsg : s'.eng.sg = g := by rw [heng]
    rcases e.steps with ⟨hst, hk'⟩ | ⟨hst, hk'⟩
    · exact ⟨by simp [hst], fun _ => by omega, by simp [hst]⟩
    · refine ⟨fun g' hg' _ => ?_, by simp [hst], by simp [hst]⟩
      obtain rfl : g = g' := Option.some.inj (hg.symm.trans hg')
      rw [hsg] at hk'
      omega

/-- The coarse delays of INIT are the one of its power command and those of its wait. -/
theorem FirstResponse.init_steps {arg : Word} (h : FirstResponse (.init arg) s k t tr) :
    (∀ g, gainOperand arg = some g → t.eng.rspStatus = .ok →
      k + 1 = 3 * (tr.count .tick - 1) + 4 * (codeOf g).toNat + 135) ∧
    (t.eng.rspStatus = .timeout → k + 1 = 3 * (tr.count .tick - 1) + 7) ∧
    (t.eng.rspStatus = .invalidArgument → k + 1 = 2) := by
  cases h.init_inv with
  | invalid hg _ hk _ heng => simp [hg, hk, heng]
  | dataFails _ _ _ _ _ _ _ heng => simp [heng]
  | clkFails _ _ _ _ _ _ _ heng => simp [heng]
  | changes g hg s' k' tr' htr hk _ heng e =>
    have hsg : s'.eng.sg = g := by rw [heng]
    have htick : tr.count .tick = tr'.count .tick + 1 := by simp [htr]
    rcases e.steps with ⟨hst, hk'⟩ | ⟨hst, hk'⟩
    · exact ⟨by simp [hst], fun _ => by omega, by simp [hst]⟩
    · refine ⟨fun g' hg' _ => ?_, by simp [hst], by simp [hst]⟩
      obtain rfl : g = g' := Option.some.inj (hg.symm.trans hg')
      rw [hsg] at hk'
      omega

end

/-- Settles O44: the length of each command's run, counted along its phases. -/
theorem operationsTakeTheStatedSteps : Obligations.OperationsTakeTheStatedSteps := by
  intro i s t k tr h
  cases i with
  | init arg =>
    obtain ⟨hok, htimeout, hinvalid⟩ := h.init_steps
    refine ⟨nofun, nofun, nofun, nofun, nofun, ?_, nofun, ?_, hinvalid⟩
    · rintro _ g ⟨⟩
      exact hok g
    · rintro _ ⟨⟩
      exact htimeout
  | setPower down =>
    obtain ⟨-, rfl, -, heng⟩ := h.setPower_inv
    simp [heng]
  | setGain arg =>
    obtain ⟨hok, htimeout, hinvalid⟩ := h.setGain_steps
    refine ⟨nofun, nofun, nofun, nofun, ?_, nofun, ?_, nofun, hinvalid⟩
    · rintro _ g ⟨⟩
      exact hok g
    · rintro _ ⟨⟩
      exact htimeout
  | isReady =>
    obtain ⟨b, -, rfl, -, heng⟩ := h.isReady_inv
    simp [heng]
  | waitReady ms =>
    obtain ⟨n, wt, ready, -, -, -, -, ⟨-, hst, rfl, rfl⟩ | ⟨-, hst, rfl, hm, rfl⟩⟩ := h.waitReady_inv
    · simp [hst]
    · simp [hst, List.count_pos_iff.1 hm]
  | read =>
    obtain ⟨g, bits, hg, -, -, rfl, -, heng⟩ := h.read_inv
    refine ⟨nofun, nofun, fun g' _ hg' => ?_, nofun, nofun, nofun, nofun, nofun, by simp [heng]⟩
    obtain rfl : g = g' := Option.some.inj (hg.symm.trans hg')
    omega

end Sys2Proof.Machine

/-! PROOFS. The statements on the environment: no run depends on the device (O33), a bound the platform breaks (O55),
READ on a device that keeps its side (O51), and the end of every wait under the progress assumption (O48). -/

namespace Sys2Proof.Machine

open Sys2Proof

/-! ## Runs with another device -/

/-- Both outcomes stop for the same reason, or both go on, to states that differ in the device only. -/
inductive SameButDevice : Host.Outcome State Fault Refusal → Host.Outcome State Fault Refusal → Prop
  | next (t : State) (d : Device) : SameButDevice (.next t) (.next { t with dev := d })
  | fault (f : Fault) : SameButDevice (.fault f) (.fault f)
  | refused (f : Refusal) : SameButDevice (.refused f) (.refused f)

section

variable (s : State) (d : Device)

/-- The transition table does not read the device (R180, R218). -/
theorem sequencer_device (op : BitVec 8) (arg : Word) :
    sequencer op arg { s with dev := d } = { sequencer op arg s with dev := d } := by
  obtain ⟨hinputs, -⟩ := (sequencer_tableMove op arg s).environment
  exact (sequencer_congr op arg s s.inputs d rfl rfl fun _ => rfl).trans (by rw [← hinputs])

/-- Neither does an acceptance (R181). -/
theorem exec_idle_sameButDevice (i : Instr) (h : s.eng.seq = .idle) :
    SameButDevice (exec i s) (exec i { s with dev := d }) := by
  cases i with
  | init arg =>
    rw [exec_init_of_idle h, exec_init_of_idle (s := { s with dev := d }) h]
    cases hg : gainOperand arg with
    | none => rw [acceptInit_invalid _ hg, acceptInit_invalid _ hg]; exact .next _ d
    | some g => rw [acceptInit_valid _ hg, acceptInit_valid _ hg]; exact .next _ d
  | setGain arg =>
    rw [exec_setGain_of_idle h, exec_setGain_of_idle (s := { s with dev := d }) h]
    cases hg : gainOperand arg with
    | none => rw [acceptSetGain_invalid _ hg, acceptSetGain_invalid _ hg]; exact .next _ d
    | some g => rw [acceptSetGain_valid _ hg, acceptSetGain_valid _ hg]; exact .next _ d
  | setPower | isReady | waitReady =>
    simp only [exec, execSetPower, execIsReady, execWaitReady, h, if_true]
    exact .next _ d
  | read =>
    simp only [exec, execRead, h, if_true]
    cases s.eng.gain with
    | none => exact .fault _
    | some g => exact .next _ d

/-- The engine's step does not depend on the device (R218). -/
theorem engineStep_sameButDevice : SameButDevice (engineStep s) (engineStep { s with dev := d }) := by
  unfold engineStep
  by_cases hc : s.eng.seq = .idle ∧ s.inputs.cmdValid = true
  · rw [if_pos hc, if_pos hc]
    cases decode s.inputs.cmdWord with
    | ok i => exact exec_idle_sameButDevice s d i hc.1
    | error e => exact .next _ d
  · rw [if_neg hc, if_neg hc]
    dsimp only
    rw [sequencer_device s d]
    exact .next _ d

/-- The environment's move gives the device and no other field a value that depends on the device (R219). -/
theorem SameButDevice.advance {o o' : Host.Outcome State Fault Refusal} (h : SameButDevice o o') :
    SameButDevice (advanceOutcome o) (advanceOutcome o') := by
  cases h with
  | next t d => exact .next t.advance _
  | fault f => exact .fault f
  | refused f => exact .refused f

/-- A step depends on the device in the device only. -/
theorem step_sameButDevice : SameButDevice (step s) (step { s with dev := d }) := by
  cases hrst : s.inputs.rst with
  | true =>
    rw [step_reset hrst, step_reset (s := { s with dev := d }) hrst]
    exact .next s.applyReset.advance _
  | false =>
    simp only [step, hrst, Bool.false_eq_true, if_false]
    exact (engineStep_sameButDevice s d).advance

end

/-- Settles O33, by induction on the number of steps: the states of the two runs differ in the device only, which
may be another one after each step. -/
theorem runsNeverDependOnTheDevice : Obligations.RunsNeverDependOnTheDevice := by
  suffices h : ∀ (e : Device) (k : Nat) (s : State) (d : Device),
      (runTrace k { s with dev := d }).map (fun p => ({ p.1 with dev := e }, p.2)) =
      (runTrace k s).map (fun p => ({ p.1 with dev := e }, p.2)) from fun k s d => h d k s d
  intro e k
  induction k with
  | zero => exact fun _ _ => rfl
  | succ k ih =>
    intro s d
    have hstep := step_sameButDevice s d
    simp only [runTrace]
    generalize step s = o, step { s with dev := d } = o' at hstep ⊢
    cases hstep with
    | next t d' =>
      have hrest := congrArg (Option.map fun p => (p.1, t.events ++ p.2)) (ih t d')
      simpa only [Option.map_map, Function.comp_def] using hrest
    | fault | refused => rfl

/-! ## A bound the platform breaks -/

/-- A hold that outlasts its argument by more than T_JITTER_US, or lasts 2 us, breaks its bound (R220, R226 (c)). -/
theorem keepsHold_of_overrun {n o : Nat} (h : 1000 * Config.tJitterUs < o ∨ 2000 ≤ 1000 * n + o) :
    Config.keepsHold n (1000 * n + o) = false := by
  have hlimit : Config.holdLimitNs = 2000 := rfl
  simp only [Config.keepsHold, Bool.and_eq_false_iff, decide_eq_false_iff_not]
  omega

section

variable {u : State} {m : EnvMove}

theorem State.keepsBounds_of_hold {n : Nat} (hn : .us n ∈ u.events)
    (h : Config.keepsHold n (1000 * n + u.inputs.overrunNs) = false) : u.keepsBounds m = false := by
  rw [State.keepsBounds, Bool.and_eq_false_iff, List.all_eq_false]
  exact .inl ⟨_, hn, by simpa [eventNs] using h⟩

theorem State.keepsBounds_of_gap (hmode : u.eng.mode = .critical) (hgap : m.gapNs ≠ 0) : u.keepsBounds m = false := by
  simp [State.keepsBounds, hmode, hgap]

end

/-- Settles O55: each of the two breaks a bound, and a broken bound disturbs the device in that step. -/
theorem brokenBoundDisturbsTheDevice : Obligations.BrokenBoundDisturbsTheDevice := by
  intro s u hrst hu hbroken
  obtain ⟨-, hmove⟩ := engineStep_dev_nextMove hu
  obtain ⟨hinputs, -⟩ := (engineStep_inv hu).environment
  rw [← hmove, ← hinputs] at hbroken
  have hbounds : u.keepsBounds u.nextMove = false := by
    rcases hbroken with ⟨n, hn, hlong⟩ | ⟨hmode, hgap⟩
    · exact State.keepsBounds_of_hold hn (keepsHold_of_overrun hlong)
    · exact State.keepsBounds_of_gap hmode hgap
  exact ⟨u.advance, step_eq_advance hrst hu, State.deviceAfter_broken (by simp [State.keepsFrame, hbounds])⟩

/-! ## READ on a device that keeps its side -/

section

variable {s u : State} {m : EnvMove} {g : Selection}

/-- A step that ends outside a frame, with the clock low before and after it, leaves the selection latched, whatever the
device's own move, a reset apart (R212). -/
theorem State.deviceAfter_latched_of_low (hmode : u.eng.mode = .normal) (hev : ∀ n, .us n ∉ u.events)
    (hphase : inCriticalPhase u.eng.seq = false) (hwire : u.clkWire = false) (hclk : u.dev.clk = false)
    (hd : u.dev.Latched g) (hm : m.device ≠ .reset) : (u.deviceAfter m).Latched g := by
  have hkeeps : u.keepsFrame m = true :=
    State.keepsFrame_normal hmode hev (State.midFrame_of_not_critical hphase)
  have hstray : u.strayEdge = false := by simp [State.strayEdge, hclk]
  have hsame := Device.observe_same u.draws (u.stepNs + m.gapNs) u.dev
  rw [hclk, if_neg (by simp)] at hsame
  rw [State.deviceAfter_kept hkeeps hstray, hwire, hsame]
  refine Device.Latched.move ?_ _ hm
  exact ⟨hd.on, hd.undisturbed, hd.notShifting, hd.sel⟩

/-- The end of READ, S_EXIT and X_DECODE, after a frame for `g` that the device has counted: the response is ACC
decoded, and `g` stays latched (R200, R201, R212). -/
theorem read_completion {r : Raw} {ns : Nat} (h : s.eng.seq = .sExit) (hop : s.eng.op = Opcode.read)
    (hr : Along (fun u => NoReset u ∧ u.nextMove.device ≠ .reset) 2 s) (hdir : s.pins.dirClk = .output)
    (hsck : s.pins.sck = false) (hd : s.dev.Counting r (24 + pulsesOf g) false ns) :
    ∃ (t : State) (tr : List Event), runTrace 2 s = some (t, tr) ∧ t.eng.seq = .resp ∧ t.eng.rspStatus = .ok ∧
      t.eng.rspData = decodeSample s.eng.acc ∧ t.dev.Latched g := by
  obtain ⟨hrst, hmove⟩ := hr.head
  obtain ⟨s1, e1, g1, p1, -, d1⟩ := busy_step hrst (by simp [h]) (sequencer_sExit _ _ h)
  obtain ⟨s1', e1', hlatched⟩ := sExit_sound h hrst hmove hdir hsck hd
  obtain rfl := Host.Outcome.next.inj (e1.symm.trans e1')
  obtain ⟨hrst1, hmove1⟩ := (hr.tail e1).head
  have q1 : s1.eng = { s.eng with mode := .normal, seq := .xDecode } := by simp [g1, hop]
  have hclk1 : s1.dev.clk = false := by
    rw [d1, State.deviceAfter_clk, clkWire_output _ (by exact hdir)]
    exact hsck
  obtain ⟨t, e2, g2, -, -, d2⟩ := busy_step_device hrst1 (by simp [q1]) (sequencer_xDecode _ _ (by rw [q1])) rfl rfl
  refine ⟨t, _, runTrace_succ_some e1 (runTrace_one e2), by rw [g2], by rw [g2], by rw [g2, q1], ?_⟩
  rw [d2]
  refine State.deviceAfter_latched_of_low (by rw [q1]) (by simp) rfl ?_ hclk1 hlatched hmove1
  rw [clkWire_output _ (by rw [p1]; exact hdir), p1]
  exact hsck

end

/-- Settles O51: the frame leaves the device's result in ACC, and the completion decodes ACC. -/
theorem readAnswersTheDeviceConversion : Obligations.ReadAnswersTheDeviceConversion := by
  rintro s _ ⟨hop, -⟩ h rfl hdata hdir _ hpulses hon hclk hdist hr
  rw [show 127 + 4 * (codeOf s.eng.sg).toNat = (125 + 4 * (codeOf s.eng.sg).toNat) + 2 by omega] at hr ⊢
  have hcount : s.dev.Counting s.dev.result 0 false s.dev.levelNs := ⟨hpulses, hon, hdist, rfl, hclk, rfl, by simp⟩
  have hsound : Along (SoundPremise True) _ s :=
    hr.mono fun _ ⟨hrst, hplat, hdevice, hout⟩ => ⟨hrst, hplat, hdevice, fun _ => hout⟩
  obtain ⟨t, tr, acc, ns, run, hpins, heng, hacc, hdev⟩ :=
    frame_sound h (hsound.take (by omega)) hdir (fun _ => hdata) hcount
  have hrest : Along (fun u => NoReset u ∧ u.nextMove.device ≠ .reset) 2 t :=
    (hr.after run).mono fun _ ⟨hrst, _, ⟨hreset, _⟩, _⟩ => ⟨hrst, hreset⟩
  obtain ⟨t', tr', run', hseq, hstatus, hdatum, hlatched⟩ :=
    read_completion (by rw [heng]) (by rw [heng]; exact hop) hrest (by rw [hpins, ← hdir]) (by rw [hpins]) hdev
  refine ⟨t', _, runTrace_add run run', hseq, hstatus, ?_, hlatched.sel⟩
  rw [hdatum, heng, hacc trivial]
  rfl

/-! ## The end of a wait -/

section

variable {s u : State} {op : BitVec 8} {arg : Word}

/-- No phase of a wait writes TMO (R25). -/
theorem TableMove.tmo_eq_of_wait (m : TableMove op arg s u) (hs : waitPhase s.eng.seq = true) :
    u.eng.tmo = s.eng.tmo := by
  cases m with
  | pHoldInit h => simp [h, waitPhase] at hs
  | _ => rfl

/-- A wait is left into RESP or S_ENTER only (R187, R189). -/
theorem TableMove.leaves_wait (m : TableMove op arg s u) (hs : waitPhase s.eng.seq = true)
    (hu : waitPhase u.eng.seq = false) : u.eng.seq = .resp ∨ u.eng.seq = .sEnter := by
  cases m with
  | wCheckReady | wTimeExpired => exact .inl rfl
  | wCheckShift => exact .inr rfl
  | wStart | wCheckHigh | wYield | wTimeAgain => cases hu
  | _ => simp_all [waitPhase]

/-- A wait that goes on comes from W_START and W_TIME to W_CHECK, and from there to W_YIELD (R186, R187, R189). -/
theorem TableMove.stays_in_wait (m : TableMove op arg s u) (hu : waitPhase u.eng.seq = true) :
    (s.eng.seq = .wStart ∨ s.eng.seq = .wTime → u.eng.seq = .wCheck) ∧
    (s.eng.seq = .wCheck → u.eng.seq = .wYield) := by
  cases m with
  | wCheckReady | wCheckShift | wTimeExpired => cases hu
  | _ => simp_all

/-- A wait that goes on after W_TIME has not reached its bound (R189). -/
theorem TableMove.not_expired (m : TableMove op arg s u) (hs : s.eng.seq = .wTime)
    (hu : waitPhase u.eng.seq = true) : expired s.nowMs s.eng.t0 s.eng.tmo = false := by
  cases m with
  | wTimeAgain _ he => exact he
  | wTimeExpired => cases hu
  | _ => simp_all

end

section

variable {r : Nat → State}

/-- The next state of a course comes by a row of the table, and the environment's move leaves its engine as it is. -/
theorem WaitRun.next (h : WaitRun r) {j : Nat} (hj : waitPhase (r j).eng.seq = true) :
    ∃ u, TableMove (r j).eng.op (r j).eng.arg (r j) u ∧ (r (j + 1)).eng = u.eng := by
  obtain ⟨hrst, hstep⟩ := h.goesOn j hj
  have hbusy : (r j).eng.seq ≠ .idle := fun hidle => by simp [hidle, waitPhase] at hj
  refine ⟨_, sequencer_tableMove _ _ _, ?_⟩
  rw [Host.Outcome.next.inj (hstep.symm.trans (step_busy hrst hbusy)), advance_eng]

/-- A course that never ends has the bound it began with. -/
theorem WaitRun.tmo_eq (h : WaitRun r) (hall : ∀ j, waitPhase (r j).eng.seq = true) (j : Nat) :
    (r j).eng.tmo = (r 0).eng.tmo := by
  induction j with
  | zero => rfl
  | succ j ih =>
    obtain ⟨u, m, hu⟩ := h.next (hall j)
    rw [hu, m.tmo_eq_of_wait (hall j), ih]

/-- A course that never ends yields again and again. -/
theorem WaitRun.yields (h : WaitRun r) (hall : ∀ j, waitPhase (r j).eng.seq = true) (m : Nat) :
    ∃ j, m ≤ j ∧ (r j).eng.seq = .wYield := by
  have hnext : ∀ j, ((r j).eng.seq = .wStart ∨ (r j).eng.seq = .wTime → (r (j + 1)).eng.seq = .wCheck) ∧
      ((r j).eng.seq = .wCheck → (r (j + 1)).eng.seq = .wYield) := fun j => by
    obtain ⟨u, hm, hu⟩ := h.next (hall j)
    rw [hu]
    exact hm.stays_in_wait (hu ▸ hall (j + 1))
  have hcheck : ∀ j, (r j).eng.seq = .wStart ∨ (r j).eng.seq = .wTime → (r (j + 2)).eng.seq = .wYield :=
    fun j hj => (hnext (j + 1)).2 ((hnext j).1 hj)
  have hphase : (r m).eng.seq = .wStart ∨ (r m).eng.seq = .wCheck ∨ (r m).eng.seq = .wYield ∨
      (r m).eng.seq = .wTime := by
    have hwait := hall m
    cases hq : (r m).eng.seq <;> simp_all [waitPhase]
  rcases hphase with hq | hq | hq | hq
  · exact ⟨m + 2, by omega, hcheck m (.inl hq)⟩
  · exact ⟨m + 1, by omega, (hnext m).2 hq⟩
  · exact ⟨m, le_rfl, hq⟩
  · exact ⟨m + 2, by omega, hcheck m (.inr hq)⟩

/-- Under the progress assumption no course goes on for ever: at the step that reads the bound or more in W_TIME it ends
(R189, R222). -/
theorem WaitRun.ends (h : WaitRun r) (hp : Progress r) : ∃ j, waitPhase (r j).eng.seq = false := by
  by_contra hnone
  have hall : ∀ j, waitPhase (r j).eng.seq = true := by simpa using hnone
  obtain ⟨j, hq, hbound⟩ := hp hall (h.yields hall) (r 0).eng.tmo
  obtain ⟨u, m, hu⟩ := h.next (hall j)
  have hrunning := m.not_expired hq (hu ▸ hall (j + 1))
  rw [← h.tmo_eq hall j, ← expired_iff, hrunning] at hbound
  exact absurd hbound (by decide)

end

/-- Settles O48: the first state outside the wait's phases follows one inside them. -/
theorem everyWaitEndsUnderProgress : Obligations.EveryWaitEndsUnderProgress := by
  intro r h hp
  have hends := h.ends hp
  obtain ⟨j, hend, hbefore⟩ : ∃ j, waitPhase (r j).eng.seq = false ∧ ∀ i, i < j → waitPhase (r i).eng.seq = true :=
    ⟨Nat.find hends, Nat.find_spec hends, fun i hi => by simpa using Nat.find_min hends hi⟩
  refine ⟨j, ?_, hbefore⟩
  cases j with
  | zero => simp [h.starts, waitPhase] at hend
  | succ i =>
    have hwait := hbefore i i.lt_succ_self
    obtain ⟨u, m, hu⟩ := h.next hwait
    rw [hu] at hend ⊢
    exact m.leaves_wait hwait hend

end Sys2Proof.Machine

/-! PROOFS. The statement on the exceptions (O31): which responses a step gives, and from which phase each status comes. -/

namespace Sys2Proof.Machine

open Sys2Proof

/-! ## The response events of a step -/

/-- The events of the response port (R10), as O31 selects them. -/
def isResponse : Event → Bool
  | .rsp _ _ => true
  | _ => false

section

variable {s u : State}

/-- A row of the table responds just when it leads into RESP, with what it writes to RSP_STATUS and RSP_DATA (R234). -/
theorem TableMove.responses {op : BitVec 8} {arg : Word} (m : TableMove op arg s u) :
    u.events.filter isResponse =
      if s.eng.seq ≠ .resp ∧ u.eng.seq = .resp then [.rsp u.eng.rspStatus u.eng.rspData] else [] := by
  cases m <;> simp [isResponse, *]

/-- An acceptance responds just when it refuses the operand (R158, R181). -/
theorem AcceptMove.responses {i : Instr} (m : AcceptMove s i u) :
    u.events.filter isResponse = if u.eng.seq = .resp then [.rsp u.eng.rspStatus u.eng.rspData] else [] := by
  cases m <;> simp [isResponse]

theorem EngineMove.responses (m : EngineMove s u) :
    u.events.filter isResponse =
      if s.eng.seq ≠ .resp ∧ u.eng.seq = .resp then [.rsp u.eng.rspStatus u.eng.rspData] else [] := by
  cases m with
  | table _ _ m => exact m.responses
  | accept _ _ hidle _ _ m => simp [m.responses, hidle]
  | reserved hidle => simp [isResponse, hidle]

theorem EngineMove.no_response (m : EngineMove s u) (h : s.eng.seq = .resp ∨ u.eng.seq ≠ .resp) (st : Status)
    (d : Word) : .rsp st d ∉ u.events := by
  have hnone : u.events.filter isResponse = [] := m.responses.trans (if_neg (by tauto))
  exact fun he => List.filter_eq_nil_iff.1 hnone _ he rfl

/-! ## The phase a status comes from -/

/-- The table answers OK, but for the bound reached in W_TIME and a configuration that fails (R231). -/
theorem TableMove.answer {op : BitVec 8} {arg : Word} (m : TableMove op arg s u) (hs : s.eng.seq ≠ .resp)
    (hu : u.eng.seq = .resp) :
    u.eng.rspStatus = .ok ∨ (u.eng.rspStatus = .timeout ∧ s.eng.seq = .wTime) ∨
      (u.eng.rspStatus = .pinFailure ∧ (s.eng.seq = .iCfgData ∨ s.eng.seq = .iCfgClk) ∧
        ∃ e, s.inputs.cfg = .fail e ∧ u.eng.rspData = e.val) := by
  cases m with
  | cfgDataFail hq e hc => exact .inr (.inr ⟨rfl, .inl hq, e, hc, rfl⟩)
  | cfgClkFail hq e hc => exact .inr (.inr ⟨rfl, .inr hq, e, hc, rfl⟩)
  | wTimeExpired hq => exact .inr (.inl ⟨rfl, hq⟩)
  | idle => exact absurd hu hs
  | respWaits => exact absurd hu hs
  | _ => simp at hu ⊢

/-- An acceptance that answers refuses the operand, and has done nothing else (R158, R181). -/
theorem AcceptMove.answer {i : Instr} (m : AcceptMove s i u) (hu : u.eng.seq = .resp) :
    u.eng.rspStatus = .invalidArgument ∧ u.events = [.rsp .invalidArgument 0] := by
  cases m with
  | initInvalid => exact ⟨rfl, rfl⟩
  | setGainInvalid => exact ⟨rfl, rfl⟩
  | _ => simp at hu

/-- The four statuses of R231, each with the phases it comes from: InvalidArgument is the answer at acceptance, the rest
are the table's. -/
theorem EngineMove.answer (m : EngineMove s u) (hs : s.eng.seq ≠ .resp) (hu : u.eng.seq = .resp) :
    (u.eng.rspStatus = .invalidArgument ∧ s.eng.seq = .idle ∧ u.events = [.rsp .invalidArgument 0]) ∨
      u.eng.rspStatus = .ok ∨ (u.eng.rspStatus = .timeout ∧ s.eng.seq = .wTime) ∨
      (u.eng.rspStatus = .pinFailure ∧ (s.eng.seq = .iCfgData ∨ s.eng.seq = .iCfgClk) ∧
        ∃ e, s.inputs.cfg = .fail e ∧ u.eng.rspData = e.val) := by
  cases m with
  | table _ _ m => exact .inr (m.answer hs hu)
  | accept _ _ hidle _ _ m =>
    obtain ⟨hstatus, hevents⟩ := m.answer hu
    exact .inl ⟨hstatus, hidle, hevents⟩
  | reserved hidle => exact .inl ⟨rfl, hidle, rfl⟩

end

/-- Settles O31: an engine move responds just when it enters RESP, and there its status says which phase it left. -/
theorem errorsAriseOnlyInTheirPhases : Obligations.ErrorsAriseOnlyInTheirPhases := by
  intro s t hrst hstep
  rcases step_inv hstep with ⟨hr, -⟩ | ⟨-, u, m, rfl⟩
  · simp [hrst] at hr
  · rw [advance_eng, advance_events]
    refine ⟨fun hs hu => ⟨m.responses.trans (if_pos ⟨hs, hu⟩), ?_⟩, m.no_response⟩
    rcases m.answer hs hu with ⟨hst, harises⟩ | hst | ⟨hst, harises⟩ | ⟨hst, harises⟩
    · simp [hst, harises]
    · simp [hst]
    · simp [hst, harises]
    · simp [hst, harises]

end Sys2Proof.Machine

/-! PROOFS. The statement on the reset input (O10): what a step with rst asserted leaves, and what it does not reach. -/

namespace Sys2Proof.Machine

open Sys2Proof

/-- The output ports depend on SEQ and MODE only, so reset registers hold them at R260's values. -/
theorem ports_of_reset_registers {s : State} (he : s.eng = Engine.reset) :
    s.rspValid = false ∧ s.busy = false ∧ s.crit = false ∧ s.cmdReady = true := by
  simp [State.rspValid, State.busy, State.crit, State.cmdReady, he, Engine.reset]

/-- A reset of the engine that cuts no frame short does not reach the device (R261). -/
theorem Device.engineReset_of_not_cutsFrame {q : Phase} (h : cutsFrame q = false) (n : Nat) (d : Device) :
    d.engineReset n q = d := by
  simp [Device.engineReset, h]

/-- Settles O10: the environment's move writes neither register, pin nor event, so the step ends with those the reset
has written, whatever the phase was. -/
theorem resetInputResetsTheEngineOnly : Obligations.ResetInputResetsTheEngineOnly := by
  intro s hrst
  have heng : s.applyReset.advance.eng = Engine.reset := (advance_eng _).trans (applyReset_eng s)
  obtain ⟨hvalid, hbusy, hcrit, hready⟩ := ports_of_reset_registers heng
  exact ⟨step_reset hrst, congrArg Engine.seq heng, congrArg Engine.mode heng, congrArg Engine.gain heng,
    (advance_pins _).trans (applyReset_pins s), hvalid, hbusy, hcrit, hready,
    (advance_events _).trans (applyReset_events s), applyReset_clockMs s,
    fun hcut => Device.engineReset_of_not_cutsFrame hcut s.draws s.dev⟩

end Sys2Proof.Machine
